-- ==== Sys2Proof/Word.lean ====
section
/-! DEFINITION. The word types of the block (00_scope.md R16): a register or command word, a byte, a nibble, a level. -/

namespace Sys2Proof

/-- A host register value or a command word: 32 bits (R60, R90). -/
abbrev Word := BitVec 32

/-- A character code, a byte sent to the display, a key symbol's code. -/
abbrev Byte := BitVec 8

/-- The 4-bit value one Enable pulse latches (R150). -/
abbrev Nibble := BitVec 4

/-- A byte offset into the 16-byte host register window (R60). -/
abbrev Offset := BitVec 4

/-- A logic level: `true` is high, 1; `false` is low, 0 (R17). -/
abbrev Level := Bool

end Sys2Proof
end

