-- ==== Sys2Proof/Syntax.lean ====
section
/-! DEFINITION. The command set (30_encoding.md R90 to R92): one constructor per row of the opcode table; and the
assembler's command lines (R96) with the pseudo-instructions (R98 to R100). -/

namespace Sys2Proof

/-- The line select `L` of LCD_WRITE_LINE (R91): only the two lines of the display are encodable. -/
inductive DisplayLine where
  | line1   -- `L = 0`, address 0x80
  | line2   -- `L = 1`, address 0xC0
deriving DecidableEq, Repr

/-- A command (R92). An operand has exactly the values its field admits. -/
inductive Instr where
  | nop                             -- NOP, R201
  | kpInit                          -- KP_INIT, R120
  | kpScan                          -- KP_SCAN, R122
  | lcdInit                         -- LCD_INIT, R156
  | lcdCmd (v : Byte)               -- LCD_CMD, R154
  | lcdData (v : Byte)              -- LCD_DATA, R155
  | lbBegin                         -- LB_BEGIN, R180
  | lbPut (c : Byte)                -- LB_PUT, R181
  | lcdWriteLine (l : DisplayLine)  -- LCD_WRITE_LINE, R182
deriving DecidableEq, Repr

/-- An `<imm8>` as written: a number or a character literal (R96). -/
inductive Imm8 where
  | num (n : Nat)
  | chr (c : Char)
deriving DecidableEq, Repr

/-- A command line of the assembler (R96), not yet checked. -/
inductive AsmLine where
  | nop
  | kpInit
  | kpScan
  | lcdInit
  | lcdCmd (v : Imm8)
  | lcdData (v : Imm8)
  | lbBegin
  | lbPut (c : Imm8)
  | lcdLine (addr : Nat)
deriving DecidableEq, Repr

/-- The pseudo-instructions that expand to command lines alone (R98, R100). `kp.getkey` (R99) holds host control flow
and is a host program, in Machine/HostProgram.lean. -/
inductive Pseudo where
  | writeLine (text : List Byte) (addr : Nat)   -- lcd.write_line
  | send (value : Byte) (isData : Bool)         -- lcd.send
deriving DecidableEq, Repr

end Sys2Proof
end

