-- ==== Sys2Proof/WellFormed.lean ====
section
/-! DEFINITION. What the assembler refuses (30_encoding.md R96). An `Instr` needs no check of its own: each operand's
type has exactly the values its field admits (R91), so every `Instr` is well formed and has a word. -/

namespace Sys2Proof

/-- An `<imm8>` must be a number 0..255; a character literal stands for its byte code, so it must be a character whose
code is a byte (R96, printable ASCII: log 18). -/
def Imm8.wellFormed : Imm8 → Bool
  | .num n => decide (n ≤ 255)
  | .chr c => decide (0x20 ≤ c.toNat ∧ c.toNat ≤ 0x7E)

/-- A line address must be one of the two the source names (R91, R96). -/
def lineAddrWellFormed (addr : Nat) : Bool :=
  addr == 0x80 || addr == 0xC0

/-- What the assembler accepts (R96). -/
def AsmLine.wellFormed : AsmLine → Bool
  | .nop => true
  | .kpInit => true
  | .kpScan => true
  | .lcdInit => true
  | .lcdCmd v => v.wellFormed
  | .lcdData v => v.wellFormed
  | .lbBegin => true
  | .lbPut c => c.wellFormed
  | .lcdLine addr => lineAddrWellFormed addr

/-- Every command is well formed: its operand types admit exactly the encodable values (R91). -/
def Instr.wellFormed : Instr → Bool
  | .nop => true
  | .kpInit => true
  | .kpScan => true
  | .lcdInit => true
  | .lcdCmd _ => true
  | .lcdData _ => true
  | .lbBegin => true
  | .lbPut _ => true
  | .lcdWriteLine _ => true

end Sys2Proof
end

