-- ==== Sys2Proof/Decode.lean ====
section
/-! DEFINITION. Decoding a command word (30_encoding.md R90 to R95), the encoder, the assembler (R96) and the expansion
of the pseudo-instructions (R98, R100). -/

namespace Sys2Proof

/-- The opcode field `w[31:28]` (R90). -/
def opcField (w : Word) : BitVec 4 := w.extractLsb' 28 4

/-- The reserved field `w[27:8]` (R90). -/
def rsvField (w : Word) : BitVec 20 := w.extractLsb' 8 20

/-- The operand field `w[7:0]` (R90). -/
def argField (w : Word) : Byte := w.extractLsb' 0 8

/-- Why a word is illegal: the four cases of R94, and a bus value that is not one 32-bit word (R95). -/
inductive Illegal where
  | reservedBits     -- (a) `w[27:8] != 0`
  | reservedOpcode   -- (b) opcodes 0x9 to 0xF
  | operandNotZero   -- (c) an opcode with no operand and `ARG8 != 0`
  | lineNotOneBit    -- (d) LCD_WRITE_LINE with `ARG8[7:1] != 0`
  | notOneWord       -- not four bytes
deriving DecidableEq, Repr

/-- A command with no operand: ARG8 must be 0x00 (R91). -/
def decodeNone (i : Instr) (arg : Byte) : Except Illegal Instr :=
  if arg = 0 then .ok i else .error .operandNotZero

/-- The `line` operand form (R91). -/
def decodeLine (arg : Byte) : Except Illegal DisplayLine :=
  if arg.extractLsb' 1 7 = 0 then
    if arg.getLsbD 0 then .ok .line2 else .ok .line1
  else .error .lineNotOneBit

/-- `decode(w)` of R93, total on every word. -/
def decode (w : Word) : Except Illegal Instr :=
  let arg := argField w
  if rsvField w ≠ 0 then .error .reservedBits
  else match (opcField w).toNat with
    | 0x0 => decodeNone .nop arg
    | 0x1 => decodeNone .kpInit arg
    | 0x2 => decodeNone .kpScan arg
    | 0x3 => decodeNone .lcdInit arg
    | 0x4 => .ok (.lcdCmd arg)
    | 0x5 => .ok (.lcdData arg)
    | 0x6 => decodeNone .lbBegin arg
    | 0x7 => .ok (.lbPut arg)
    | 0x8 => (decodeLine arg).map .lcdWriteLine
    | _ => .error .reservedOpcode

/-- Byte lane `k` of a register value: bits `[8k+7:8k]`, little-endian (R62). -/
def laneByte (w : Word) (k : Fin 4) : Byte := w.extractLsb' (8 * k.val) 8

/-- The four bytes a host bus carries a word as, lowest address first (R62). -/
def wordBytes (w : Word) : List Byte := [laneByte w 0, laneByte w 1, laneByte w 2, laneByte w 3]

/-- The word four byte lanes carry (R62). -/
def wordOfBytes (b0 b1 b2 b3 : Byte) : Word := b3 ++ b2 ++ b1 ++ b0

/-- Decoding the bytes of a CMD write, total on every list of bytes: the only access is one 32-bit word (R61, R95). -/
def decodeBytes : List Byte → Except Illegal Instr
  | [b0, b1, b2, b3] => decode (wordOfBytes b0 b1 b2 b3)
  | _ => .error .notOneWord

/-- The word OPC, RSV = 0, ARG8 (R90). -/
def commandWord (opc : BitVec 4) (arg : Byte) : Word := opc ++ (0 : BitVec 20) ++ arg

/-- The line select bit in its ARG8 (R91). -/
def lineArg : DisplayLine → Byte
  | .line1 => 0
  | .line2 => 1

/-- The opcode of a command (R92). -/
def opcodeOf : Instr → BitVec 4
  | .nop => 0x0
  | .kpInit => 0x1
  | .kpScan => 0x2
  | .lcdInit => 0x3
  | .lcdCmd _ => 0x4
  | .lcdData _ => 0x5
  | .lbBegin => 0x6
  | .lbPut _ => 0x7
  | .lcdWriteLine _ => 0x8

/-- The operand byte of a command (R91). -/
def arg8Of : Instr → Byte
  | .nop => 0
  | .kpInit => 0
  | .kpScan => 0
  | .lcdInit => 0
  | .lcdCmd v => v
  | .lcdData v => v
  | .lbBegin => 0
  | .lbPut c => c
  | .lcdWriteLine l => lineArg l

/-- The word of a command (R92). -/
def encode (i : Instr) : Word := commandWord (opcodeOf i) (arg8Of i)

/-- A row of R92's table of exact words: a word is the row's when its bits under `mask` are `pattern`. -/
structure OpcodeRow where
  mnemonic : String
  pattern : Word
  mask : Word
deriving DecidableEq, Repr

/-- The exact words of R92. -/
def opcodeRows : List OpcodeRow :=
  [⟨"NOP", 0x00000000, 0xFFFFFFFF⟩, ⟨"KP_INIT", 0x10000000, 0xFFFFFFFF⟩, ⟨"KP_SCAN", 0x20000000, 0xFFFFFFFF⟩,
   ⟨"LCD_INIT", 0x30000000, 0xFFFFFFFF⟩, ⟨"LCD_CMD", 0x40000000, 0xFFFFFF00⟩, ⟨"LCD_DATA", 0x50000000, 0xFFFFFF00⟩,
   ⟨"LB_BEGIN", 0x60000000, 0xFFFFFFFF⟩, ⟨"LB_PUT", 0x70000000, 0xFFFFFF00⟩, ⟨"LCD_WRITE_LINE", 0x80000000, 0xFFFFFFFE⟩]

/-- A word belongs to a row (R92). -/
def OpcodeRow.has (r : OpcodeRow) (w : Word) : Bool := w &&& r.mask == r.pattern

/-- The byte an `<imm8>` stands for (R96). -/
def Imm8.byte : Imm8 → Byte
  | .num n => BitVec.ofNat 8 n
  | .chr c => BitVec.ofNat 8 c.toNat

/-- The assembler (R96): the command of a line it accepts, nothing for a line it refuses. -/
def assemble (a : AsmLine) : Option Instr :=
  if a.wellFormed then
    match a with
    | .nop => some .nop
    | .kpInit => some .kpInit
    | .kpScan => some .kpScan
    | .lcdInit => some .lcdInit
    | .lcdCmd v => some (.lcdCmd v.byte)
    | .lcdData v => some (.lcdData v.byte)
    | .lbBegin => some .lbBegin
    | .lbPut c => some (.lbPut c.byte)
    | .lcdLine addr => some (.lcdWriteLine (if addr = 0x80 then .line1 else .line2))
  else none

/-- The word the assembler gives a line (R96). -/
def assembleWord (a : AsmLine) : Option Word := (assemble a).map encode

/-- The expansion of a pseudo-instruction (R98, R100): every character is put, the block drops those past the 16th. -/
def Pseudo.expand : Pseudo → List AsmLine
  | .writeLine text addr => .lbBegin :: (text.map fun c => .lbPut (.num c.toNat)) ++ [.lcdLine addr]
  | .send value isData => if isData then [.lcdData (.num value.toNat)] else [.lcdCmd (.num value.toNat)]

/-- The instruction the decoder reads from an opcode-table word of `nbits` bits, the bits above them being 0. -/
def decodeTableWord (nbits w : Nat) : Option Instr :=
  let v := w % 2 ^ nbits
  if v < 2 ^ 32 then
    match decodeBytes (wordBytes (BitVec.ofNat 32 v)) with
    | .ok i => some i
    | .error _ => none
  else none

end Sys2Proof
end

