-- ==== Sys2Proof/Config.lean ====
section
/-! DEFINITION. What one build of the block fixes (00_scope.md R6 to R12, 20_memory.md R60) and the free values.
A free value is a constant with no body: no proof can see what it is. -/

namespace Sys2Proof

/-- The 16 key symbols: "output alphabet is exactly" 0..9, *, #, A, B, C, D (R11). -/
inductive Symbol where
  | digit0 | digit1 | digit2 | digit3 | digit4 | digit5 | digit6 | digit7 | digit8 | digit9
  | star | hash | letterA | letterB | letterC | letterD
deriving DecidableEq, Repr, Inhabited

/-- The symbols counted 0 to 15. -/
def Symbol.all : Vector Symbol 16 :=
  #v[.digit0, .digit1, .digit2, .digit3, .digit4, .digit5, .digit6, .digit7, .digit8, .digit9, .star, .hash,
     .letterA, .letterB, .letterC, .letterD]

/-- The symbol counted `k`, so that a permutation of the indices is a legend. -/
def Symbol.ofIndex (k : Fin 16) : Symbol := Symbol.all[k]

/-- The parameters of a build. They are plain data carried beside the state, so that every statement about a state
holds for every build (log 9); no step changes them (R35, R250). -/
structure Params where
  /-- `T_SETTLE`, microseconds (R8). -/
  tSettle : Nat
  /-- `T_PULSE`, microseconds (R8). -/
  tPulse : Nat
  /-- `T_SCAN_SETTLE`, microseconds, 0 meaning no wait (R9). -/
  tScanSettle : Nat
  /-- `CLK_HZ` (R10). -/
  clkHz : Nat
  /-- `KEYMAP`, row by row: the key at row `i`, column `j` is entry `4 * i + j` (R11). -/
  keymap : Vector Symbol 16
  /-- `PASS_END_ON_EVENT` (R12). -/
  passEndOnEvent : Bool
  /-- `BASE`, where the register window sits in HOST's own address space (R60). -/
  base : Nat
deriving DecidableEq, Repr

/-- The constraints the spec puts on a build: R8 (`T_PULSE >= 1`, `T_SETTLE >= 1`), R10 (positive) and R11 (`KEYMAP` is
a bijection onto the 16 symbols). -/
def Params.valid (p : Params) : Bool :=
  decide (1 ≤ p.tSettle) && decide (1 ≤ p.tPulse) && decide (1 ≤ p.clkHz) && decide p.keymap.toList.Nodup

/-- `T_SCAN_SETTLE` is OPEN (R9): a free value (log 9). -/
opaque Config.scanSettle : Nat

/-- `CLK_HZ` is OPEN and positive (R10): one more than a free value (log 9). -/
opaque Config.clockBelow : Nat

/-- `BASE` is OPEN (R60): a free value (log 17). -/
opaque Config.base : Nat

/-- `KEYMAP` is OPEN but for being a bijection (R11): a free permutation of the 16 symbols (log 10). -/
opaque Config.keyOrder : Equiv.Perm (Fin 16)

/-- The level ENV answers the `n`-th free `PinRead` with: any bit (R73, U4; log 3). -/
opaque Config.freeLevel : Nat → Bool

/-- Whether ENV accepts the `n`-th free `Cfg` or `PullUp` (R70, R71, U5; log 3). -/
opaque Config.freeAck : Nat → Bool

/-- The legend a free permutation gives. -/
def Config.legendOf (order : Equiv.Perm (Fin 16)) : Vector Symbol 16 :=
  #v[Symbol.ofIndex (order 0), Symbol.ofIndex (order 1), Symbol.ofIndex (order 2), Symbol.ofIndex (order 3),
     Symbol.ofIndex (order 4), Symbol.ofIndex (order 5), Symbol.ofIndex (order 6), Symbol.ofIndex (order 7),
     Symbol.ofIndex (order 8), Symbol.ofIndex (order 9), Symbol.ofIndex (order 10), Symbol.ofIndex (order 11),
     Symbol.ofIndex (order 12), Symbol.ofIndex (order 13), Symbol.ofIndex (order 14), Symbol.ofIndex (order 15)]

/-- The build that the reset state is given: the spec's defaults where it states them (R8, R12), free values where it
says OPEN (R9, R10, R11, R60). -/
def Config.build : Params where
  tSettle := 500
  tPulse := 500
  tScanSettle := Config.scanSettle
  clkHz := Config.clockBelow + 1
  keymap := Config.legendOf Config.keyOrder
  passEndOnEvent := true
  base := Config.base

end Sys2Proof
end

