-- ==== Sys2Proof/Machine/State.lean ====
section
/-! DEFINITION. The state of the block (10_state.md R20 to R39), the reasons a step can stop, and the state after reset
(70_reset_and_hazards.md R250). -/

namespace Sys2Proof.Machine

/-- The 14 pins (R20). -/
inductive Pin where
  | row (i : Fin 4)
  | col (j : Fin 4)
  | rs | e | d4 | d5 | d6 | d7
deriving DecidableEq, Repr

/-- Where a pin's pad stands among the 14. -/
def Pin.index : Pin → Fin 14
  | .row i => ⟨i.val, by omega⟩
  | .col j => ⟨4 + j.val, by omega⟩
  | .rs => 8
  | .e => 9
  | .d4 => 10
  | .d5 => 11
  | .d6 => 12
  | .d7 => 13

/-- `DIR[p]` (R21): the spec's `in` and `out`. -/
inductive Dir where
  | input | output
deriving DecidableEq, Repr

/-- The three pad state bits of a pin (R21): `DIR`, `OUT`, `PU`. -/
structure Pad where
  dir : Dir
  out : Level
  pu : Bool
deriving DecidableEq, Repr

/-- The pad state of all 14 pins, by `Pin.index`. -/
abbrev Pads := Vector Pad 14

/-- A pin primitive (R18, R70 to R74): what SEQ performs, one a step. -/
inductive Prim where
  | cfg (p : Pin) (d : Dir)
  | pullUp (p : Pin)
  | write (p : Pin) (lvl : Level)
  | read (p : Pin)
  | wait (us : Nat)
deriving DecidableEq, Repr

/-- The phases of a scan pass (R33, R122). -/
inductive Phase where
  | drive | settle | read | release | restore
deriving DecidableEq, Repr

/-- `St(SCAN)` (R33): the position of KP_SCAN's loop. -/
structure Scan where
  phase : Phase
  j : Fin 4
  i : Fin 4
  hit : Bool
deriving DecidableEq, Repr

/-- The five sticky flags, STATUS bits 8 to 12 (R23, R24). -/
structure Flags where
  ill : Bool
  ovr : Bool
  notinit : Bool
  cfgerr : Bool
  kovr : Bool
deriving DecidableEq, Repr

/-- The causes of R210, each named by the flag it sets. -/
inductive ErrCause where
  | ill | ovr | notinit | cfgerr | kovr
deriving DecidableEq, Repr

/-- The KEY register's fields (R26). -/
structure KeyReg where
  valid : Bool
  col : BitVec 2
  row : BitVec 2
  sym : Byte
deriving DecidableEq, Repr

/-- One entry of the pin trace (R19): a primitive SEQ performed, with the answer it got; `reset` marks where a reset cut
the trace (log 11). -/
inductive PinEvent where
  | cfg (p : Pin) (d : Dir) (accepted : Bool)
  | pullUp (p : Pin) (accepted : Bool)
  | write (p : Pin) (lvl : Level)
  | read (p : Pin) (lvl : Level)
  | wait (us : Nat)
  | reset
deriving DecidableEq, Repr

/-- One key event (R125): its row, its column and the symbol's code. -/
structure KeyEvent where
  row : Fin 4
  col : Fin 4
  sym : Byte
deriving DecidableEq, Repr

/-- One value a HOST read returned (R19). -/
structure HostRead where
  offset : Offset
  value : Word
deriving DecidableEq, Repr

/-- The observation of R19, oldest first. No rule of the block reads it (log 11). -/
structure Obs where
  pins : List PinEvent
  keys : List KeyEvent
  reads : List HostRead
deriving DecidableEq, Repr

/-- A HOST access: an offset into the register window and a width in bytes (R60, R61). -/
inductive HostAccess where
  | read (off : Offset) (bytes : Nat)
  | write (off : Offset) (bytes : Nat) (v : Word)
deriving DecidableEq, Repr

/-- ENV's answer to whatever SEQ's primitive asks in this step: the level of a `PinRead` (R73), the acceptance of a
`Cfg` or `PullUp` (R70, R71). A primitive that asks nothing ignores it. -/
structure Answer where
  level : Level
  ack : Bool
deriving DecidableEq, Repr

/-- What the outside world does in one step (R15, R67): a HOST access, SEQ's turn with ENV's answer, both in the same
step (R24, R27), or reset. -/
inductive Input where
  | host (a : HostAccess)
  | seq (ans : Answer)
  | both (a : HostAccess) (ans : Answer)
  | reset
deriving DecidableEq, Repr

/-- An action of SEQ never faults (R228): there is no fault reason. -/
inductive Fault where
deriving DecidableEq, Repr

/-- The reasons the model stops. -/
inductive Refusal where
  /-- Raised by `exec`'s arm of an instruction that has no meaning yet. Safe. No arm of this model is such. -/
  | notModelled (mnemonic : String)
  /-- Raised by a HOST access of another width than 4 bytes or at an offset that is no multiple of 4: "a model refuses
  it (the access has no meaning, which errs toward unprovable)" (R61, R228). Safe. -/
  | accessNotAdmitted (off : Offset) (bytes : Nat)
deriving DecidableEq, Repr

/-- The state of the block, its build, and what the outside world does next. -/
structure State where
  /-- `DIR`, `OUT`, `PU` of the 14 pins (R21). -/
  pads : Pads
  /-- STATUS bits 8 to 12 (R23, R24). -/
  flags : Flags
  /-- KEY (R26). -/
  key : KeyReg
  /-- `St(KP_READY)` (R30). -/
  kpReady : Bool
  /-- `St(LCD_READY)` (R30). -/
  lcdReady : Bool
  /-- `St(LB)` (R31). -/
  lb : Vector Byte 16
  /-- `St(LB_IDX)`, 0..16 (R32). -/
  lbIdx : Fin 17
  /-- `St(CUR)` (R33). -/
  cur : Option Instr
  /-- `St(ACTS)` (R33). -/
  acts : List Prim
  /-- `St(SCAN)` (R33). -/
  scan : Scan
  /-- `St(WAITLEFT)`, cycles (R33, R74). -/
  waitLeft : Nat
  /-- The build's parameters; no step changes them (R35, R250; log 9). -/
  params : Params
  /-- The model's own: what the outside world does next, oldest first (log 1). -/
  inputs : List Input
  /-- The model's own: how many free answers of ENV have been drawn (log 3). -/
  draws : Nat
  /-- The model's own: the observation of R19 (log 11). -/
  obs : Obs
deriving DecidableEq, Repr

/-- A pad after reset: an input, `OUT = 0`, no pull-up (R21). -/
def Pad.reset : Pad := ⟨.input, false, false⟩

/-- The scan state after reset and at the start of a pass (R33, R200). -/
def Scan.start : Scan := ⟨.drive, 0, 0, false⟩

/-- The block right after reset, in a build with parameters `p` (R250). -/
def State.resetIn (p : Params) : State where
  pads := Vector.replicate 14 Pad.reset
  flags := ⟨false, false, false, false, false⟩
  key := ⟨false, 0, 0, 0⟩
  kpReady := false
  lcdReady := false
  lb := Vector.replicate 16 0x20
  lbIdx := 0
  cur := none
  acts := []
  scan := Scan.start
  waitLeft := 0
  params := p
  inputs := []
  draws := 0
  obs := ⟨[], [], []⟩

/-- The machine right after reset (R250). -/
def State.reset : State := State.resetIn Config.build

end Sys2Proof.Machine
end

