-- ==== Sys2Proof/Machine/Ops.lean ====
section
/-! DEFINITION. The operations every meaning is written over: pads and pin primitives (20_memory.md R70 to R74),
raising an error (60_exceptions.md R217), the acceptance checks of a command (43_system.md R200). -/

namespace Sys2Proof.Machine

/-- What a pin presents to the outside (R22). -/
inductive PinLevel where
  | driven (lvl : Level)
  | weakHigh
  | floating
deriving DecidableEq, Repr

/-- The pad of a pin. -/
def Pads.at (v : Pads) (p : Pin) : Pad := v[p.index.val]

/-- The pads with one pin's pad replaced. -/
def Pads.put (v : Pads) (p : Pin) (x : Pad) : Pads := v.set p.index.val x

/-- `DIR[p] <- d`. -/
def Pads.setDir (v : Pads) (p : Pin) (d : Dir) : Pads := v.put p { v.at p with dir := d }

/-- `OUT[p] <- lvl`. -/
def Pads.setOut (v : Pads) (p : Pin) (lvl : Level) : Pads := v.put p { v.at p with out := lvl }

/-- `PU[p] <- 1`. -/
def Pads.pullUp (v : Pads) (p : Pin) : Pads := v.put p { v.at p with pu := true }

/-- The external level as a function of the pad state (R22). -/
def pinLevel (x : Pad) : PinLevel :=
  match x.dir, x.pu with
  | .output, _ => .driven x.out
  | .input, true => .weakHigh
  | .input, false => .floating

/-- A command is executing (R23). -/
def State.busy (s : State) : Bool := s.cur.isSome

/-- The cycles of a `Wait`: `ceil(us * CLK_HZ / 1000000)` (R74). -/
def cycles (p : Params) (us : Nat) : Nat := (us * p.clkHz + 999999) / 1000000

/-- Append to the pin trace (R19). -/
def State.record (s : State) (ev : PinEvent) : State :=
  { s with obs := { s.obs with pins := s.obs.pins ++ [ev] } }

/-- A flag's register with one cause's flag set. -/
def Flags.set (f : Flags) : ErrCause → Flags
  | .ill => { f with ill := true }
  | .ovr => { f with ovr := true }
  | .notinit => { f with notinit := true }
  | .cfgerr => { f with cfgerr := true }
  | .kovr => { f with kovr := true }

/-- `raise <Err>` (R217): the flag is set and nothing else changes. The block has no trap: no state is saved, no mode
changes, no handler runs, and there is no return (R217, R219). -/
def State.raise (s : State) (c : ErrCause) : State := { s with flags := s.flags.set c }

/-- The end of a command at a rejected configuration (R214): CFGERR, `ACTS <- []`, `CUR <- none`; nothing is rolled
back and the unit's ready flag stays as acceptance left it, 0. -/
def State.configRejected (s : State) : State := { s.raise .cfgerr with acts := [], cur := none }

/-- The end of a command whose actions are done: an INIT sets its unit's ready flag (R120, R156), and `CUR <- none`
(R200). -/
def State.complete (s : State) : State :=
  match s.cur with
  | some .kpInit => { s with kpReady := true, cur := none }
  | some .lcdInit => { s with lcdReady := true, cur := none }
  | _ => { s with cur := none }

/-- The acceptance of a legal command (R200, R218): OVR while busy, then NOTINIT when the unit it needs is not ready,
else its effect. OVR and NOTINIT leave everything but the flag (R217). -/
def submit (ready : Bool) (effect : State → State) (s : State) : Host.Outcome State Fault Refusal :=
  if s.busy then .next (s.raise .ovr)
  else if ready then .next (effect s)
  else .next (s.raise .notinit)

/-- A command whose action list is fixed at acceptance starts: `ACTS <- acts`, `CUR <- i` (R33, R200). -/
def State.start (s : State) (i : Instr) (acts : List Prim) : State := { s with acts := acts, cur := some i }

/-- A host address as an offset into the register window at `BASE` (R60). -/
def Params.offsetOf (p : Params) (addr : Nat) : Option Offset :=
  if p.base ≤ addr ∧ addr < p.base + 16 then some (BitVec.ofNat 4 (addr - p.base)) else none

end Sys2Proof.Machine
end

