-- ==== Sys2Proof/Machine/Operands.lean ====
section
/-! DEFINITION. Operand values and byte codes: line addresses (00_scope.md R7), nibbles (00_scope.md R16), key symbols
(10_state.md R36), the legend (00_scope.md R11). -/

namespace Sys2Proof.Machine

/-- `LINE_ADDR[L]`: 0x80 for line 1, 0xC0 for line 2 (R7, R91). -/
def lineAddr : DisplayLine → Byte
  | .line1 => 0x80
  | .line2 => 0xC0

/-- The high nibble `v[7:4]` (R16). -/
def highNibble (v : Byte) : Nibble := v.extractLsb' 4 4

/-- The low nibble `v[3:0]` (R16). -/
def lowNibble (v : Byte) : Nibble := v.extractLsb' 0 4

/-- The byte code of a key symbol (R36). -/
def symbolCode : Symbol → Byte
  | .digit0 => 0x30
  | .digit1 => 0x31
  | .digit2 => 0x32
  | .digit3 => 0x33
  | .digit4 => 0x34
  | .digit5 => 0x35
  | .digit6 => 0x36
  | .digit7 => 0x37
  | .digit8 => 0x38
  | .digit9 => 0x39
  | .star => 0x2A
  | .hash => 0x23
  | .letterA => 0x41
  | .letterB => 0x42
  | .letterC => 0x43
  | .letterD => 0x44

/-- `KEYMAP[i][j]`, `i` the row and `j` the column (R11). -/
def keyAt (p : Params) (i j : Fin 4) : Symbol := p.keymap[4 * i.val + j.val]

/-- The space character, LB's fill byte (R31, R180). -/
def spaceByte : Byte := 0x20

end Sys2Proof.Machine
end

