-- ==== Sys2Proof/Machine/Flags.lean ====
section
/-! DEFINITION. The host-visible words: STATUS (10_state.md R23, R24, R38) and KEY (10_state.md R26, R27). -/

namespace Sys2Proof.Machine

/-- The STATE code, STATUS bits 7:4 (R38). NOP, LB_BEGIN and LB_PUT are never executing (R202); were one to stand in
`CUR` the code would be IDLE's. -/
def stateCode (s : State) : BitVec 4 :=
  match s.cur with
  | none => 0
  | some .kpInit => 1
  | some .kpScan => if s.scan.phase = .release then 3 else 2
  | some .lcdInit => 4
  | some (.lcdCmd _) => 5
  | some (.lcdData _) => 5
  | some (.lcdWriteLine _) => 6
  | some .nop => 0
  | some .lbBegin => 0
  | some (.lbPut _) => 0

/-- The sticky flags as STATUS bits 12 down to 8 (R23, R210). -/
def Flags.bits (f : Flags) : BitVec 5 :=
  BitVec.ofBool f.kovr ++ BitVec.ofBool f.cfgerr ++ BitVec.ofBool f.notinit ++ BitVec.ofBool f.ovr ++ BitVec.ofBool f.ill

/-- The STATUS register (R23); reserved bits read 0. -/
def statusWord (s : State) : Word :=
  (0 : BitVec 11) ++ BitVec.ofNat 5 s.lbIdx.val ++ (0 : BitVec 3) ++ s.flags.bits ++ stateCode s
    ++ BitVec.ofBool s.lcdReady ++ BitVec.ofBool s.kpReady ++ BitVec.ofBool s.key.valid
    ++ BitVec.ofBool (stateCode s != 0)

/-- The sticky flags after a STATUS write of `v`: write one to clear, for bits 8 to 12 (R24). -/
def Flags.clearedBy (f : Flags) (v : Word) : Flags where
  ill := f.ill && !v.getLsbD 8
  ovr := f.ovr && !v.getLsbD 9
  notinit := f.notinit && !v.getLsbD 10
  cfgerr := f.cfgerr && !v.getLsbD 11
  kovr := f.kovr && !v.getLsbD 12

/-- The KEY register's word (R26); reserved bits read 0. -/
def KeyReg.word (k : KeyReg) : Word :=
  BitVec.ofBool k.valid ++ (0 : BitVec 19) ++ k.col ++ k.row ++ k.sym

/-- `KEY.VALID <- 0`; SYM, ROW and COL keep their values (R27). -/
def KeyReg.consumed (k : KeyReg) : KeyReg := { k with valid := false }

/-- The KEY fields of an event at row `i`, column `j` (R125). -/
def KeyReg.ofEvent (p : Params) (i j : Fin 4) : KeyReg where
  valid := true
  col := BitVec.ofNat 2 j.val
  row := BitVec.ofNat 2 i.val
  sym := symbolCode (keyAt p i j)

end Sys2Proof.Machine
end

