-- ==== Sys2Proof/Machine/Keypad.lean ====
section
/-! DEFINITION. The keypad commands: KP_INIT (40_keypad.md R120), KP_SCAN and its scan pass (R122 to R135). -/

namespace Sys2Proof.Machine

/-- One column of KP_INIT: configure as output, then drive high (R120). -/
def kpInitColumn (j : Fin 4) : List Prim := [.cfg (.col j) .output, .write (.col j) true]

/-- One row of KP_INIT: configure as input, then enable the pull-up (R120). -/
def kpInitRow (i : Fin 4) : List Prim := [.cfg (.row i) .input, .pullUp (.row i)]

/-- The action list of KP_INIT (R120): columns before rows, each in order 0..3. -/
def kpInitActs : List Prim :=
  kpInitColumn 0 ++ kpInitColumn 1 ++ kpInitColumn 2 ++ kpInitColumn 3
    ++ kpInitRow 0 ++ kpInitRow 1 ++ kpInitRow 2 ++ kpInitRow 3

/-- KP_INIT: clears KP_READY at acceptance and starts its list (R120, R200). -/
def execKpInit (s : State) : Host.Outcome State Fault Refusal :=
  submit true (fun s => { s.start .kpInit kpInitActs with kpReady := false }) s

/-- KP_SCAN: needs KP_READY; starts a pass at column 0, row 0 (R122, R200). -/
def execKpScan (s : State) : Host.Outcome State Fault Refusal :=
  submit s.kpReady (fun s => { s with scan := Scan.start, cur := some .kpScan }) s

/-- `KeyEvent(i, j)` (R125): KOVR if the previous event is unread (R215), then KEY; the event joins the event
sequence. -/
def State.keyEvent (s : State) (i j : Fin 4) : State :=
  let s' := if s.key.valid then s.raise .kovr else s
  { s' with
    key := KeyReg.ofEvent s.params i j
    obs := { s'.obs with keys := s'.obs.keys ++ [⟨i, j, symbolCode (keyAt s.params i j)⟩] } }

/-- The scan position after row `i` of the current column is done: the next row, or the column's restore (R122). -/
def Scan.nextRow (c : Scan) : Scan :=
  if h : c.i.val + 1 < 4 then { c with phase := .read, i := ⟨c.i.val + 1, h⟩ } else { c with phase := .restore }

/-- The scan position after the current column is driven low: the settle wait, left out when `T_SCAN_SETTLE = 0` (R9,
R122), then row 0. -/
def Scan.driven (c : Scan) (p : Params) : Scan :=
  { c with phase := if p.tScanSettle = 0 then .read else .settle, i := 0 }

/-- Phase READ (R122 step b): a low read is a key event and starts the release-wait, in the same step. -/
def scanRead (lvl : Level) (s : State) : State :=
  let s' := s.record (.read (.row s.scan.i) lvl)
  if lvl then { s' with scan := s.scan.nextRow }
  else { s'.keyEvent s.scan.i s.scan.j with scan := { s.scan with phase := .release, hit := true } }

/-- Phase RELEASE (R126, R127): the same row is read again until it reads high; then the pass restores the column
(`PASS_END_ON_EVENT`) or goes on with the next row. -/
def scanRelease (lvl : Level) (s : State) : State :=
  let s' := s.record (.read (.row s.scan.i) lvl)
  if lvl then
    { s' with scan := if s.params.passEndOnEvent then { s.scan with phase := .restore } else s.scan.nextRow }
  else s'

/-- Phase RESTORE (R122 step d, R127): the column is driven high; the pass ends after an event under
`PASS_END_ON_EVENT`, and after column 3; else the next column follows. -/
def scanRestore (s : State) : State :=
  let s' := { s with pads := s.pads.setOut (.col s.scan.j) true }.record (.write (.col s.scan.j) true)
  if s.scan.hit && s.params.passEndOnEvent then
    { s' with scan := { s.scan with hit := false } }.complete
  else if h : s.scan.j.val + 1 < 4 then
    { s' with scan := ⟨.drive, ⟨s.scan.j.val + 1, h⟩, 0, false⟩ }
  else { s' with scan := { s.scan with hit := false } }.complete

/-- One primitive of a scan pass, by phase (R122). A settle wait that a reset cuts short stays whole in the trace: the
model's choice (log 23). -/
def scanStep (ans : Answer) (s : State) : State :=
  match s.scan.phase with
  | .drive =>
    { s with
      pads := s.pads.setOut (.col s.scan.j) false
      scan := s.scan.driven s.params }.record (.write (.col s.scan.j) false)
  | .settle =>
    { s with
      waitLeft := cycles s.params s.params.tScanSettle
      scan := { s.scan with phase := .read } }.record (.wait s.params.tScanSettle)
  | .read => scanRead ans.level s
  | .release => scanRelease ans.level s
  | .restore => scanRestore s

end Sys2Proof.Machine
end

