-- ==== Sys2Proof/Machine/Lcd.lean ====
section
/-! DEFINITION. The LCD transfer (41_lcd_transfer.md R150 to R153) and the commands LCD_INIT, LCD_CMD, LCD_DATA (R154 to
R157). -/

namespace Sys2Proof.Machine

/-- The four clears that open a NIB (R150). -/
def nibClears : List Prim := [.write .d4 false, .write .d5 false, .write .d6 false, .write .d7 false]

/-- The write of one data line whose bit is 1, and nothing for a bit that is 0 (R150). -/
def nibSet (bit : Bool) (p : Pin) : List Prim := if bit then [.write p true] else []

/-- NIB(n): clear the four data lines, then write the 1 bits, lowest line first (R150, R153). -/
def nibActs (n : Nibble) : List Prim :=
  nibClears ++ nibSet (n.getLsbD 0) .d4 ++ nibSet (n.getLsbD 1) .d5 ++ nibSet (n.getLsbD 2) .d6
    ++ nibSet (n.getLsbD 3) .d7

/-- TOGGLE, the nibble latch: five actions (R151). -/
def toggleActs (p : Params) : List Prim :=
  [.wait p.tSettle, .write .e true, .wait p.tPulse, .write .e false, .wait p.tSettle]

/-- SEND(v, rs): RS, the high nibble, a latch, the low nibble, a latch (R152). -/
def sendActs (p : Params) (v : Byte) (rs : Level) : List Prim :=
  [.write .rs rs] ++ nibActs (highNibble v) ++ toggleActs p ++ nibActs (lowNibble v) ++ toggleActs p

/-- LCD_PINCFG: the six pins as outputs, then Enable low (R157). -/
def lcdPinCfgActs : List Prim :=
  [.cfg .rs .output, .cfg .e .output, .cfg .d4 .output, .cfg .d5 .output, .cfg .d6 .output, .cfg .d7 .output,
   .write .e false]

/-- The controller's initialization bytes, in order (R156). -/
def lcdInitBytes : List Byte := [0x33, 0x32, 0x06, 0x0C, 0x28, 0x01]

/-- The action list of LCD_INIT (R156). -/
def lcdInitActs (p : Params) : List Prim :=
  lcdPinCfgActs ++ lcdInitBytes.flatMap (fun v => sendActs p v false) ++ [.wait p.tSettle]

/-- LCD_INIT: clears LCD_READY at acceptance and starts its list (R156, R200). -/
def execLcdInit (s : State) : Host.Outcome State Fault Refusal :=
  submit true (fun s => { s.start .lcdInit (lcdInitActs s.params) with lcdReady := false }) s

/-- LCD_CMD: needs LCD_READY; sends the byte with RS = 0 (R154, R200). -/
def execLcdCmd (v : Byte) (s : State) : Host.Outcome State Fault Refusal :=
  submit s.lcdReady (fun s => s.start (.lcdCmd v) (sendActs s.params v false)) s

/-- LCD_DATA: needs LCD_READY; sends the byte with RS = 1 (R155, R200). -/
def execLcdData (v : Byte) (s : State) : Host.Outcome State Fault Refusal :=
  submit s.lcdReady (fun s => s.start (.lcdData v) (sendActs s.params v true)) s

end Sys2Proof.Machine
end

