-- ==== Sys2Proof/Machine/Line.lean ====
section
/-! DEFINITION. The line buffer and the line write (42_lcd_line.md R180 to R187). -/

namespace Sys2Proof.Machine

/-- LB all spaces, LB_IDX 0 (R180). -/
def State.lineBegin (s : State) : State := { s with lb := Vector.replicate 16 spaceByte, lbIdx := 0 }

/-- Append a character; past the 16th it is dropped (R181). -/
def State.linePut (s : State) (c : Byte) : State :=
  if h : s.lbIdx.val < 16 then { s with lb := s.lb.set s.lbIdx.val c, lbIdx := ⟨s.lbIdx.val + 1, by omega⟩ } else s

/-- LB_BEGIN (R180): complete in the step that accepts it (R202). -/
def execLbBegin (s : State) : Host.Outcome State Fault Refusal := submit true State.lineBegin s

/-- LB_PUT (R181): complete in the step that accepts it (R202). -/
def execLbPut (c : Byte) (s : State) : Host.Outcome State Fault Refusal := submit true (fun s => s.linePut c) s

/-- The action list of LCD_WRITE_LINE: the line address with RS = 0, then the 16 bytes of LB with RS = 1 (R182). -/
def lineActs (p : Params) (l : DisplayLine) (lb : Vector Byte 16) : List Prim :=
  sendActs p (lineAddr l) false ++ lb.toList.flatMap (fun c => sendActs p c true)

/-- LCD_WRITE_LINE: needs LCD_READY; LB is read at acceptance and not changed (R182, R200). -/
def execLcdWriteLine (l : DisplayLine) (s : State) : Host.Outcome State Fault Refusal :=
  submit s.lcdReady (fun s => s.start (.lcdWriteLine l) (lineActs s.params l s.lb)) s

end Sys2Proof.Machine
end

