-- ==== Sys2Proof/Machine/System.lean ====
section
/-! DEFINITION. NOP (43_system.md R201, R202). -/

namespace Sys2Proof.Machine

/-- NOP: nothing, in the step that accepts it (R201). -/
def execNop (s : State) : Host.Outcome State Fault Refusal := submit true id s

end Sys2Proof.Machine
end

