-- ==== Sys2Proof/Machine/Dispatch.lean ====
section
/-! DEFINITION. What a command does when HOST writes its word to CMD: one arm per constructor. -/

namespace Sys2Proof.Machine

def exec (i : Instr) (s : State) : Host.Outcome State Fault Refusal :=
  match i with
  | .nop => Sys2Proof.Machine.execNop s
  | .kpInit => Sys2Proof.Machine.execKpInit s
  | .kpScan => Sys2Proof.Machine.execKpScan s
  | .lcdInit => Sys2Proof.Machine.execLcdInit s
  | .lcdCmd v => Sys2Proof.Machine.execLcdCmd v s
  | .lcdData v => Sys2Proof.Machine.execLcdData v s
  | .lbBegin => Sys2Proof.Machine.execLbBegin s
  | .lbPut c => Sys2Proof.Machine.execLbPut c s
  | .lcdWriteLine l => Sys2Proof.Machine.execLcdWriteLine l s

end Sys2Proof.Machine
end

