-- ==== Sys2Proof/Machine/HostBus.lean ====
section
/-! DEFINITION. The host register window (10_state.md R23 to R29, 20_memory.md R60 to R66) and command acceptance
(43_system.md R200). -/

namespace Sys2Proof.Machine

/-- The accesses the block admits: 4 bytes wide, at a multiple of 4 (R61). -/
def accessAdmitted (off : Offset) (bytes : Nat) : Bool := decide (bytes = 4) && decide (off.toNat % 4 = 0)

/-- The value a read at an offset returns (R23, R26, R28, R29). -/
def peek (s : State) (off : Offset) : Word :=
  match off.toNat with
  | 0x4 => statusWord s
  | 0x8 => s.key.word
  | _ => 0

/-- A read: its value joins the observation; reading KEY consumes the event (R27, R63). -/
def hostRead (off : Offset) (s : State) : State :=
  let s' := { s with obs := { s.obs with reads := s.obs.reads ++ [⟨off, peek s off⟩] } }
  if off = 0x8 then { s' with key := s.key.consumed } else s'

/-- Command acceptance (R200): OVR while busy, the word not decoded (R212); then ILL (R211); then the command, which
checks its unit (R213). -/
def acceptWord (w : Word) (s : State) : Host.Outcome State Fault Refusal :=
  if s.busy then .next (s.raise .ovr)
  else match decode w with
    | .error _ => .next (s.raise .ill)
    | .ok i => exec i s

/-- A write (R64): CMD submits a command, STATUS clears sticky flags (R24), KEY and 0xC ignore it (R26, R29). -/
def hostWrite (off : Offset) (v : Word) (s : State) : Host.Outcome State Fault Refusal :=
  match off.toNat with
  | 0x0 => acceptWord v s
  | 0x4 => .next { s with flags := s.flags.clearedBy v }
  | _ => .next s

/-- A HOST access (R61, R65): one not admitted has no meaning. -/
def hostStep (a : HostAccess) (s : State) : Host.Outcome State Fault Refusal :=
  match a with
  | .read off bytes =>
    if accessAdmitted off bytes then .next (hostRead off s) else .refused (.accessNotAdmitted off bytes)
  | .write off bytes v =>
    if accessAdmitted off bytes then hostWrite off v s else .refused (.accessNotAdmitted off bytes)

end Sys2Proof.Machine
end

