-- ==== Sys2Proof/Machine/Sequencer.lean ====
section
/-! DEFINITION. SEQ: one pin primitive, or one cycle of a wait, per step (20_memory.md R67, R70 to R74). -/

namespace Sys2Proof.Machine

/-- A command with an action list is done when nothing of the list and of the current wait is left (R200; log 5). A scan
pass ends in its own RESTORE phase (R122). -/
def State.listDone (s : State) : Bool :=
  decide (s.cur ≠ some .kpScan) && s.acts.isEmpty && decide (s.waitLeft = 0)

/-- `CUR <- none` in the step that leaves nothing to do (R200; log 5). -/
def State.completeIfDone (s : State) : State := if s.listDone then s.complete else s

/-- One cycle of the current wait (R67, R74). -/
def waitCycle (s : State) : State := { s with waitLeft := s.waitLeft - 1 }.completeIfDone

/-- Perform the primitive `a` in a state that no longer lists it, with ENV's answer (R70 to R74). A rejected
configuration ends the command (R214). A wait joins the trace whole in the step that begins it; that it stays whole when
a reset cuts it short is the model's choice (log 23). -/
def perform (a : Prim) (ans : Answer) (s : State) : State :=
  match a with
  | .cfg p d =>
    if ans.ack then ({ s with pads := s.pads.setDir p d }.record (.cfg p d true)).completeIfDone
    else (s.record (.cfg p d false)).configRejected
  | .pullUp p =>
    if ans.ack then ({ s with pads := s.pads.pullUp p }.record (.pullUp p true)).completeIfDone
    else (s.record (.pullUp p false)).configRejected
  | .write p lvl => ({ s with pads := s.pads.setOut p lvl }.record (.write p lvl)).completeIfDone
  | .read p => (s.record (.read p ans.level)).completeIfDone
  | .wait us => ({ s with waitLeft := cycles s.params us }.record (.wait us)).completeIfDone

/-- SEQ's turn (R67): a cycle of the current wait, else the next primitive of the running command; nothing when the
block is idle. -/
def seqStep (ans : Answer) (s : State) : State :=
  match s.cur with
  | none => s
  | some c =>
    if s.waitLeft ≠ 0 then waitCycle s
    else if c = .kpScan then scanStep ans s
    else match s.acts with
      | [] => s.complete
      | a :: rest => perform a ans { s with acts := rest }

end Sys2Proof.Machine
end

