-- ==== Sys2Proof/Machine/Schedule.lean ====
section
/-! DEFINITION. One step of the interleaving (00_scope.md R15, 20_memory.md R67) and reset (70_reset_and_hazards.md
R250, R251). -/

namespace Sys2Proof.Machine

/-- Reset (R250): every state element to its reset value; the parameters, what the outside world does next and the
observation are not the block's state (log 11). A running command is abandoned (R251). -/
def State.resetNow (s : State) : State :=
  { State.resetIn s.params with
    inputs := s.inputs
    draws := s.draws
    obs := { s.obs with pins := s.obs.pins ++ [.reset] } }

/-- A HOST access and SEQ's turn in the same step: HOST's access first, then SEQ's primitive if a command was executing
before the step, so that a flag SEQ sets stays set and an event is written after the read (R24, R27, R218; log 4). -/
def bothStep (a : HostAccess) (ans : Answer) (s : State) : Host.Outcome State Fault Refusal :=
  match hostStep a s with
  | .next s' => .next (if s.busy then seqStep ans s' else s')
  | .fault r => .fault r
  | .refused r => .refused r

/-- SEQ's turn with a free answer of ENV (R14, R73; log 2, log 3). -/
def freeStep (s : State) : State :=
  if s.busy then
    seqStep ⟨Config.freeLevel s.draws, Config.freeAck s.draws⟩ { s with draws := s.draws + 1 }
  else s

/-- What one input does, in a state that no longer lists it. -/
def inputStep (inp : Input) (s : State) : Host.Outcome State Fault Refusal :=
  match inp with
  | .host a => hostStep a s
  | .seq ans => .next (seqStep ans s)
  | .both a ans => bothStep a ans s
  | .reset => .next s.resetNow

/-- One step of the interleaving: the next input the outside world lists, or, when it lists none, SEQ's turn. -/
def scheduleStep (s : State) : Host.Outcome State Fault Refusal :=
  match s.inputs with
  | [] => .next (freeStep s)
  | inp :: rest => inputStep inp { s with inputs := rest }

/-- HOST's write of a command word as the very next thing that happens. -/
def State.submitNext (s : State) (w : Word) : State :=
  { s with inputs := .host (.write 0x0 4 w) :: s.inputs }

end Sys2Proof.Machine
end

