-- ==== Sys2Proof/Machine/Step.lean ====
section
/-! DEFINITION. The step, and how a command word is put where the next step takes it (20_memory.md R67, R78). -/

namespace Sys2Proof.Machine

/-- One step of the machine (R67). -/
def step (s : State) : Host.Outcome State Fault Refusal := scheduleStep s

/-- The block fetches nothing (R78): a command is the word of HOST's next CMD write (log 16). -/
def State.withFetchWord (s : State) (nbits w : Nat) : State :=
  s.submitNext (BitVec.ofNat 32 (w % 2 ^ nbits))

end Sys2Proof.Machine
end

