-- ==== Sys2Proof/Machine/HostProgram.lean ====
section
/-! DEFINITION. The host program notation (30_encoding.md R97) and `kp.getkey` (R99). A program runs on the host, not in
the block: HOST has a state of its own, and meets the block only through register accesses (R66; log 21). -/

namespace Sys2Proof.Machine

/-- A value HOST writes: constants and fields `x[hi:lo]` of values it has read, with `|` between any of them (R97). That
a written value is made of these alone is the model's choice (log 25). -/
inductive HostValue where
  | const (v : Word)
  | field (x hi lo : Nat)
  | or (a b : HostValue)
deriving DecidableEq, Repr

/-- A condition on a read value, `x[hi:lo] = v` or its negation: the spec says "condition on a read value" (R97) and
shows this form; that there is no other is the model's choice (log 25). -/
structure HostCond where
  x : Nat
  hi : Nat
  lo : Nat
  v : Nat
  equal : Bool
deriving DecidableEq, Repr

/-- One line of a host program (R97). Read values are numbered; a label is the number of the line it stands before. -/
inductive HostOp where
  | write (off : Offset) (v : HostValue)         -- W off, v
  | read (off : Offset) (x : Nat)                -- R off -> x
  | pollIdle                                     -- poll_idle
  | ifGoto (c : HostCond) (line : Nat)           -- if <condition> goto <label>
  | goto (line : Nat)                            -- goto <label>
  | command (a : AsmLine)                        -- a mnemonic on a line of its own
deriving DecidableEq, Repr

/-- HOST: its program, the line it is at, whether the poll of a command's line has seen BUSY clear, and the values it
has read. -/
structure HostState where
  prog : List HostOp
  line : Nat
  polled : Bool
  vars : List (Nat × Word)
deriving DecidableEq, Repr

/-- HOST at the start of a program. -/
def HostState.load (prog : List HostOp) : HostState := ⟨prog, 0, false, []⟩

/-- A read value; 0 for one never read. -/
def HostState.var (h : HostState) (x : Nat) : Word := (h.vars.lookup x).getD 0

/-- The field `x[hi:lo]` (R16). -/
def HostState.field (h : HostState) (x hi lo : Nat) : Nat := ((h.var x).toNat / 2 ^ lo) % 2 ^ (hi + 1 - lo)

/-- The value a HOST write carries (R97). -/
def HostState.value (h : HostState) : HostValue → Word
  | .const v => v
  | .field x hi lo => BitVec.ofNat 32 (h.field x hi lo)
  | .or a b => h.value a ||| h.value b

/-- Whether a condition holds (R97). -/
def HostState.test (h : HostState) (c : HostCond) : Bool := (h.field c.x c.hi c.lo == c.v) == c.equal

/-- The register access HOST's line asks for: the poll of `poll_idle` and of a command's line is a read of STATUS
(R97). A control line, a line the assembler refuses and the end of the program ask for none. -/
def HostState.request (h : HostState) : Option HostAccess :=
  match h.prog[h.line]? with
  | some (.write off v) => some (.write off 4 (h.value v))
  | some (.read off _) => some (.read off 4)
  | some .pollIdle => some (.read 0x4 4)
  | some (.command a) =>
    if h.polled then (assembleWord a).map fun w => .write 0x0 4 w else some (.read 0x4 4)
  | some (.ifGoto _ _) => none
  | some (.goto _) => none
  | none => none

/-- HOST after its line, given the value a read returned (R97): a poll repeats until BUSY, bit 0, is clear. That a poll
keeps the STATUS word it reads to itself, and gives the program no `s`, is the model's choice (log 24). -/
def HostState.resume (h : HostState) (reply : Word) : HostState :=
  match h.prog[h.line]? with
  | some (.write _ _) => { h with line := h.line + 1 }
  | some (.read _ x) => { h with line := h.line + 1, vars := (x, reply) :: h.vars }
  | some .pollIdle => if reply.getLsbD 0 then h else { h with line := h.line + 1 }
  | some (.command _) =>
    if h.polled then { h with line := h.line + 1, polled := false }
    else { h with polled := !reply.getLsbD 0 }
  | some (.ifGoto c line) => { h with line := if h.test c then line else h.line + 1 }
  | some (.goto line) => { h with line := line }
  | none => h

/-- Whose turn it is, in HOST's and the block's joint run (R15): `both` is HOST and SEQ in the same step (R24, R27). -/
inductive Turn where
  | host
  | seq (ans : Answer)
  | both (ans : Answer)
  | reset
deriving DecidableEq, Repr

/-- One turn of HOST and the block together: HOST's turn is its line's access, if the line asks for one, and the value
read goes back to it; the block's part is its own `step`. -/
def systemStep (t : Turn) (h : HostState) (s : State) : Host.Outcome (HostState × State) Fault Refusal :=
  let inBlock (inp : Input) (k : State → HostState) : Host.Outcome (HostState × State) Fault Refusal :=
    match step { s with inputs := inp :: s.inputs } with
    | .next s' => .next (k s', s')
    | .fault r => .fault r
    | .refused r => .refused r
  match t with
  | .host =>
    match h.request with
    | some (.read off bytes) => inBlock (.host (.read off bytes)) fun _ => h.resume (peek s off)
    | some (.write off bytes v) => inBlock (.host (.write off bytes v)) fun _ => h.resume 0
    | none => .next (h.resume 0, s)
  | .seq ans => inBlock (.seq ans) fun _ => h
  | .both ans =>
    match h.request with
    | some (.read off bytes) => inBlock (.both (.read off bytes) ans) fun _ => h.resume (peek s off)
    | some (.write off bytes v) => inBlock (.both (.write off bytes v) ans) fun _ => h.resume 0
    | none => inBlock (.seq ans) fun _ => h.resume 0
  | .reset => inBlock .reset fun _ => h

/-- A joint run over a list of turns. -/
def systemRun : List Turn → HostState → State → Host.Outcome (HostState × State) Fault Refusal
  | [], h, s => .next (h, s)
  | t :: rest, h, s =>
    match systemStep t h s with
    | .next (h', s') => systemRun rest h' s'
    | .fault r => .fault r
    | .refused r => .refused r

/-- A pseudo-instruction's lines in a host program (R98, R100). -/
def Pseudo.lines (p : Pseudo) : List HostOp := p.expand.map .command

/-- `kp.getkey -> x` placed at line `at_` of a program (R99): scan passes until KEY.VALID reads 1. -/
def getkeyLines (at_ x : Nat) : List HostOp :=
  [.command .kpScan, .pollIdle, .read 0x8 x, .ifGoto ⟨x, 31, 31, 0, true⟩ at_]

end Sys2Proof.Machine
end

