-- ==== Sys2Proof/Machine/Observe.lean ====
section
/-! DEFINITION. Views of the pin trace (00_scope.md R19, 20_memory.md R76) and the reference contact environment
(20_memory.md R77). The machine never calls them. -/

namespace Sys2Proof.Machine

/-- One latch record `(rs, n)` (R76). -/
structure Latch where
  rs : Level
  n : Nibble
deriving DecidableEq, Repr

/-- What the latch observer has seen: the lines' levels, whether the last write to E was a 1, the records. -/
structure LatchView where
  rs : Level
  d4 : Level
  d5 : Level
  d6 : Level
  d7 : Level
  pulse : Bool
  latches : List Latch
deriving DecidableEq, Repr

/-- The data lines as a nibble, `{D7, D6, D5, D4}` (R76). -/
def LatchView.nibble (v : LatchView) : Nibble :=
  BitVec.ofBool v.d7 ++ BitVec.ofBool v.d6 ++ BitVec.ofBool v.d5 ++ BitVec.ofBool v.d4

/-- Before any event the pads are in reset and no pulse is open. -/
def LatchView.start : LatchView := ⟨false, false, false, false, false, false, []⟩

/-- One event of the pin trace, seen by the latch observer: a record is appended at a `PinWrite(E, 0)` whose last write
to E was a 1 (R76). A reset writes OUT (R21), so it ends an open pulse with no record (log 12). -/
def LatchView.see (v : LatchView) : PinEvent → LatchView
  | .write .rs lvl => { v with rs := lvl }
  | .write .d4 lvl => { v with d4 := lvl }
  | .write .d5 lvl => { v with d5 := lvl }
  | .write .d6 lvl => { v with d6 := lvl }
  | .write .d7 lvl => { v with d7 := lvl }
  | .write .e true => { v with pulse := true }
  | .write .e false =>
    if v.pulse then { v with pulse := false, latches := v.latches ++ [⟨v.rs, v.nibble⟩] } else v
  | .write (.row _) _ => v
  | .write (.col _) _ => v
  | .cfg _ _ _ => v
  | .pullUp _ _ => v
  | .read _ _ => v
  | .wait _ => v
  | .reset => { LatchView.start with latches := v.latches }

/-- The latch trace of a pin trace (R76). -/
def latchTrace (t : List PinEvent) : List Latch := (t.foldl LatchView.see LatchView.start).latches

/-- The pads after one event of the trace (R21, R70 to R72, R250). -/
def Pads.see (v : Pads) : PinEvent → Pads
  | .cfg p d true => v.setDir p d
  | .cfg _ _ false => v
  | .pullUp p true => v.pullUp p
  | .pullUp _ false => v
  | .write p lvl => v.setOut p lvl
  | .read _ _ => v
  | .wait _ => v
  | .reset => Vector.replicate 14 Pad.reset

/-- The pads a pin trace leads to from reset. -/
def padsOf (t : List PinEvent) : Pads := t.foldl Pads.see (Vector.replicate 14 Pad.reset)

/-- The levels a pin shows along a trace, one entry per change: "a write that does not change a pin's level is not an
edge" (R19). `last` is the level shown before. -/
def levelChanges (p : Pin) (v : Pads) (last : PinLevel) : List PinEvent → List PinLevel
  | [] => []
  | ev :: rest =>
    let v' := v.see ev
    let now := pinLevel (v'.at p)
    if now = last then levelChanges p v' last rest else now :: levelChanges p v' now rest

/-- The levels of a pin along a trace from reset (R19). -/
def pinLevels (p : Pin) (t : List PinEvent) : List PinLevel :=
  levelChanges p (Vector.replicate 14 Pad.reset) .floating t

/-- The least time a trace takes: the sum of its waits, microseconds (R74, R267, R268). A wait that a reset cut short
counts in full, so across a reset the sum is no lower bound (log 23). -/
def minDuration (t : List PinEvent) : Nat :=
  (t.map fun ev => match ev with | .wait us => us | _ => 0).sum

/-- The least time an action list takes (R267). -/
def actsDuration (as : List Prim) : Nat :=
  (as.map fun a => match a with | .wait us => us | _ => 0).sum

/-- The number of 1 bits of a byte (R152). -/
def popcount (v : Byte) : Nat :=
  (v.getLsbD 0).toNat + (v.getLsbD 1).toNat + (v.getLsbD 2).toNat + (v.getLsbD 3).toNat
    + (v.getLsbD 4).toNat + (v.getLsbD 5).toNat + (v.getLsbD 6).toNat + (v.getLsbD 7).toNat

/-- The (row, column) pairs whose contacts are closed (R77). -/
abbrev Pressed := List (Fin 4 × Fin 4)

/-- The columns a closed contact joins to one of the rows (R77). -/
def joinedCols (k : Pressed) (rows : List (Fin 4)) : List (Fin 4) :=
  [0, 1, 2, 3].filter fun j => rows.any fun i => k.contains (i, j)

/-- The rows given, and those a closed contact joins to one of the columns (R77). -/
def joinedRows (k : Pressed) (rows cols : List (Fin 4)) : List (Fin 4) :=
  [0, 1, 2, 3].filter fun i => rows.contains i || cols.any fun j => k.contains (i, j)

/-- The rows reached from the rows given in `n` rounds through closed contacts. -/
def rowsReached (k : Pressed) : Nat → List (Fin 4) → List (Fin 4)
  | 0, rows => rows
  | n + 1, rows => rowsReached k n (joinedRows k rows (joinedCols k rows))

/-- The columns of the component of `ROW[i]` (R77); four rounds reach all of it, there being four rows. -/
def componentCols (k : Pressed) (i : Fin 4) : List (Fin 4) := joinedCols k (rowsReached k 4 [i])

/-- A column driven to a level. -/
def Pads.drives (v : Pads) (j : Fin 4) (lvl : Level) : Bool :=
  decide ((v.at (.col j)).dir = .output) && (v.at (.col j)).out == lvl

/-- What `PinRead(ROW[i])` returns in the reference contact environment (R77); nothing where it is any bit. -/
def contactLevel (k : Pressed) (v : Pads) (i : Fin 4) : Option Level :=
  let low := (componentCols k i).any fun j => v.drives j false
  let high := (componentCols k i).any fun j => v.drives j true
  if low && high then none
  else if low then some false
  else if (v.at (.row i)).pu then some true
  else none

/-- A level the reference contact environment may answer (R77). -/
def contactAllows (k : Pressed) (v : Pads) (i : Fin 4) (lvl : Level) : Bool :=
  match contactLevel k v i with
  | some l => l == lvl
  | none => true

end Sys2Proof.Machine
end

