-- ==== Sys2Proof/Safety.lean ====
section
/-! DEFINITION. The terms claims are stated in: runs of SEQ, the invariants of the block (its sequencer, its pads, its
columns, its display timing), and the traces of the commands. -/

namespace Sys2Proof.Safety

open Sys2Proof.Machine

/-! ## Runs -/

/-- A run in which SEQ takes every turn, answered in order by `as`: `as.length` steps of the machine. -/
def seqRun (as : List Answer) (s : State) : Host.Outcome State Fault Refusal :=
  Host.Core.run Sys2Proof.core as.length { s with inputs := as.map Input.seq }

/-- A run in which HOST writes command words back to back: one step each. -/
def submitRun (is : List Instr) (s : State) : Host.Outcome State Fault Refusal :=
  Host.Core.run Sys2Proof.core is.length
    { s with inputs := is.map fun i => Input.host (.write 0x0 4 (encode i)) }

/-- HOST's next access is the write of `w` to CMD, alone or in the same step as SEQ's turn; `rest` follows. -/
def SubmitsWord (s : State) (w : Word) (rest : List Input) : Prop :=
  s.inputs = .host (.write 0x0 4 w) :: rest ∨ ∃ ans, s.inputs = .both (.write 0x0 4 w) ans :: rest

/-- HOST's access in this step, alone or in common with SEQ's turn, is a STATUS write with bit `k` 1 (R24). -/
def ClearsBit (s : State) (k : Nat) : Prop :=
  ∃ v : Word, v.getLsbD k = true ∧
    ((∃ rest, s.inputs = .host (.write 0x4 4 v) :: rest) ∨ ∃ ans rest, s.inputs = .both (.write 0x4 4 v) ans :: rest)

/-- The answers `as` are ones under which SEQ performs exactly the trace `tr`: a read gets the level of its event, a
configuration its acceptance, and a wait takes a step to begin and one for each cycle (R67, R74). -/
def Follows (p : Params) : List Answer → List PinEvent → Prop
  | as, [] => as = []
  | as, ev :: tr =>
    match as with
    | [] => False
    | a :: rest =>
      match ev with
      | .cfg _ _ ok => a.ack = ok ∧ Follows p rest tr
      | .pullUp _ ok => a.ack = ok ∧ Follows p rest tr
      | .write _ _ => Follows p rest tr
      | .read _ lvl => a.level = lvl ∧ Follows p rest tr
      | .wait us => cycles p us ≤ rest.length ∧ Follows p (rest.drop (cycles p us)) tr
      | .reset => False

/-- The event of a primitive of an action list when ENV accepts every configuration. -/
def acceptedEvent : Prim → PinEvent
  | .cfg p d => .cfg p d true
  | .pullUp p => .pullUp p true
  | .write p lvl => .write p lvl
  | .read p => .read p true
  | .wait us => .wait us

/-- The pads after a primitive that ENV accepts. -/
def padsAfterPrim (v : Pads) : Prim → Pads
  | .cfg p d => v.setDir p d
  | .pullUp p => v.pullUp p
  | .write p lvl => v.setOut p lvl
  | .read _ => v
  | .wait _ => v

/-- The pads after an action list that ENV accepts. -/
def padsAfter (v : Pads) (as : List Prim) : Pads := as.foldl padsAfterPrim v

/-- The steps SEQ needs for a primitive: one, and for a wait one more per cycle (R67, R74). -/
def primSteps (p : Params) : Prim → Nat
  | .wait us => 1 + cycles p us
  | .cfg _ _ => 1
  | .pullUp _ => 1
  | .write _ _ => 1
  | .read _ => 1

/-- The steps of SEQ left in a command that has an action list. -/
def workLeft (s : State) : Nat := s.waitLeft + (s.acts.map (primSteps s.params)).sum

/-! ## Units -/

/-- The keypad's pins (R20). -/
def keypadPin : Pin → Bool
  | .row _ => true
  | .col _ => true
  | .rs => false
  | .e => false
  | .d4 => false
  | .d5 => false
  | .d6 => false
  | .d7 => false

/-- The pin a primitive is applied to. -/
def primPin : Prim → Option Pin
  | .cfg p _ => some p
  | .pullUp p => some p
  | .write p _ => some p
  | .read p => some p
  | .wait _ => none

/-- A primitive of the keypad's lists: its pin, if any, is the keypad's (R75). -/
def onKeypad (a : Prim) : Bool := match primPin a with | some p => keypadPin p | none => true

/-- A primitive of the display's lists: its pin, if any, is the display's (R75). -/
def onLcd (a : Prim) : Bool := match primPin a with | some p => !keypadPin p | none => true

/-- The commands SEQ runs (R38): the others complete in their accepting step (R202). -/
def Runs : Instr → Prop
  | .nop => False
  | .kpInit => True
  | .kpScan => True
  | .lcdInit => True
  | .lcdCmd _ => True
  | .lcdData _ => True
  | .lbBegin => False
  | .lbPut _ => False
  | .lcdWriteLine _ => True

/-- The display's commands. -/
def LcdCommand : Instr → Prop
  | .nop => False
  | .kpInit => False
  | .kpScan => False
  | .lcdInit => True
  | .lcdCmd _ => True
  | .lcdData _ => True
  | .lbBegin => False
  | .lbPut _ => False
  | .lcdWriteLine _ => True

/-- The commands that need LCD_READY (R200). -/
def LcdTransfer : Instr → Prop
  | .nop => False
  | .kpInit => False
  | .kpScan => False
  | .lcdInit => False
  | .lcdCmd _ => True
  | .lcdData _ => True
  | .lbBegin => False
  | .lbPut _ => False
  | .lcdWriteLine _ => True

/-! ## The sequencer -/

/-- What holds of SEQ in every state a run reaches (R33, R38, R200, R202): an idle block has nothing left to do; only a
command that runs stands in CUR; a scan has no action list, every other running command has work left and only its own
unit's pins in its list; an INIT runs with its ready flag clear, the commands that need a unit run with it set. -/
structure SequencerInv (s : State) : Prop where
  idle : s.cur = none → s.acts = [] ∧ s.waitLeft = 0
  runs : ∀ i, s.cur = some i → Runs i
  scanning : s.cur = some .kpScan → s.acts = [] ∧ s.kpReady = true
  working : ∀ i, s.cur = some i → i ≠ .kpScan → s.acts ≠ [] ∨ s.waitLeft ≠ 0
  kpInit : s.cur = some .kpInit → s.kpReady = false ∧ s.acts.all onKeypad = true
  lcdInit : s.cur = some .lcdInit → s.lcdReady = false
  lcdList : ∀ i, s.cur = some i → LcdCommand i → s.acts.all onLcd = true
  lcdReady : ∀ i, s.cur = some i → LcdTransfer i → s.lcdReady = true

/-! ## The keypad's columns -/

/-- The keypad's pins as KP_INIT leaves their directions and pull-ups (R120). -/
def KeypadConfigured (v : Pads) : Prop :=
  (∀ j, (v.at (.col j)).dir = .output) ∧ ∀ i, (v.at (.row i)).dir = .input ∧ (v.at (.row i)).pu = true

/-- Every column high (R120, R123). -/
def ColumnsHigh (v : Pads) : Prop := ∀ j, (v.at (.col j)).out = true

/-- The column discipline (R121, R123): an initialized keypad is configured; outside a pass every column is high; in a
pass every column but the current one is high, and the current one is low exactly from its drive to its restore; and
what is left of a KP_INIT list leads to a configured keypad with its columns high. -/
structure ColumnInv (s : State) : Prop extends SequencerInv s where
  configured : s.kpReady = true → KeypadConfigured s.pads
  high : s.kpReady = true → s.cur ≠ some .kpScan → ColumnsHigh s.pads
  others : s.cur = some .kpScan → ∀ k, k ≠ s.scan.j → (s.pads.at (.col k)).out = true
  current : s.cur = some .kpScan → (s.pads.at (.col s.scan.j)).out = decide (s.scan.phase = .drive)
  leads : s.cur = some .kpInit →
    KeypadConfigured (padsAfter s.pads s.acts) ∧ ColumnsHigh (padsAfter s.pads s.acts)

/-! ## The display's timing -/

/-- What the timing observer has seen since reset: Enable's level, and the waits elapsed since its last rising write,
its last falling write and the last write to RS or a data line (nothing for none yet); `ok` until a rule is broken. -/
structure LcdMonitor where
  eHigh : Bool
  sinceRise : Option Nat
  sinceFall : Option Nat
  sinceData : Option Nat
  ok : Bool
deriving DecidableEq, Repr

/-- Nothing seen yet. -/
def LcdMonitor.start : LcdMonitor := ⟨false, none, none, none, true⟩

/-- At least `us` have elapsed since an event that may not have happened. -/
def elapsed (since : Option Nat) (us : Nat) : Bool :=
  match since with
  | none => true
  | some t => decide (us ≤ t)

/-- A write to RS or a data line: at least `T_SETTLE` after the last falling write of E (R159 b), E low (R160). -/
def LcdMonitor.data (p : Params) (m : LcdMonitor) : LcdMonitor :=
  { m with sinceData := some 0, ok := m.ok && elapsed m.sinceFall p.tSettle && !m.eHigh }

/-- A write to E. A rising one comes at least `T_SETTLE` after the last write to RS or a data line (R159 c) and at least
`2 * T_SETTLE` after the last pulse (R159 d); a falling one at least `T_PULSE` after the rise (R159 a); any at least
`T_SETTLE` after the last falling one (R159 b). -/
def LcdMonitor.enable (p : Params) (m : LcdMonitor) (lvl : Level) : LcdMonitor :=
  match lvl, m.eHigh with
  | true, false =>
    { m with
      eHigh := true
      sinceRise := some 0
      ok := m.ok && elapsed m.sinceData p.tSettle && elapsed m.sinceFall (2 * p.tSettle) }
  | false, true => { m with eHigh := false, sinceFall := some 0, ok := m.ok && elapsed m.sinceRise p.tPulse }
  | true, true => { m with ok := m.ok && elapsed m.sinceFall p.tSettle }
  | false, false => { m with ok := m.ok && elapsed m.sinceFall p.tSettle }

/-- One event of the pin trace, seen by the timing observer. A reset ends what it watches (log 12). -/
def LcdMonitor.see (p : Params) (m : LcdMonitor) : PinEvent → LcdMonitor
  | .write .rs _ => m.data p
  | .write .d4 _ => m.data p
  | .write .d5 _ => m.data p
  | .write .d6 _ => m.data p
  | .write .d7 _ => m.data p
  | .write .e lvl => m.enable p lvl
  | .write (.row _) _ => m
  | .write (.col _) _ => m
  | .cfg _ _ _ => m
  | .pullUp _ _ => m
  | .read _ _ => m
  | .wait us =>
    { m with
      sinceRise := m.sinceRise.map (· + us)
      sinceFall := m.sinceFall.map (· + us)
      sinceData := m.sinceData.map (· + us) }
  | .reset => { LcdMonitor.start with ok := m.ok }

/-- The timing observer's view of a pin trace. -/
def lcdWatch (p : Params) (t : List PinEvent) : LcdMonitor := t.foldl (LcdMonitor.see p) LcdMonitor.start

/-- A pin trace meets the settle contract (R159) and changes RS and the data lines only while E is low (R160). -/
def meetsContract (p : Params) (t : List PinEvent) : Bool := (lcdWatch p t).ok

/-- Between transfers: no breach, E low, and the settle wait after the last pulse over. -/
def LcdMonitor.atRest (p : Params) (m : LcdMonitor) : Prop :=
  m.ok = true ∧ m.eHigh = false ∧ elapsed m.sinceFall p.tSettle = true

/-- What is left of a display command's list keeps the contract and ends at rest; where a configuration can be rejected
and end the command, the observer is at rest already. -/
def keepsContract (p : Params) : LcdMonitor → List Prim → Prop
  | m, [] => m.atRest p
  | m, .cfg _ _ :: rest => m.atRest p ∧ keepsContract p m rest
  | m, .pullUp _ :: rest => m.atRest p ∧ keepsContract p m rest
  | m, .write q lvl :: rest => m.ok = true ∧ keepsContract p (m.see p (.write q lvl)) rest
  | m, .read _ :: rest => m.ok = true ∧ keepsContract p m rest
  | m, .wait us :: rest => m.ok = true ∧ keepsContract p (m.see p (.wait us)) rest

/-- The display timing invariant (R159, R160): the pin trace so far meets the contract, and so will what is left. -/
structure LcdTimingInv (s : State) : Prop extends SequencerInv s where
  contract : meetsContract s.params s.obs.pins = true
  resting : (∀ i, s.cur = some i → ¬ LcdCommand i) → (lcdWatch s.params s.obs.pins).atRest s.params
  leads : ∀ i, s.cur = some i → LcdCommand i → keepsContract s.params (lcdWatch s.params s.obs.pins) s.acts

/-! ## The pads and the trace -/

/-- The pads are what the pin trace says (R21): nothing but its primitives and reset has changed them. -/
def PadsInv (s : State) : Prop := s.pads = padsOf s.obs.pins

/-! ## Traces of a scan pass -/

/-- The settle wait of a pass, left out when `T_SCAN_SETTLE = 0` (R9, R122). -/
def settleEvents (p : Params) : List PinEvent := if p.tScanSettle = 0 then [] else [.wait p.tScanSettle]

/-- A column in which every row reads high (R122). -/
def quietColumn (p : Params) (j : Fin 4) : List PinEvent :=
  [.write (.col j) false] ++ settleEvents p
    ++ [.read (.row 0) true, .read (.row 1) true, .read (.row 2) true, .read (.row 3) true]
    ++ [.write (.col j) true]

/-- A column in which row `i` is the first to read low, then reads low `n` more times, then high (R122, R126). -/
def hitColumn (p : Params) (j i : Fin 4) (n : Nat) : List PinEvent :=
  [.write (.col j) false] ++ settleEvents p
    ++ ([0, 1, 2, 3].filter (· < i)).map (fun r => .read (.row r) true)
    ++ [.read (.row i) false] ++ List.replicate n (.read (.row i) false) ++ [.read (.row i) true]
    ++ [.write (.col j) true]

/-- A pass in which no row reads low (R122, R128). -/
def quietPass (p : Params) : List PinEvent := [0, 1, 2, 3].flatMap (quietColumn p)

/-- A pass, with `PASS_END_ON_EVENT`, whose first low read is row `i` of column `j` (R122, R127, R129). -/
def hitPass (p : Params) (j i : Fin 4) (n : Nat) : List PinEvent :=
  ([0, 1, 2, 3].filter (· < j)).flatMap (quietColumn p) ++ hitColumn p j i n

/-! ## Passes over real contacts -/

/-- The answers `as` are ones the reference contact environment (R77) may give, one for each turn of SEQ, when the keys
pressed at those turns are `ks`. It speaks of row reads alone. -/
def AnswersContacts : List Pressed → List Answer → State → Prop
  | [], as, _ => as = []
  | k :: ks, as, s =>
    match as with
    | [] => False
    | a :: rest =>
      (s.waitLeft = 0 → s.scan.phase = .read ∨ s.scan.phase = .release →
        contactAllows k s.pads s.scan.i a.level = true) ∧
      AnswersContacts ks rest (seqStep a s)

/-- The steps of a settle wait: none when `T_SCAN_SETTLE = 0`, else its beginning and its cycles (R9, R74). -/
def settleSteps (p : Params) : Nat := if p.tScanSettle = 0 then 0 else 1 + cycles p p.tScanSettle

/-- The steps of a column in which no row reads low. -/
def columnSteps (p : Params) : Nat := 6 + settleSteps p

/-- The steps of a pass up to and with its first read of row `i` in column `j`, no row having read low before. -/
def stepsToRead (p : Params) (i j : Fin 4) : Nat := j.val * columnSteps p + 1 + settleSteps p + i.val + 1

/-! ## HOST's programs -/

/-- A host program submits commands through its command lines alone (R97): no line writes CMD itself. -/
def CommandsByLine (h : HostState) : Prop := ∀ off v, HostOp.write off v ∈ h.prog → off ≠ 0x0

/-- When HOST's poll of a command line has seen BUSY clear, the block is idle (R97). -/
def PolledIdle (h : HostState) (s : State) : Prop := h.polled = true → s.cur = none

/-! ## The observation -/

/-- A state with its observation emptied. -/
def forget (s : State) : State := { s with obs := ⟨[], [], []⟩ }

/-- An outcome with its state's observation emptied. -/
def forgetOutcome : Host.Outcome State Fault Refusal → Host.Outcome State Fault Refusal
  | .next s => .next (forget s)
  | .fault r => .fault r
  | .refused r => .refused r

end Sys2Proof.Safety
end

