-- ==== Sys2Proof/Certificates/Slice0/Obligations.lean ====
section
/-! DEFINITION. The statements for the provers. Each docstring names the rules of spec/ it formalises. -/

open Sys2Proof Sys2Proof.Machine Sys2Proof.Safety

/-! ## Encoding -/

/-- Words written out from R92 and the vectors of L2.1 decode as they say. -/
def Obligations.SampleWordsDecodeAsTabled : Prop :=
  decode 0x00000000 = .ok .nop ∧ decode 0x10000000 = .ok .kpInit ∧ decode 0x20000000 = .ok .kpScan ∧
  decode 0x30000000 = .ok .lcdInit ∧ decode 0x40000028 = .ok (.lcdCmd 0x28) ∧
  decode 0x50000036 = .ok (.lcdData 0x36) ∧ decode 0x60000000 = .ok .lbBegin ∧
  decode 0x700000FF = .ok (.lbPut 0xFF) ∧ decode 0x80000000 = .ok (.lcdWriteLine .line1) ∧
  decode 0x80000001 = .ok (.lcdWriteLine .line2) ∧
  decode 0x00000001 = .error .operandNotZero ∧ decode 0x40000100 = .error .reservedBits ∧
  decode 0x80000080 = .error .lineNotOneBit ∧ decode 0xF00000FF = .error .reservedOpcode

/-- Every command, with every operand, is read back from its word, from its four byte lanes (R62), and from its word
as the opcode table numbers it. -/
def Obligations.DecodeInvertsEncode : Prop :=
  ∀ i : Instr,
    decode (encode i) = .ok i ∧ decodeBytes (wordBytes (encode i)) = .ok i ∧
    decodeTableWord 32 (encode i).toNat = some i

/-- A word that decodes to a command is that command's only word: no legal word has a second spelling (R93). -/
def Obligations.EncodeInvertsDecode : Prop :=
  ∀ (w : Word) (i : Instr), decode w = .ok i → encode i = w

/-- R94, R211: the illegal words are exactly the four cases listed, and each raises ILL and changes nothing else when
HOST writes it to an idle block: no reserved encoding is legal. -/
def Obligations.IllegalWordsAreExactlyTheListed : Prop :=
  ∀ w : Word,
    ((∃ e, decode w = .error e) ↔
      (w.extractLsb' 8 20 ≠ 0 ∨ 9 ≤ (w.extractLsb' 28 4).toNat ∨
       ((w.extractLsb' 28 4).toNat ∈ [0, 1, 2, 3, 6] ∧ w.extractLsb' 0 8 ≠ 0) ∨
       ((w.extractLsb' 28 4).toNat = 8 ∧ w.extractLsb' 1 7 ≠ 0))) ∧
    ∀ (s : State) (rest : List Input), s.cur = none → s.inputs = .host (.write 0x0 4 w) :: rest →
      (∃ e, decode w = .error e) → step s = .next { s with inputs := rest, flags := { s.flags with ill := true } }

/-- R92, R93: a word is legal exactly when it belongs to a row of the opcode map, and no word belongs to two rows. -/
def Obligations.OpcodeRowsAreDisjointAndComplete : Prop :=
  (∀ w : Word, (∃ i, decode w = .ok i) ↔ ∃ r ∈ opcodeRows, r.has w = true) ∧
  ∀ w : Word, ∀ r ∈ opcodeRows, ∀ r' ∈ opcodeRows, r.has w = true → r'.has w = true → r = r'

/-- R96: the assembler gives each operand form the word of the table and refuses an `<imm8>` outside 0..255 and an
`<addr>` other than 0x80 and 0xC0. A character literal stands for its byte code; that it must be printable ASCII is
the model's (log 18). -/
def Obligations.AssemblerFollowsItsTable : Prop :=
  (∀ n : Nat,
    assembleWord (.lcdCmd (.num n)) = (if n ≤ 255 then some (0x40000000 ||| BitVec.ofNat 32 n) else none) ∧
    assembleWord (.lcdData (.num n)) = (if n ≤ 255 then some (0x50000000 ||| BitVec.ofNat 32 n) else none) ∧
    assembleWord (.lbPut (.num n)) = (if n ≤ 255 then some (0x70000000 ||| BitVec.ofNat 32 n) else none) ∧
    assembleWord (.lcdLine n) =
      (if n = 0x80 then some 0x80000000 else if n = 0xC0 then some 0x80000001 else none)) ∧
  (∀ c : Char,
    let byte := BitVec.ofNat 32 c.toNat
    let printable := 0x20 ≤ c.toNat ∧ c.toNat ≤ 0x7E
    assembleWord (.lcdCmd (.chr c)) = (if printable then some (0x40000000 ||| byte) else none) ∧
    assembleWord (.lcdData (.chr c)) = (if printable then some (0x50000000 ||| byte) else none) ∧
    assembleWord (.lbPut (.chr c)) = (if printable then some (0x70000000 ||| byte) else none)) ∧
  assembleWord .nop = some 0x00000000 ∧ assembleWord .kpInit = some 0x10000000 ∧
  assembleWord .kpScan = some 0x20000000 ∧ assembleWord .lcdInit = some 0x30000000 ∧
  assembleWord .lbBegin = some 0x60000000

/-- R98: `lcd.write_line` puts every character of its text between LB_BEGIN and the LCD_WRITE_LINE of its address. -/
def Obligations.WriteLineExpandsToItsCommands : Prop :=
  ∀ text : List Byte,
    (Pseudo.writeLine text 0x80).expand.map assemble =
      (Instr.lbBegin :: text.map Instr.lbPut ++ [Instr.lcdWriteLine .line1]).map some ∧
    (Pseudo.writeLine text 0xC0).expand.map assemble =
      (Instr.lbBegin :: text.map Instr.lbPut ++ [Instr.lcdWriteLine .line2]).map some

/-! ## Acceptance (43_system.md R200, 60_exceptions.md R211 to R213) -/

/-- A HOST write of a legal word to CMD makes the step `exec` of its command: on an idle block the command is accepted
or turned away as R200 says. The model's own: on a busy block `exec` is the OVR of R212, since the BUSY check stands in
it too (log 15); an idle block runs `exec` alone even when SEQ has its turn in the same step (log 4); `withFetchWord`
places such a write (log 16). -/
def Obligations.StepRunsTheDecodedCommand : Prop :=
  ∀ (s : State) (w : Word) (i : Instr), decode w = .ok i →
    (∀ rest, s.inputs = .host (.write 0x0 4 w) :: rest → step s = exec i { s with inputs := rest }) ∧
    (∀ rest, s.cur = none → SubmitsWord s w rest → step s = exec i { s with inputs := rest }) ∧
    step (s.withFetchWord 32 w.toNat) = exec i s

/-- R212: every CMD write made while a command is executing, whatever the word, legal or not, sets OVR and changes
nothing else; the running command is not affected. -/
def Obligations.WriteWhileBusyRaisesOvr : Prop :=
  ∀ (s : State) (w : Word) (rest : List Input), s.cur ≠ none → s.inputs = .host (.write 0x0 4 w) :: rest →
    step s = .next { s with inputs := rest, flags := { s.flags with ovr := true } }

/-- R213: KP_SCAN with KP_READY clear, and LCD_CMD, LCD_DATA, LCD_WRITE_LINE with LCD_READY clear, set NOTINIT and
change nothing else. -/
def Obligations.UnreadyUnitRaisesNotinit : Prop :=
  ∀ s : State, s.cur = none →
    (s.kpReady = false → exec .kpScan s = .next { s with flags := { s.flags with notinit := true } }) ∧
    (s.lcdReady = false →
      (∀ v, exec (.lcdCmd v) s = .next { s with flags := { s.flags with notinit := true } }) ∧
      (∀ v, exec (.lcdData v) s = .next { s with flags := { s.flags with notinit := true } }) ∧
      ∀ l, exec (.lcdWriteLine l) s = .next { s with flags := { s.flags with notinit := true } })

/-- R201: NOP changes nothing; its word is zero, the only legal word of opcode 0; written while busy it sets OVR. -/
def Obligations.NopDoesNothing : Prop :=
  (∀ s : State, s.cur = none → exec .nop s = .next s) ∧
  (∀ s : State, s.cur ≠ none → exec .nop s = .next { s with flags := { s.flags with ovr := true } }) ∧
  encode .nop = 0x00000000 ∧
  ∀ w : Word, w.extractLsb' 28 4 = 0 → w ≠ 0 → ∃ e, decode w = .error e

/-- R180: LB_BEGIN, word 0x60000000, fills LB with spaces and clears LB_IDX in the accepting step, whatever the ready
flags, and changes nothing else; written while busy it sets OVR. -/
def Obligations.LbBeginClearsTheLine : Prop :=
  encode .lbBegin = 0x60000000 ∧
  (∀ s : State, s.cur ≠ none → exec .lbBegin s = .next { s with flags := { s.flags with ovr := true } }) ∧
  ∀ s : State, s.cur = none →
    ∃ lb : Vector Byte 16, (∀ k : Fin 16, lb[k] = 0x20) ∧ exec .lbBegin s = .next { s with lb := lb, lbIdx := 0 }

/-- R181: LB_PUT, word `0x70000000 | c`, stores the character at LB_IDX and counts it, in the accepting step; at 16 it
changes nothing; written while busy it sets OVR. -/
def Obligations.LbPutAppendsOrDrops : Prop :=
  ∀ (s : State) (c : Byte), encode (.lbPut c) = 0x70000000 ||| c.setWidth 32 ∧
    (s.cur ≠ none → exec (.lbPut c) s = .next { s with flags := { s.flags with ovr := true } }) ∧
    (s.cur = none → s.lbIdx = 16 → exec (.lbPut c) s = .next s) ∧
    ∀ k : Fin 16, s.cur = none → s.lbIdx = k.castSucc →
      ∃ t, exec (.lbPut c) s = .next t ∧ t.lb[k] = c ∧ (∀ m : Fin 16, m ≠ k → t.lb[m] = s.lb[m]) ∧
        t.lbIdx = k.succ ∧ t = { s with lb := t.lb, lbIdx := t.lbIdx }

/-- R183: for a text of any length, LB_BEGIN and an LB_PUT of each character leave the text in LB, padded with spaces
or cut to 16 characters, and LB_IDX at the smaller of its length and 16; nothing else has changed. -/
def Obligations.LineIsPaddedOrTruncated : Prop :=
  ∀ (s : State) (text : List Byte), s.cur = none →
    ∃ t, submitRun (.lbBegin :: text.map Instr.lbPut) s = .next t ∧
      (∀ k : Fin 16, t.lb[k] = text.getD k.val 0x20) ∧ t.lbIdx.val = min text.length 16 ∧
      t = { s with inputs := [], lb := t.lb, lbIdx := t.lbIdx }

/-- The commands SEQ runs are accepted by an idle block whose unit is ready where they need one (R200): KP_INIT and
LCD_INIT clear their ready flag and start their list (R120, R156), KP_SCAN starts a pass at column 0 and row 0 (R122),
LCD_CMD, LCD_DATA and LCD_WRITE_LINE start their SENDs (R154, R155, R182). Nothing else changes. That KP_INIT's and
LCD_INIT's list is in ACTS from the accepting step is the model's (log 8). -/
def Obligations.RunningCommandsAreAccepted : Prop :=
  ∀ s : State, s.cur = none →
    exec .kpInit s = .next { s with
      kpReady := false
      cur := some .kpInit
      acts :=
        [.cfg (.col 0) .output, .write (.col 0) true, .cfg (.col 1) .output, .write (.col 1) true,
         .cfg (.col 2) .output, .write (.col 2) true, .cfg (.col 3) .output, .write (.col 3) true,
         .cfg (.row 0) .input, .pullUp (.row 0), .cfg (.row 1) .input, .pullUp (.row 1),
         .cfg (.row 2) .input, .pullUp (.row 2), .cfg (.row 3) .input, .pullUp (.row 3)] } ∧
    exec .lcdInit s = .next { s with
      lcdReady := false
      cur := some .lcdInit
      acts :=
        [.cfg .rs .output, .cfg .e .output, .cfg .d4 .output, .cfg .d5 .output, .cfg .d6 .output,
         .cfg .d7 .output, .write .e false]
        ++ sendActs s.params 0x33 false ++ sendActs s.params 0x32 false ++ sendActs s.params 0x06 false
        ++ sendActs s.params 0x0C false ++ sendActs s.params 0x28 false ++ sendActs s.params 0x01 false
        ++ [.wait s.params.tSettle] } ∧
    (s.kpReady = true →
      exec .kpScan s = .next { s with scan := ⟨.drive, 0, 0, false⟩, cur := some .kpScan }) ∧
    (s.lcdReady = true →
      (∀ v, exec (.lcdCmd v) s = .next { s with acts := sendActs s.params v false, cur := some (.lcdCmd v) }) ∧
      (∀ v, exec (.lcdData v) s = .next { s with acts := sendActs s.params v true, cur := some (.lcdData v) }) ∧
      ∀ l, exec (.lcdWriteLine l) s = .next { s with
        acts := sendActs s.params (match l with | .line1 => 0x80 | .line2 => 0xC0) false
          ++ s.lb.toList.flatMap (fun c => sendActs s.params c true)
        cur := some (.lcdWriteLine l) })

/-- No command, in no state, ends in a fault or a refusal (R217, R228). -/
def Obligations.EveryCommandAnswersNext : Prop :=
  ∀ (i : Instr) (s : State), ∃ t, exec i s = .next t

/-! ## The display transfer (41_lcd_transfer.md) -/

/-- R150 to R153: SEND's action list, written out: RS, then for each nibble, high first, the four clears, the lines
whose bit is 1 in ascending order, and the five actions of TOGGLE. -/
def Obligations.SendIsTwoClearedAndLatchedNibbles : Prop :=
  ∀ (p : Params) (v : Byte) (rs : Level),
    let clears : List Prim := [.write .d4 false, .write .d5 false, .write .d6 false, .write .d7 false]
    let ones (lines : List (Pin × Nat)) : List Prim :=
      lines.filterMap fun l => if v.getLsbD l.2 then some (.write l.1 true) else none
    let toggle : List Prim :=
      [.wait p.tSettle, .write .e true, .wait p.tPulse, .write .e false, .wait p.tSettle]
    sendActs p v rs =
      [.write .rs rs] ++ clears ++ ones [(.d4, 4), (.d5, 5), (.d6, 6), (.d7, 7)] ++ toggle
        ++ clears ++ ones [(.d4, 0), (.d5, 1), (.d6, 2), (.d7, 3)] ++ toggle

/-- R152, R267: SEND has 19 actions and one for each 1 bit, and takes at least `4 * T_SETTLE + 2 * T_PULSE`. -/
def Obligations.SendCountAndDuration : Prop :=
  ∀ (p : Params) (v : Byte) (rs : Level),
    (sendActs p v rs).length = 19 + popcount v ∧ actsDuration (sendActs p v rs) = 4 * p.tSettle + 2 * p.tPulse

/-- R158: whatever the trace before it, SEND appends exactly two latch records, the high nibble then the low one, both
with RS as sent, and they recombine to the byte. -/
def Obligations.SendLatchesTheByteAsTwoNibbles : Prop :=
  ∀ (p : Params) (t : List PinEvent) (v : Byte) (rs : Level),
    ∃ h l : Nibble,
      latchTrace (t ++ (sendActs p v rs).map acceptedEvent) = latchTrace t ++ [⟨rs, h⟩, ⟨rs, l⟩] ∧
      16 * h.toNat + l.toNat = v.toNat

/-- R154, R155: from an idle block with LCD_READY set, LCD_CMD and LCD_DATA run, for exactly the steps of their SEND,
to an idle block; the pins are left as the last nibble leaves them, the trace has grown by the SEND's events, and
nothing else has changed, whatever ENV answers. The number of steps is the model's (log 5, log 6). -/
def Obligations.ByteCommandsRunToTheEnd : Prop :=
  ∀ (s : State) (v : Byte) (isData : Bool), SequencerInv s → s.cur = none → s.lcdReady = true →
    ∃ t, exec (if isData then .lcdData v else .lcdCmd v) s = .next t ∧
      ∀ as : List Answer, as.length = workLeft t →
        seqRun as t = .next { s with
          inputs := []
          pads := (((((s.pads.setOut .rs isData).setOut .e false).setOut .d4 (v.getLsbD 0)).setOut .d5
            (v.getLsbD 1)).setOut .d6 (v.getLsbD 2)).setOut .d7 (v.getLsbD 3)
          obs := { s.obs with pins := s.obs.pins ++ (sendActs s.params v isData).map acceptedEvent } }

/-- R156: from an idle block whose display is at rest (`LcdTimingInv`), LCD_INIT with every configuration accepted
performs 136 actions and ends idle with LCD_READY set, the six pins outputs, RS and E low and `{D7..D4} = 0x1`; the
latch trace grows by the twelve records of the initialization bytes; nothing else changes. The number of steps, and
that the list is in ACTS from the accepting step, are the model's (log 5, log 6, log 8). -/
def Obligations.LcdInitRunsToReady : Prop :=
  ∀ s : State, LcdTimingInv s → s.cur = none →
    ∃ t, exec .lcdInit s = .next t ∧ t.acts.length = 136 ∧
      actsDuration t.acts = 25 * s.params.tSettle + 12 * s.params.tPulse ∧
      ∀ as : List Answer, Follows s.params as (t.acts.map acceptedEvent) →
        ∃ u, seqRun as t = .next u ∧
          (∀ p, keypadPin p = false → (u.pads.at p).dir = .output ∧ (u.pads.at p).pu = (s.pads.at p).pu ∧
            (u.pads.at p).out = decide (p = .d4)) ∧
          (∀ p, keypadPin p = true → u.pads.at p = s.pads.at p) ∧
          latchTrace u.obs.pins = latchTrace s.obs.pins ++
            [⟨false, 0x3⟩, ⟨false, 0x3⟩, ⟨false, 0x3⟩, ⟨false, 0x2⟩, ⟨false, 0x0⟩, ⟨false, 0x6⟩, ⟨false, 0x0⟩,
             ⟨false, 0xC⟩, ⟨false, 0x2⟩, ⟨false, 0x8⟩, ⟨false, 0x0⟩, ⟨false, 0x1⟩] ∧
          u = { s with
            inputs := []
            lcdReady := true
            pads := u.pads
            obs := { s.obs with pins := s.obs.pins ++ t.acts.map acceptedEvent } }

/-- R182: from an idle block with LCD_READY set, LCD_WRITE_LINE runs to an idle block; the latch trace grows by the
two nibbles of the line address with RS low and the two nibbles of each of the 16 bytes of LB, in order, with RS high;
LB and LB_IDX are unchanged, and nothing else changes but the display's pins. The number of steps is the model's (log
5, log 6). -/
def Obligations.WriteLineRunsToTheEnd : Prop :=
  ∀ (s : State) (l : DisplayLine), SequencerInv s → s.cur = none → s.lcdReady = true →
    ∃ t, exec (.lcdWriteLine l) s = .next t ∧
      actsDuration t.acts = 68 * s.params.tSettle + 34 * s.params.tPulse ∧
      t.acts.length = 323 + popcount (lineAddr l) + (s.lb.toList.map popcount).sum ∧
      ∀ as : List Answer, as.length = workLeft t →
        ∃ u, seqRun as t = .next u ∧
          latchTrace u.obs.pins = latchTrace s.obs.pins
            ++ [⟨false, (lineAddr l).extractLsb' 4 4⟩, ⟨false, (lineAddr l).extractLsb' 0 4⟩]
            ++ s.lb.toList.flatMap (fun c => [⟨true, c.extractLsb' 4 4⟩, ⟨true, c.extractLsb' 0 4⟩]) ∧
          (∀ p, keypadPin p = true → u.pads.at p = s.pads.at p) ∧
          (∀ p, (u.pads.at p).dir = (s.pads.at p).dir ∧ (u.pads.at p).pu = (s.pads.at p).pu) ∧
          u = { s with
            inputs := []
            pads := u.pads
            obs := { s.obs with pins := s.obs.pins ++ t.acts.map acceptedEvent } }

/-- R185: two writes of one text to one line, by LB_BEGIN, an LB_PUT of each character and LCD_WRITE_LINE, start the
same action list, whatever state the line buffer, the pins and the keypad were in. -/
def Obligations.LineWriteIsIdempotent : Prop :=
  ∀ (s s' : State) (text : List Byte) (l : DisplayLine), s.cur = none → s'.cur = none →
    s.lcdReady = true → s'.lcdReady = true → s.params = s'.params →
    ∃ t t', submitRun (.lbBegin :: text.map Instr.lbPut ++ [.lcdWriteLine l]) s = .next t ∧
      submitRun (.lbBegin :: text.map Instr.lbPut ++ [.lcdWriteLine l]) s' = .next t' ∧
      t.cur = some (.lcdWriteLine l) ∧ t'.cur = some (.lcdWriteLine l) ∧ t.acts = t'.acts ∧ t.lb = t'.lb

/-! ## The keypad (40_keypad.md) -/

/-- R120: from an idle block, KP_INIT with every configuration accepted ends idle after its 16 actions, with KP_READY
set, the columns outputs and high, the rows inputs with pull-up; nothing else changes. That the last action's step
ends the command, and that the list is in ACTS from the accepting step, are the model's (log 5, log 8). -/
def Obligations.KpInitRunsToReady : Prop :=
  ∀ s : State, SequencerInv s → s.cur = none →
    ∃ t, exec .kpInit s = .next t ∧ t.acts.length = 16 ∧
      ∀ as : List Answer, as.length = 16 → (∀ a ∈ as, a.ack = true) →
        ∃ u, seqRun as t = .next u ∧
          (∀ j, u.pads.at (.col j) = ⟨.output, true, (s.pads.at (.col j)).pu⟩) ∧
          (∀ i, u.pads.at (.row i) = ⟨.input, (s.pads.at (.row i)).out, true⟩) ∧
          (∀ p, keypadPin p = false → u.pads.at p = s.pads.at p) ∧
          u = { s with
            inputs := []
            kpReady := true
            pads := u.pads
            obs := { s.obs with pins := s.obs.pins ++ t.acts.map acceptedEvent } }

/-- R67, R70 to R72: SEQ performs the head of its action list, one a step, in order: an accepted `Cfg` or `PullUp` and
a `PinWrite` each change their one pad bit; while actions are left nothing else changes but the list and the trace. -/
def Obligations.ListActionsChangeTheirPadBit : Prop :=
  ∀ (s : State) (c : Instr) (a : Prim) (rest : List Prim) (ans : Answer) (later : List Input),
    s.cur = some c → c ≠ .kpScan → s.waitLeft = 0 → s.acts = a :: rest → rest ≠ [] →
    s.inputs = .seq ans :: later →
    (∀ p d, a = .cfg p d → ans.ack = true →
      ∃ v, v.at p = { s.pads.at p with dir := d } ∧ (∀ q, q ≠ p → v.at q = s.pads.at q) ∧
        step s = .next { s with
          inputs := later, acts := rest, pads := v
          obs := { s.obs with pins := s.obs.pins ++ [.cfg p d true] } }) ∧
    (∀ p, a = .pullUp p → ans.ack = true →
      ∃ v, v.at p = { s.pads.at p with pu := true } ∧ (∀ q, q ≠ p → v.at q = s.pads.at q) ∧
        step s = .next { s with
          inputs := later, acts := rest, pads := v
          obs := { s.obs with pins := s.obs.pins ++ [.pullUp p true] } }) ∧
    ∀ p lvl, a = .write p lvl →
      ∃ v, v.at p = { s.pads.at p with out := lvl } ∧ (∀ q, q ≠ p → v.at q = s.pads.at q) ∧
        step s = .next { s with
          inputs := later, acts := rest, pads := v
          obs := { s.obs with pins := s.obs.pins ++ [.write p lvl] } }

/-- R214: a `Cfg` or `PullUp` that ENV rejects ends the command at that primitive: CFGERR is set, ACTS emptied and CUR
none; the pads and the ready flags are as they were, and so is everything else but the trace. That the rejected
primitive joins the trace, with its answer, is the model's (log 13). -/
def Obligations.RejectedConfigurationEndsTheCommand : Prop :=
  ∀ (s : State) (c : Instr) (a : Prim) (rest : List Prim) (ans : Answer) (later : List Input) (ev : PinEvent),
    s.cur = some c → c ≠ .kpScan → s.waitLeft = 0 → s.acts = a :: rest → ans.ack = false →
    ((∃ p d, a = .cfg p d ∧ ev = .cfg p d false) ∨ ∃ p, a = .pullUp p ∧ ev = .pullUp p false) →
    s.inputs = .seq ans :: later →
    step s = .next { s with
      inputs := later
      flags := { s.flags with cfgerr := true }
      acts := []
      cur := none
      obs := { s.obs with pins := s.obs.pins ++ [ev] } }

/-- R122: SEQ's turn in a pass, by the line it is at, but for a low read and the release-wait: it drives the column
low, waits T_SCAN_SETTLE unless that is 0, reads the rows in order, and restores the column high; the pass ends after
column 3 or, under PASS_END_ON_EVENT, after an event, and else goes on with the next column. The model's own: the step
that begins the settle wait only loads its cycles (log 6), the pass ends in the step of its last restore (log 5), and
what SCAN holds between its lines (log 7). -/
def Obligations.ScanFollowsItsLoop : Prop :=
  ∀ (s : State) (ans : Answer) (later : List Input), s.cur = some .kpScan → s.waitLeft = 0 →
    s.inputs = .seq ans :: later →
    (s.scan.phase = .drive → ∃ c : Scan, c.j = s.scan.j ∧ c.i = 0 ∧ c.hit = s.scan.hit ∧
      c.phase = (if s.params.tScanSettle = 0 then .read else .settle) ∧
      step s = .next { s with
        inputs := later, scan := c, pads := s.pads.setOut (.col s.scan.j) false
        obs := { s.obs with pins := s.obs.pins ++ [.write (.col s.scan.j) false] } }) ∧
    (s.scan.phase = .settle →
      step s = .next { s with
        inputs := later, scan := { s.scan with phase := .read }, waitLeft := cycles s.params s.params.tScanSettle
        obs := { s.obs with pins := s.obs.pins ++ [.wait s.params.tScanSettle] } }) ∧
    (s.scan.phase = .read → ans.level = true → ∃ c : Scan, c.j = s.scan.j ∧ c.hit = s.scan.hit ∧
      (s.scan.i = 3 → c.phase = .restore) ∧ (s.scan.i ≠ 3 → c.phase = .read ∧ c.i.val = s.scan.i.val + 1) ∧
      step s = .next { s with
        inputs := later, scan := c
        obs := { s.obs with pins := s.obs.pins ++ [.read (.row s.scan.i) true] } }) ∧
    (s.scan.phase = .restore → ∃ c : Scan,
      (s.scan.j ≠ 3 → (s.scan.hit && s.params.passEndOnEvent) = false →
        c.phase = .drive ∧ c.j.val = s.scan.j.val + 1 ∧ c.i = 0 ∧ c.hit = false) ∧
      step s = .next { s with
        inputs := later, scan := c, pads := s.pads.setOut (.col s.scan.j) true
        cur := if s.scan.j = 3 ∨ (s.scan.hit && s.params.passEndOnEvent) = true then none else some .kpScan
        obs := { s.obs with pins := s.obs.pins ++ [.write (.col s.scan.j) true] } })

/-- R125, R215: a low read of row `i` while column `j` is scanned is a key event in that step: KEY takes VALID, COL,
ROW and the code of the legend's symbol, KOVR is set if KEY was still valid, and the release-wait follows. The event
is in the event sequence, and nothing else changes but the trace. -/
def Obligations.LowReadMakesAKeyEvent : Prop :=
  ∀ (s : State) (ans : Answer) (later : List Input),
    s.cur = some .kpScan → s.waitLeft = 0 → s.scan.phase = .read → ans.level = false →
    s.inputs = .seq ans :: later →
    step s = .next { s with
      inputs := later
      key :=
        { valid := true
          col := BitVec.ofNat 2 s.scan.j.val
          row := BitVec.ofNat 2 s.scan.i.val
          sym := symbolCode (keyAt s.params s.scan.i s.scan.j) }
      flags := { s.flags with kovr := s.flags.kovr || s.key.valid }
      scan := { s.scan with phase := .release, hit := true }
      obs :=
        { s.obs with
          pins := s.obs.pins ++ [.read (.row s.scan.i) false]
          keys := s.obs.keys ++ [⟨s.scan.i, s.scan.j, symbolCode (keyAt s.params s.scan.i s.scan.j)⟩] } }

/-- R126: in the release-wait any number of low reads changes nothing but the trace: the row is read again, alone,
with no time limit, and the column stays low. -/
def Obligations.ReleaseWaitLastsWhileTheRowIsLow : Prop :=
  ∀ (s : State) (as : List Answer),
    s.cur = some .kpScan → s.waitLeft = 0 → s.scan.phase = .release → (∀ a ∈ as, a.level = false) →
    seqRun as s = .next { s with
      inputs := []
      obs := { s.obs with pins := s.obs.pins ++ List.replicate as.length (.read (.row s.scan.i) false) } }

/-- R126, R127: the high read of the release-wait is followed by the column's restore under PASS_END_ON_EVENT, and
else by the next row of the same column, or after row 3 by the restore. Nothing else changes but the trace. What SCAN
holds is the model's (log 7). -/
def Obligations.ReleaseEndsTheWait : Prop :=
  ∀ (s : State) (ans : Answer) (later : List Input),
    s.cur = some .kpScan → s.waitLeft = 0 → s.scan.phase = .release → ans.level = true →
    s.inputs = .seq ans :: later →
    ∃ c : Scan, c.j = s.scan.j ∧ c.hit = s.scan.hit ∧
      (s.params.passEndOnEvent = true → c.phase = .restore ∧ c.i = s.scan.i) ∧
      (s.params.passEndOnEvent = false → s.scan.i = 3 → c.phase = .restore ∧ c.i = 3) ∧
      (s.params.passEndOnEvent = false → s.scan.i ≠ 3 → c.phase = .read ∧ c.i.val = s.scan.i.val + 1) ∧
      step s = .next { s with
        inputs := later
        scan := c
        obs := { s.obs with pins := s.obs.pins ++ [.read (.row s.scan.i) true] } }

/-- R122, R128: a pass in which every read returns high drives, reads and restores the four columns in order, 28
actions, or 24 when T_SCAN_SETTLE is 0; it ends idle with KEY, the flags and the events unchanged, the columns high,
and nothing else changed but the scan's own position. The number of steps is the model's (log 5, log 6). What SCAN
holds afterwards is the model's (log 7). -/
def Obligations.QuietPassFindsNoKey : Prop :=
  ∀ s : State, SequencerInv s → s.cur = none → s.kpReady = true →
    ∃ t, exec .kpScan s = .next t ∧
      (quietPass s.params).length = (if s.params.tScanSettle = 0 then 24 else 28) ∧
      ∀ as : List Answer, Follows s.params as (quietPass s.params) →
        ∃ u, seqRun as t = .next u ∧
          (∀ j, u.pads.at (.col j) = { s.pads.at (.col j) with out := true }) ∧
          (∀ p, (∀ j, p ≠ .col j) → u.pads.at p = s.pads.at p) ∧
          u = { s with
            inputs := []
            scan := u.scan
            pads := u.pads
            obs := { s.obs with pins := s.obs.pins ++ quietPass s.params } }

/-- R122, R125 to R127, R129: with PASS_END_ON_EVENT, a pass whose first low read, in column-major order, is row `i`
of column `j`, held for `n` further reads, drives the columns up to `j` and no other, makes that one key event, waits
for the release, restores the column and ends idle. The number of steps is the model's (log 5, log 6). -/
def Obligations.PassReportsTheFirstKey : Prop :=
  ∀ (s : State) (i j : Fin 4) (n : Nat), SequencerInv s → s.cur = none → s.kpReady = true →
    s.params.passEndOnEvent = true →
    ∃ t, exec .kpScan s = .next t ∧
      ∀ as : List Answer, Follows s.params as (hitPass s.params j i n) →
        ∃ u, seqRun as t = .next u ∧
          (∀ k, k ≤ j → u.pads.at (.col k) = { s.pads.at (.col k) with out := true }) ∧
          (∀ p, (∀ k, k ≤ j → p ≠ .col k) → u.pads.at p = s.pads.at p) ∧
          u = { s with
            inputs := []
            key :=
              { valid := true
                col := BitVec.ofNat 2 j.val
                row := BitVec.ofNat 2 i.val
                sym := symbolCode (keyAt s.params i j) }
            flags := { s.flags with kovr := s.flags.kovr || s.key.valid }
            scan := u.scan
            pads := u.pads
            obs :=
              { s.obs with
                pins := s.obs.pins ++ hitPass s.params j i n
                keys := s.obs.keys ++ [⟨i, j, symbolCode (keyAt s.params i j)⟩] } }

/-- R131, R132: with PASS_END_ON_EVENT and the reference contacts, a pass over a keypad on which exactly one key is
held, from before its read until some step later, and then no key, makes exactly one event, that key's, and ends two
steps after the release with every column high. The number of steps is the model's (log 5, log 6), and so is the form
of the contact premise (log 20). -/
def Obligations.OneHeldKeyGivesOneEvent : Prop :=
  ∀ (s : State) (i j : Fin 4), ColumnInv s → s.cur = none → s.kpReady = true → s.params.passEndOnEvent = true →
    ∃ t, exec .kpScan s = .next t ∧
      ∀ (n : Nat) (as : List Answer), stepsToRead s.params i j ≤ n →
        AnswersContacts (List.replicate n [(i, j)] ++ [[], []]) as t →
        ∃ u, seqRun as t = .next u ∧ u.cur = none ∧ ColumnsHigh u.pads ∧ u.key = KeyReg.ofEvent s.params i j ∧
          u.obs.keys = s.obs.keys ++ [⟨i, j, symbolCode (keyAt s.params i j)⟩]

/-- R128, R132: a pass over a keypad on which no key is pressed ends, with no event: KEY and the flags are as they
were and every column is high. The number of steps is the model's (log 5, log 6), and so is the form of the contact
premise (log 20). -/
def Obligations.ReleasedKeypadGivesNoEvent : Prop :=
  ∀ s : State, ColumnInv s → s.cur = none → s.kpReady = true →
    ∃ t, exec .kpScan s = .next t ∧
      ∀ (n : Nat) (as : List Answer), 4 * columnSteps s.params ≤ n → AnswersContacts (List.replicate n []) as t →
        ∃ u, seqRun as t = .next u ∧ u.cur = none ∧ ColumnsHigh u.pads ∧ u.key = s.key ∧ u.flags = s.flags ∧
          u.obs.keys = s.obs.keys

/-- R121: with the keypad configured and every column high, every row reads high in the reference contact environment,
whichever keys are pressed. -/
def Obligations.RowsReadHighBetweenPasses : Prop :=
  ∀ (k : Pressed) (v : Pads), KeypadConfigured v → ColumnsHigh v → ∀ i, contactLevel k v i = some true

/-- R77, R132: with one key pressed and one column low, exactly the key's row reads low, and only in its column. -/
def Obligations.OneKeyPullsOnlyItsRowInItsColumn : Prop :=
  ∀ (v : Pads) (i j c : Fin 4), KeypadConfigured v →
    (∀ k, (v.at (.col k)).out = decide (k ≠ c)) →
    ∀ r, contactLevel [(i, j)] v r = some (decide (¬ (r = i ∧ c = j)))

/-! ## The host registers (10_state.md R23 to R29, 20_memory.md R60 to R65) -/

/-- R23, R38: the STATUS word, field by field. -/
def Obligations.StatusWordHasItsFields : Prop :=
  ∀ s : State,
    let w := statusWord s
    w.getLsbD 0 = decide (w.extractLsb' 4 4 ≠ 0) ∧ w.getLsbD 1 = s.key.valid ∧ w.getLsbD 2 = s.kpReady ∧
    w.getLsbD 3 = s.lcdReady ∧ w.getLsbD 8 = s.flags.ill ∧ w.getLsbD 9 = s.flags.ovr ∧
    w.getLsbD 10 = s.flags.notinit ∧ w.getLsbD 11 = s.flags.cfgerr ∧ w.getLsbD 12 = s.flags.kovr ∧
    (w.extractLsb' 4 4).toNat ≤ 6 ∧ w.extractLsb' 13 3 = 0 ∧ (w.extractLsb' 16 5).toNat = s.lbIdx.val ∧
    w.extractLsb' 21 11 = 0 ∧
    (s.cur = none → w.extractLsb' 4 4 = 0) ∧ (s.cur = some .kpInit → w.extractLsb' 4 4 = 1) ∧
    (s.cur = some .kpScan → s.scan.phase ≠ .release → w.extractLsb' 4 4 = 2) ∧
    (s.cur = some .kpScan → s.scan.phase = .release → w.extractLsb' 4 4 = 3) ∧
    (s.cur = some .lcdInit → w.extractLsb' 4 4 = 4) ∧
    (∀ v, s.cur = some (.lcdCmd v) ∨ s.cur = some (.lcdData v) → w.extractLsb' 4 4 = 5) ∧
    ∀ l, s.cur = some (.lcdWriteLine l) → w.extractLsb' 4 4 = 6

/-- R24: a STATUS write clears each sticky flag whose bit is 1 in the written value, ignores every other bit and
changes nothing else; a flag SEQ sets in the same step ends set. The order within a common step is log 4. -/
def Obligations.StatusWriteClearsItsOnes : Prop :=
  (∀ (s : State) (v : Word) (rest : List Input), s.inputs = .host (.write 0x4 4 v) :: rest →
    step s = .next { s with
      inputs := rest
      flags :=
        { ill := s.flags.ill && !v.getLsbD 8
          ovr := s.flags.ovr && !v.getLsbD 9
          notinit := s.flags.notinit && !v.getLsbD 10
          cfgerr := s.flags.cfgerr && !v.getLsbD 11
          kovr := s.flags.kovr && !v.getLsbD 12 } }) ∧
  ∀ (s : State) (v : Word) (ans : Answer) (rest : List Input), s.inputs = .both (.write 0x4 4 v) ans :: rest →
    s.waitLeft = 0 →
    (s.cur = some .kpScan → s.scan.phase = .read → ans.level = false → s.key.valid = true →
      ∃ t, step s = .next t ∧ t.flags.kovr = true) ∧
    ∀ c a more, s.cur = some c → c ≠ .kpScan → s.acts = a :: more → ans.ack = false →
      ((∃ p d, a = .cfg p d) ∨ ∃ p, a = .pullUp p) → ∃ t, step s = .next t ∧ t.flags.cfgerr = true

/-- R24, R219: a sticky flag that is set stays set in every step but a STATUS write with its own bit 1, or reset: a
STATUS write with the bit 0, alone or in the same step as SEQ's turn, keeps it. -/
def Obligations.StickyFlagsStayUntilCleared : Prop :=
  ∀ s t : State, step s = .next t → (∀ rest, s.inputs ≠ .reset :: rest) →
    (s.flags.ill = true → ¬ ClearsBit s 8 → t.flags.ill = true) ∧
    (s.flags.ovr = true → ¬ ClearsBit s 9 → t.flags.ovr = true) ∧
    (s.flags.notinit = true → ¬ ClearsBit s 10 → t.flags.notinit = true) ∧
    (s.flags.cfgerr = true → ¬ ClearsBit s 11 → t.flags.cfgerr = true) ∧
    (s.flags.kovr = true → ¬ ClearsBit s 12 → t.flags.kovr = true)

/-- R26, R27: a read of KEY returns VALID, COL, ROW and SYM as they stand and then clears VALID, keeping the rest; in
the same step as a key event it returns the old word, and the new event stays, valid. -/
def Obligations.KeyReadConsumesTheEvent : Prop :=
  ∀ s : State,
    let w : Word := BitVec.ofBool s.key.valid ++ (0 : BitVec 19) ++ s.key.col ++ s.key.row ++ s.key.sym
    (∀ rest, s.inputs = .host (.read 0x8 4) :: rest →
      step s = .next { s with
        inputs := rest
        key := { s.key with valid := false }
        obs := { s.obs with reads := s.obs.reads ++ [⟨0x8, w⟩] } }) ∧
    ∀ ans rest, s.inputs = .both (.read 0x8 4) ans :: rest →
      s.cur = some .kpScan → s.waitLeft = 0 → s.scan.phase = .read → ans.level = false →
      ∃ t, step s = .next t ∧ t.obs.reads = s.obs.reads ++ [⟨0x8, w⟩] ∧ t.key.valid = true ∧
        t.key.row = BitVec.ofNat 2 s.scan.i.val ∧ t.key.col = BitVec.ofNat 2 s.scan.j.val ∧
        t.key.sym = symbolCode (keyAt s.params s.scan.i s.scan.j)

/-- R26, R28, R29, R63, R64: reads of CMD and 0xC return 0 and reads of STATUS the STATUS word, with no effect; writes
to KEY and 0xC have no effect. -/
def Obligations.OtherAccessesHaveNoEffect : Prop :=
  ∀ (s : State) (rest : List Input),
    (s.inputs = .host (.read 0x0 4) :: rest →
      step s = .next { s with inputs := rest, obs := { s.obs with reads := s.obs.reads ++ [⟨0x0, 0⟩] } }) ∧
    (s.inputs = .host (.read 0xC 4) :: rest →
      step s = .next { s with inputs := rest, obs := { s.obs with reads := s.obs.reads ++ [⟨0xC, 0⟩] } }) ∧
    (s.inputs = .host (.read 0x4 4) :: rest →
      step s = .next { s with
        inputs := rest, obs := { s.obs with reads := s.obs.reads ++ [⟨0x4, statusWord s⟩] } }) ∧
    ∀ v, (s.inputs = .host (.write 0x8 4 v) :: rest ∨ s.inputs = .host (.write 0xC 4 v) :: rest) →
      step s = .next { s with inputs := rest }

/-- R61, R228: a step never faults, and it is refused exactly when HOST's access is not 4 bytes wide at a multiple of
4. -/
def Obligations.OnlyInadmissibleAccessesStop : Prop :=
  ∀ s : State,
    (∀ f, step s ≠ .fault f) ∧
    ((∃ r, step s = .refused r) ↔
      ∃ a rest, (s.inputs = .host a :: rest ∨ ∃ ans, s.inputs = .both a ans :: rest) ∧
        ∃ off bytes, (a = .read off bytes ∨ ∃ v, a = .write off bytes v) ∧ (bytes ≠ 4 ∨ off.toNat % 4 ≠ 0))

/-! ## HOST's programs (30_encoding.md R97, R99) -/

/-- R97: a host program that submits commands by its command lines alone never overruns: every turn keeps the poll's
promise, and OVR stays clear. HOST's program is the model's layer (log 21), the order within a common step log 4. -/
def Obligations.CommandLinesNeverOverrun : Prop :=
  ∀ (t : Turn) (h h' : HostState) (s s' : State), CommandsByLine h → SequencerInv s → PolledIdle h s →
    systemStep t h s = .next (h', s') →
    CommandsByLine h' ∧ SequencerInv s' ∧ PolledIdle h' s' ∧ (s.flags.ovr = false → s'.flags.ovr = false)

/-- R99: at the read of `kp.getkey`, HOST's next two turns put the KEY word into `x`, consume the event, and go back
to the scan when VALID was clear and on to the next line when it was set. HOST's program is the model's layer (log
21). -/
def Obligations.GetkeyTakesTheEvent : Prop :=
  ∀ (h : HostState) (s : State) (at_ x : Nat),
    (∀ k, k < 4 → h.prog[at_ + k]? = (getkeyLines at_ x)[k]?) → h.line = at_ + 2 →
    ∃ h' s', systemRun [.host, .host] h s = .next (h', s') ∧ h'.var x = s.key.word ∧
      (∀ y, y ≠ x → h'.var y = h.var y) ∧ h'.line = (if s.key.valid then at_ + 4 else at_) ∧
      h'.prog = h.prog ∧ h'.polled = h.polled ∧
      s' = { s with
        key := { s.key with valid := false }
        obs := { s.obs with reads := s.obs.reads ++ [⟨0x8, s.key.word⟩] } }

/-! ## Reset (70_reset_and_hazards.md R250 to R252) -/

/-- R250: reset, in any state, sets every state element to its reset value in that step: a running command is
abandoned, and the parameters stay as they were. -/
def Obligations.ResetSetsEveryElement : Prop :=
  ∀ (s : State) (rest : List Input), s.inputs = .reset :: rest →
    ∃ t, step s = .next t ∧ (∀ p, t.pads.at p = ⟨.input, false, false⟩) ∧
      t.flags = ⟨false, false, false, false, false⟩ ∧ t.key = ⟨false, 0, 0, 0⟩ ∧ statusWord t = 0 ∧
      t.kpReady = false ∧ t.lcdReady = false ∧ (∀ k : Fin 16, t.lb[k] = 0x20) ∧ t.lbIdx = 0 ∧
      t.cur = none ∧ t.acts = [] ∧ t.scan = ⟨.drive, 0, 0, false⟩ ∧ t.waitLeft = 0 ∧
      t.params = s.params

/-- The reset state satisfies every invariant, and its build the spec's constraints (R8, R10, R11). -/
def Obligations.ResetMeetsTheInvariants : Prop :=
  State.reset.params.valid = true ∧ ColumnInv State.reset ∧ LcdTimingInv State.reset ∧ PadsInv State.reset

/-! ## Rules of the whole machine -/

/-- Every step keeps the sequencer's invariant (R33, R38, R75, R200, R202). That a finished list is idle in the same
step is the model's (log 5). -/
def Obligations.StepKeepsSequencerInv : Prop :=
  ∀ s t : State, SequencerInv s → step s = .next t → SequencerInv t

/-- R123: every step keeps the column discipline. -/
def Obligations.StepKeepsColumnDiscipline : Prop :=
  ∀ s t : State, ColumnInv s → step s = .next t → ColumnInv t

/-- R159, R160: every step keeps the display timing contract, across commands, resets and rejected configurations, and
whatever HOST does. That a reset ends what the observer watches is the model's (log 12). -/
def Obligations.StepKeepsLcdTiming : Prop :=
  ∀ s t : State, LcdTimingInv s → step s = .next t → LcdTimingInv t

/-- R21: the pads change only by the primitives of the trace and by reset. The reset mark of the trace is the model's
(log 11). -/
def Obligations.StepKeepsPadsAsTraced : Prop :=
  ∀ s t : State, PadsInv s → step s = .next t → PadsInv t

/-- R35, R250: no step changes a parameter, the legend among them. -/
def Obligations.ParametersNeverChange : Prop :=
  ∀ s t : State, step s = .next t → t.params = s.params

/-- R135, R24: whatever admitted access HOST makes while a command executes, the running command and the pins are
untouched. The model's own (log 4): when SEQ has its turn in the step of a CMD write, the command goes on after OVR is
set. -/
def Obligations.HostNeverDisturbsTheCommand : Prop :=
  (∀ (s t : State) (a : HostAccess) (rest : List Input), s.cur ≠ none → s.inputs = .host a :: rest →
    step s = .next t →
    t.cur = s.cur ∧ t.acts = s.acts ∧ t.scan = s.scan ∧ t.waitLeft = s.waitLeft ∧ t.pads = s.pads ∧
    t.kpReady = s.kpReady ∧ t.lcdReady = s.lcdReady ∧ t.lb = s.lb ∧ t.lbIdx = s.lbIdx ∧
    t.obs.pins = s.obs.pins) ∧
  ∀ (s : State) (w : Word) (ans : Answer) (rest : List Input), s.cur ≠ none →
    s.inputs = .both (.write 0x0 4 w) ans :: rest →
    step s = .next (seqStep ans { s with inputs := rest, flags := { s.flags with ovr := true } })

/-- R162: a step of SEQ in a display command changes no keypad pin, not KEY, not KP_READY and no flag but CFGERR; in a
keypad command it changes no display pin and not LCD_READY; in either it leaves the line buffer alone. -/
def Obligations.UnitsDoNotTouchEachOther : Prop :=
  ∀ (s t : State) (ans : Answer) (rest : List Input) (c : Instr), SequencerInv s → s.cur = some c →
    s.inputs = .seq ans :: rest → step s = .next t →
    t.lb = s.lb ∧ t.lbIdx = s.lbIdx ∧
    (LcdCommand c →
      (∀ p, keypadPin p = true → t.pads.at p = s.pads.at p) ∧ t.key = s.key ∧ t.kpReady = s.kpReady ∧
      t.scan = s.scan ∧ t.flags = { s.flags with cfgerr := t.flags.cfgerr }) ∧
    (¬ LcdCommand c → (∀ p, keypadPin p = false → t.pads.at p = s.pads.at p) ∧ t.lcdReady = s.lcdReady)

/-- R31: the line buffer changes only in a step in which an idle block accepts LB_BEGIN or LB_PUT, or in reset. -/
def Obligations.OnlyLbCommandsWriteTheLine : Prop :=
  ∀ s t : State, step s = .next t → t.lb ≠ s.lb →
    (∃ rest, s.inputs = .reset :: rest) ∨
    ∃ w rest, s.cur = none ∧
      (s.inputs = .host (.write 0x0 4 w) :: rest ∨ ∃ ans, s.inputs = .both (.write 0x0 4 w) ans :: rest) ∧
      (decode w = .ok .lbBegin ∨ ∃ c, decode w = .ok (.lbPut c))

/-- R25, R30: KP_READY becomes set only in the step that ends KP_INIT with no configuration rejected in it, and
LCD_READY likewise only for LCD_INIT; clearing CFGERR makes neither ready. -/
def Obligations.ReadyOnlyByASuccessfulInit : Prop :=
  ∀ s t : State, step s = .next t →
    (s.kpReady = false → t.kpReady = true →
      s.cur = some .kpInit ∧ t.cur = none ∧ (s.flags.cfgerr = false → t.flags.cfgerr = false)) ∧
    (s.lcdReady = false → t.lcdReady = true →
      s.cur = some .lcdInit ∧ t.cur = none ∧ (s.flags.cfgerr = false → t.flags.cfgerr = false))

/-- R26: KEY changes only by a key event, by HOST's read of it, which clears VALID alone, or by reset. -/
def Obligations.KeyHasThreeWriters : Prop :=
  ∀ s t : State, step s = .next t → t.key ≠ s.key →
    (∃ rest, s.inputs = .reset :: rest) ∨
    (t.key = { s.key with valid := false } ∧
      ∃ rest, s.inputs = .host (.read 0x8 4) :: rest ∨ ∃ ans, s.inputs = .both (.read 0x8 4) ans :: rest) ∨
    (s.cur = some .kpScan ∧ s.scan.phase = .read ∧ t.key = KeyReg.ofEvent s.params s.scan.i s.scan.j)

/-- R228: a command with an action list always ends: whatever ENV answers, the steps it has left leave the block idle.
The number of steps is the model's (log 5, log 6). -/
def Obligations.ListCommandsEnd : Prop :=
  ∀ (s : State) (c : Instr) (as : List Answer), SequencerInv s → s.cur = some c → c ≠ .kpScan →
    as.length = workLeft s → ∃ t, seqRun as s = .next t ∧ t.cur = none

/-- R74: a wait lasts long enough and less than one clock more: its cycles, at `CLK_HZ`, cover its microseconds; and a
wait that begins loads them, each following step taking one away and changing nothing else until the last. That a wait
takes a step to begin is the model's (log 6). -/
def Obligations.WaitsLastTheirCycles : Prop :=
  (∀ (p : Params) (us : Nat), us * p.clkHz ≤ cycles p us * 1000000 ∧ cycles p us * 1000000 < us * p.clkHz + 1000000) ∧
  (∀ (s : State) (c : Instr) (us : Nat) (rest : List Prim) (ans : Answer) (later : List Input),
    s.cur = some c → c ≠ .kpScan → s.waitLeft = 0 → s.acts = .wait us :: rest → s.inputs = .seq ans :: later →
    rest ≠ [] →
    step s = .next { s with
      inputs := later
      acts := rest
      waitLeft := cycles s.params us
      obs := { s.obs with pins := s.obs.pins ++ [.wait us] } }) ∧
  ∀ (s : State) (c : Instr) (ans : Answer) (later : List Input),
    s.cur = some c → 2 ≤ s.waitLeft → s.inputs = .seq ans :: later →
    step s = .next { s with inputs := later, waitLeft := s.waitLeft - 1 }

/-- No rule of the block reads the observation: two states that differ only there step alike (log 11). -/
def Obligations.ObservationIsNeverRead : Prop :=
  ∀ s s' : State, forget s = forget s' → forgetOutcome (step s) = forgetOutcome (step s')
end

