-- ==== Sys2Proof/Laws/Pads.lean ====
section
/-! SUPPORT. Reading and writing pads: a pin reads what was put in it, and every other pin is left alone. -/

namespace Sys2Proof.Machine

/-- The 14 pins have 14 pads. -/
theorem Pin.index_injective {p q : Pin} (h : p.index = q.index) : p = q := by
  have h' := congrArg Fin.val h
  cases p <;> cases q <;> simp [Pin.index] at h' ⊢ <;> omega

@[simp] theorem Pads.at_put_same (v : Pads) (p : Pin) (x : Pad) : (v.put p x).at p = x := by
  simp [Pads.at, Pads.put]

theorem Pads.at_put_ne (v : Pads) {p q : Pin} (x : Pad) (h : q ≠ p) : (v.put p x).at q = v.at q := by
  have : p.index.val ≠ q.index.val := fun e => h (Pin.index_injective (Fin.ext e.symm))
  simp [Pads.at, Pads.put, Vector.getElem_set_ne, this]

/-- Reading any pin after a write of one. -/
theorem Pads.at_put (v : Pads) (p q : Pin) (x : Pad) : (v.put p x).at q = if q = p then x else v.at q := by
  split
  · subst q; simp
  · exact v.at_put_ne x ‹_›

theorem Pads.at_setDir (v : Pads) (p q : Pin) (d : Dir) :
    (v.setDir p d).at q = if q = p then { v.at p with dir := d } else v.at q := v.at_put p q _

theorem Pads.at_setOut (v : Pads) (p q : Pin) (l : Level) :
    (v.setOut p l).at q = if q = p then { v.at p with out := l } else v.at q := v.at_put p q _

theorem Pads.at_pullUp (v : Pads) (p q : Pin) :
    (v.pullUp p).at q = if q = p then { v.at p with pu := true } else v.at q := v.at_put p q _

/-- Every pad is some pin's. -/
theorem Pin.exists_index (k : Nat) (h : k < 14) : ∃ p : Pin, p.index.val = k := by
  have : ∀ k : Fin 14, ∃ p : Pin, p.index = k := by
    intro k
    match k with
    | 0 => exact ⟨.row 0, rfl⟩
    | 1 => exact ⟨.row 1, rfl⟩
    | 2 => exact ⟨.row 2, rfl⟩
    | 3 => exact ⟨.row 3, rfl⟩
    | 4 => exact ⟨.col 0, rfl⟩
    | 5 => exact ⟨.col 1, rfl⟩
    | 6 => exact ⟨.col 2, rfl⟩
    | 7 => exact ⟨.col 3, rfl⟩
    | 8 => exact ⟨.rs, rfl⟩
    | 9 => exact ⟨.e, rfl⟩
    | 10 => exact ⟨.d4, rfl⟩
    | 11 => exact ⟨.d5, rfl⟩
    | 12 => exact ⟨.d6, rfl⟩
    | 13 => exact ⟨.d7, rfl⟩
  obtain ⟨p, hp⟩ := this ⟨k, h⟩
  exact ⟨p, by rw [hp]⟩

/-- Two pad states that agree at every pin are the same. -/
theorem Pads.ext_at {v w : Pads} (h : ∀ p, v.at p = w.at p) : v = w := by
  apply Vector.ext
  intro k hk
  obtain ⟨p, rfl⟩ := Pin.exists_index k hk
  exact h p

@[simp] theorem Pads.at_reset (p : Pin) : Pads.at (Vector.replicate 14 Pad.reset) p = Pad.reset := by
  simp [Pads.at]

/-- What a pin trace says of the pads, one event further. -/
theorem padsOf_snoc (t : List PinEvent) (ev : PinEvent) : padsOf (t ++ [ev]) = (padsOf t).see ev := by
  simp [padsOf, List.foldl_append]

end Sys2Proof.Machine
end

