-- ==== Sys2Proof/Laws/State.lean ====
section
/-! SUPPORT. What each update of the state leaves in each field, so that no proof unfolds a record update. -/

namespace Sys2Proof.Machine

/-! ### `record` -/

@[simp] theorem State.record_pads (s : State) (ev : PinEvent) : (s.record ev).pads = s.pads := rfl
@[simp] theorem State.record_flags (s : State) (ev : PinEvent) : (s.record ev).flags = s.flags := rfl
@[simp] theorem State.record_key (s : State) (ev : PinEvent) : (s.record ev).key = s.key := rfl
@[simp] theorem State.record_kpReady (s : State) (ev : PinEvent) : (s.record ev).kpReady = s.kpReady := rfl
@[simp] theorem State.record_lcdReady (s : State) (ev : PinEvent) : (s.record ev).lcdReady = s.lcdReady := rfl
@[simp] theorem State.record_lb (s : State) (ev : PinEvent) : (s.record ev).lb = s.lb := rfl
@[simp] theorem State.record_lbIdx (s : State) (ev : PinEvent) : (s.record ev).lbIdx = s.lbIdx := rfl
@[simp] theorem State.record_cur (s : State) (ev : PinEvent) : (s.record ev).cur = s.cur := rfl
@[simp] theorem State.record_acts (s : State) (ev : PinEvent) : (s.record ev).acts = s.acts := rfl
@[simp] theorem State.record_scan (s : State) (ev : PinEvent) : (s.record ev).scan = s.scan := rfl
@[simp] theorem State.record_waitLeft (s : State) (ev : PinEvent) : (s.record ev).waitLeft = s.waitLeft := rfl
@[simp] theorem State.record_params (s : State) (ev : PinEvent) : (s.record ev).params = s.params := rfl
@[simp] theorem State.record_inputs (s : State) (ev : PinEvent) : (s.record ev).inputs = s.inputs := rfl
@[simp] theorem State.record_draws (s : State) (ev : PinEvent) : (s.record ev).draws = s.draws := rfl
@[simp] theorem State.record_obs (s : State) (ev : PinEvent) : (s.record ev).obs = { s.obs with pins := s.obs.pins ++ [ev] } := rfl

/-! ### `raise` -/

@[simp] theorem State.raise_pads (s : State) (c : ErrCause) : (s.raise c).pads = s.pads := rfl
@[simp] theorem State.raise_flags (s : State) (c : ErrCause) : (s.raise c).flags = s.flags.set c := rfl
@[simp] theorem State.raise_key (s : State) (c : ErrCause) : (s.raise c).key = s.key := rfl
@[simp] theorem State.raise_kpReady (s : State) (c : ErrCause) : (s.raise c).kpReady = s.kpReady := rfl
@[simp] theorem State.raise_lcdReady (s : State) (c : ErrCause) : (s.raise c).lcdReady = s.lcdReady := rfl
@[simp] theorem State.raise_lb (s : State) (c : ErrCause) : (s.raise c).lb = s.lb := rfl
@[simp] theorem State.raise_lbIdx (s : State) (c : ErrCause) : (s.raise c).lbIdx = s.lbIdx := rfl
@[simp] theorem State.raise_cur (s : State) (c : ErrCause) : (s.raise c).cur = s.cur := rfl
@[simp] theorem State.raise_acts (s : State) (c : ErrCause) : (s.raise c).acts = s.acts := rfl
@[simp] theorem State.raise_scan (s : State) (c : ErrCause) : (s.raise c).scan = s.scan := rfl
@[simp] theorem State.raise_waitLeft (s : State) (c : ErrCause) : (s.raise c).waitLeft = s.waitLeft := rfl
@[simp] theorem State.raise_params (s : State) (c : ErrCause) : (s.raise c).params = s.params := rfl
@[simp] theorem State.raise_inputs (s : State) (c : ErrCause) : (s.raise c).inputs = s.inputs := rfl
@[simp] theorem State.raise_draws (s : State) (c : ErrCause) : (s.raise c).draws = s.draws := rfl
@[simp] theorem State.raise_obs (s : State) (c : ErrCause) : (s.raise c).obs = s.obs := rfl

/-! ### `configRejected` -/

@[simp] theorem State.configRejected_pads (s : State) : (s.configRejected).pads = s.pads := rfl
@[simp] theorem State.configRejected_flags (s : State) : (s.configRejected).flags = s.flags.set .cfgerr := rfl
@[simp] theorem State.configRejected_key (s : State) : (s.configRejected).key = s.key := rfl
@[simp] theorem State.configRejected_kpReady (s : State) : (s.configRejected).kpReady = s.kpReady := rfl
@[simp] theorem State.configRejected_lcdReady (s : State) : (s.configRejected).lcdReady = s.lcdReady := rfl
@[simp] theorem State.configRejected_lb (s : State) : (s.configRejected).lb = s.lb := rfl
@[simp] theorem State.configRejected_lbIdx (s : State) : (s.configRejected).lbIdx = s.lbIdx := rfl
@[simp] theorem State.configRejected_cur (s : State) : (s.configRejected).cur = none := rfl
@[simp] theorem State.configRejected_acts (s : State) : (s.configRejected).acts = [] := rfl
@[simp] theorem State.configRejected_scan (s : State) : (s.configRejected).scan = s.scan := rfl
@[simp] theorem State.configRejected_waitLeft (s : State) : (s.configRejected).waitLeft = s.waitLeft := rfl
@[simp] theorem State.configRejected_params (s : State) : (s.configRejected).params = s.params := rfl
@[simp] theorem State.configRejected_inputs (s : State) : (s.configRejected).inputs = s.inputs := rfl
@[simp] theorem State.configRejected_draws (s : State) : (s.configRejected).draws = s.draws := rfl
@[simp] theorem State.configRejected_obs (s : State) : (s.configRejected).obs = s.obs := rfl

/-! ### `start` -/

@[simp] theorem State.start_pads (s : State) (i : Instr) (as : List Prim) : (s.start i as).pads = s.pads := rfl
@[simp] theorem State.start_flags (s : State) (i : Instr) (as : List Prim) : (s.start i as).flags = s.flags := rfl
@[simp] theorem State.start_key (s : State) (i : Instr) (as : List Prim) : (s.start i as).key = s.key := rfl
@[simp] theorem State.start_kpReady (s : State) (i : Instr) (as : List Prim) : (s.start i as).kpReady = s.kpReady := rfl
@[simp] theorem State.start_lcdReady (s : State) (i : Instr) (as : List Prim) : (s.start i as).lcdReady = s.lcdReady := rfl
@[simp] theorem State.start_lb (s : State) (i : Instr) (as : List Prim) : (s.start i as).lb = s.lb := rfl
@[simp] theorem State.start_lbIdx (s : State) (i : Instr) (as : List Prim) : (s.start i as).lbIdx = s.lbIdx := rfl
@[simp] theorem State.start_cur (s : State) (i : Instr) (as : List Prim) : (s.start i as).cur = some i := rfl
@[simp] theorem State.start_acts (s : State) (i : Instr) (as : List Prim) : (s.start i as).acts = as := rfl
@[simp] theorem State.start_scan (s : State) (i : Instr) (as : List Prim) : (s.start i as).scan = s.scan := rfl
@[simp] theorem State.start_waitLeft (s : State) (i : Instr) (as : List Prim) : (s.start i as).waitLeft = s.waitLeft := rfl
@[simp] theorem State.start_params (s : State) (i : Instr) (as : List Prim) : (s.start i as).params = s.params := rfl
@[simp] theorem State.start_inputs (s : State) (i : Instr) (as : List Prim) : (s.start i as).inputs = s.inputs := rfl
@[simp] theorem State.start_draws (s : State) (i : Instr) (as : List Prim) : (s.start i as).draws = s.draws := rfl
@[simp] theorem State.start_obs (s : State) (i : Instr) (as : List Prim) : (s.start i as).obs = s.obs := rfl

/-! ### `lineBegin` -/

@[simp] theorem State.lineBegin_pads (s : State) : (s.lineBegin).pads = s.pads := rfl
@[simp] theorem State.lineBegin_flags (s : State) : (s.lineBegin).flags = s.flags := rfl
@[simp] theorem State.lineBegin_key (s : State) : (s.lineBegin).key = s.key := rfl
@[simp] theorem State.lineBegin_kpReady (s : State) : (s.lineBegin).kpReady = s.kpReady := rfl
@[simp] theorem State.lineBegin_lcdReady (s : State) : (s.lineBegin).lcdReady = s.lcdReady := rfl
@[simp] theorem State.lineBegin_lb (s : State) : (s.lineBegin).lb = Vector.replicate 16 spaceByte := rfl
@[simp] theorem State.lineBegin_lbIdx (s : State) : (s.lineBegin).lbIdx = 0 := rfl
@[simp] theorem State.lineBegin_cur (s : State) : (s.lineBegin).cur = s.cur := rfl
@[simp] theorem State.lineBegin_acts (s : State) : (s.lineBegin).acts = s.acts := rfl
@[simp] theorem State.lineBegin_scan (s : State) : (s.lineBegin).scan = s.scan := rfl
@[simp] theorem State.lineBegin_waitLeft (s : State) : (s.lineBegin).waitLeft = s.waitLeft := rfl
@[simp] theorem State.lineBegin_params (s : State) : (s.lineBegin).params = s.params := rfl
@[simp] theorem State.lineBegin_inputs (s : State) : (s.lineBegin).inputs = s.inputs := rfl
@[simp] theorem State.lineBegin_draws (s : State) : (s.lineBegin).draws = s.draws := rfl
@[simp] theorem State.lineBegin_obs (s : State) : (s.lineBegin).obs = s.obs := rfl

/-! ### `submitNext` -/

@[simp] theorem State.submitNext_pads (s : State) (w : Word) : (s.submitNext w).pads = s.pads := rfl
@[simp] theorem State.submitNext_flags (s : State) (w : Word) : (s.submitNext w).flags = s.flags := rfl
@[simp] theorem State.submitNext_key (s : State) (w : Word) : (s.submitNext w).key = s.key := rfl
@[simp] theorem State.submitNext_kpReady (s : State) (w : Word) : (s.submitNext w).kpReady = s.kpReady := rfl
@[simp] theorem State.submitNext_lcdReady (s : State) (w : Word) : (s.submitNext w).lcdReady = s.lcdReady := rfl
@[simp] theorem State.submitNext_lb (s : State) (w : Word) : (s.submitNext w).lb = s.lb := rfl
@[simp] theorem State.submitNext_lbIdx (s : State) (w : Word) : (s.submitNext w).lbIdx = s.lbIdx := rfl
@[simp] theorem State.submitNext_cur (s : State) (w : Word) : (s.submitNext w).cur = s.cur := rfl
@[simp] theorem State.submitNext_acts (s : State) (w : Word) : (s.submitNext w).acts = s.acts := rfl
@[simp] theorem State.submitNext_scan (s : State) (w : Word) : (s.submitNext w).scan = s.scan := rfl
@[simp] theorem State.submitNext_waitLeft (s : State) (w : Word) : (s.submitNext w).waitLeft = s.waitLeft := rfl
@[simp] theorem State.submitNext_params (s : State) (w : Word) : (s.submitNext w).params = s.params := rfl
@[simp] theorem State.submitNext_inputs (s : State) (w : Word) : (s.submitNext w).inputs = .host (.write 0x0 4 w) :: s.inputs := rfl
@[simp] theorem State.submitNext_draws (s : State) (w : Word) : (s.submitNext w).draws = s.draws := rfl
@[simp] theorem State.submitNext_obs (s : State) (w : Word) : (s.submitNext w).obs = s.obs := rfl

/-! ### `resetNow` -/

@[simp] theorem State.resetNow_pads (s : State) : (s.resetNow).pads = Vector.replicate 14 Pad.reset := rfl
@[simp] theorem State.resetNow_flags (s : State) : (s.resetNow).flags = ⟨false, false, false, false, false⟩ := rfl
@[simp] theorem State.resetNow_key (s : State) : (s.resetNow).key = ⟨false, 0, 0, 0⟩ := rfl
@[simp] theorem State.resetNow_kpReady (s : State) : (s.resetNow).kpReady = false := rfl
@[simp] theorem State.resetNow_lcdReady (s : State) : (s.resetNow).lcdReady = false := rfl
@[simp] theorem State.resetNow_lb (s : State) : (s.resetNow).lb = Vector.replicate 16 0x20 := rfl
@[simp] theorem State.resetNow_lbIdx (s : State) : (s.resetNow).lbIdx = 0 := rfl
@[simp] theorem State.resetNow_cur (s : State) : (s.resetNow).cur = none := rfl
@[simp] theorem State.resetNow_acts (s : State) : (s.resetNow).acts = [] := rfl
@[simp] theorem State.resetNow_scan (s : State) : (s.resetNow).scan = Scan.start := rfl
@[simp] theorem State.resetNow_waitLeft (s : State) : (s.resetNow).waitLeft = 0 := rfl
@[simp] theorem State.resetNow_params (s : State) : (s.resetNow).params = s.params := rfl
@[simp] theorem State.resetNow_inputs (s : State) : (s.resetNow).inputs = s.inputs := rfl
@[simp] theorem State.resetNow_draws (s : State) : (s.resetNow).draws = s.draws := rfl
@[simp] theorem State.resetNow_obs (s : State) : (s.resetNow).obs = { s.obs with pins := s.obs.pins ++ [.reset] } := rfl

/-! ### `complete`: the ready flags depend on the command that ends -/

@[simp] theorem State.complete_pads (s : State) : s.complete.pads = s.pads := by
  unfold State.complete; split <;> rfl
@[simp] theorem State.complete_flags (s : State) : s.complete.flags = s.flags := by
  unfold State.complete; split <;> rfl
@[simp] theorem State.complete_key (s : State) : s.complete.key = s.key := by
  unfold State.complete; split <;> rfl
@[simp] theorem State.complete_lb (s : State) : s.complete.lb = s.lb := by
  unfold State.complete; split <;> rfl
@[simp] theorem State.complete_lbIdx (s : State) : s.complete.lbIdx = s.lbIdx := by
  unfold State.complete; split <;> rfl
@[simp] theorem State.complete_cur (s : State) : s.complete.cur = none := by
  unfold State.complete; split <;> rfl
@[simp] theorem State.complete_acts (s : State) : s.complete.acts = s.acts := by
  unfold State.complete; split <;> rfl
@[simp] theorem State.complete_scan (s : State) : s.complete.scan = s.scan := by
  unfold State.complete; split <;> rfl
@[simp] theorem State.complete_waitLeft (s : State) : s.complete.waitLeft = s.waitLeft := by
  unfold State.complete; split <;> rfl
@[simp] theorem State.complete_params (s : State) : s.complete.params = s.params := by
  unfold State.complete; split <;> rfl
@[simp] theorem State.complete_inputs (s : State) : s.complete.inputs = s.inputs := by
  unfold State.complete; split <;> rfl
@[simp] theorem State.complete_draws (s : State) : s.complete.draws = s.draws := by
  unfold State.complete; split <;> rfl
@[simp] theorem State.complete_obs (s : State) : s.complete.obs = s.obs := by
  unfold State.complete; split <;> rfl

@[simp] theorem State.complete_kpReady (s : State) :
    s.complete.kpReady = (decide (s.cur = some .kpInit) || s.kpReady) := by
  unfold State.complete; split <;> simp_all

@[simp] theorem State.complete_lcdReady (s : State) :
    s.complete.lcdReady = (decide (s.cur = some .lcdInit) || s.lcdReady) := by
  unfold State.complete; split <;> simp_all

/-! ### `completeIfDone`: only CUR and the ready flags can change -/

@[simp] theorem State.completeIfDone_pads (s : State) : s.completeIfDone.pads = s.pads := by
  unfold State.completeIfDone; split <;> simp
@[simp] theorem State.completeIfDone_flags (s : State) : s.completeIfDone.flags = s.flags := by
  unfold State.completeIfDone; split <;> simp
@[simp] theorem State.completeIfDone_key (s : State) : s.completeIfDone.key = s.key := by
  unfold State.completeIfDone; split <;> simp
@[simp] theorem State.completeIfDone_lb (s : State) : s.completeIfDone.lb = s.lb := by
  unfold State.completeIfDone; split <;> simp
@[simp] theorem State.completeIfDone_lbIdx (s : State) : s.completeIfDone.lbIdx = s.lbIdx := by
  unfold State.completeIfDone; split <;> simp
@[simp] theorem State.completeIfDone_acts (s : State) : s.completeIfDone.acts = s.acts := by
  unfold State.completeIfDone; split <;> simp
@[simp] theorem State.completeIfDone_scan (s : State) : s.completeIfDone.scan = s.scan := by
  unfold State.completeIfDone; split <;> simp
@[simp] theorem State.completeIfDone_waitLeft (s : State) : s.completeIfDone.waitLeft = s.waitLeft := by
  unfold State.completeIfDone; split <;> simp
@[simp] theorem State.completeIfDone_params (s : State) : s.completeIfDone.params = s.params := by
  unfold State.completeIfDone; split <;> simp
@[simp] theorem State.completeIfDone_inputs (s : State) : s.completeIfDone.inputs = s.inputs := by
  unfold State.completeIfDone; split <;> simp
@[simp] theorem State.completeIfDone_draws (s : State) : s.completeIfDone.draws = s.draws := by
  unfold State.completeIfDone; split <;> simp
@[simp] theorem State.completeIfDone_obs (s : State) : s.completeIfDone.obs = s.obs := by
  unfold State.completeIfDone; split <;> simp

/-! ### `keyEvent` -/

@[simp] theorem State.keyEvent_pads (s : State) (i j : Fin 4) : (s.keyEvent i j).pads = s.pads := by
  unfold State.keyEvent; split <;> rfl
@[simp] theorem State.keyEvent_kpReady (s : State) (i j : Fin 4) : (s.keyEvent i j).kpReady = s.kpReady := by
  unfold State.keyEvent; split <;> rfl
@[simp] theorem State.keyEvent_lcdReady (s : State) (i j : Fin 4) : (s.keyEvent i j).lcdReady = s.lcdReady := by
  unfold State.keyEvent; split <;> rfl
@[simp] theorem State.keyEvent_lb (s : State) (i j : Fin 4) : (s.keyEvent i j).lb = s.lb := by
  unfold State.keyEvent; split <;> rfl
@[simp] theorem State.keyEvent_lbIdx (s : State) (i j : Fin 4) : (s.keyEvent i j).lbIdx = s.lbIdx := by
  unfold State.keyEvent; split <;> rfl
@[simp] theorem State.keyEvent_cur (s : State) (i j : Fin 4) : (s.keyEvent i j).cur = s.cur := by
  unfold State.keyEvent; split <;> rfl
@[simp] theorem State.keyEvent_acts (s : State) (i j : Fin 4) : (s.keyEvent i j).acts = s.acts := by
  unfold State.keyEvent; split <;> rfl
@[simp] theorem State.keyEvent_scan (s : State) (i j : Fin 4) : (s.keyEvent i j).scan = s.scan := by
  unfold State.keyEvent; split <;> rfl
@[simp] theorem State.keyEvent_waitLeft (s : State) (i j : Fin 4) : (s.keyEvent i j).waitLeft = s.waitLeft := by
  unfold State.keyEvent; split <;> rfl
@[simp] theorem State.keyEvent_params (s : State) (i j : Fin 4) : (s.keyEvent i j).params = s.params := by
  unfold State.keyEvent; split <;> rfl
@[simp] theorem State.keyEvent_inputs (s : State) (i j : Fin 4) : (s.keyEvent i j).inputs = s.inputs := by
  unfold State.keyEvent; split <;> rfl
@[simp] theorem State.keyEvent_draws (s : State) (i j : Fin 4) : (s.keyEvent i j).draws = s.draws := by
  unfold State.keyEvent; split <;> rfl

@[simp] theorem State.keyEvent_key (s : State) (i j : Fin 4) :
    (s.keyEvent i j).key = KeyReg.ofEvent s.params i j := by
  unfold State.keyEvent; split <;> rfl

@[simp] theorem State.keyEvent_flags (s : State) (i j : Fin 4) :
    (s.keyEvent i j).flags = { s.flags with kovr := s.flags.kovr || s.key.valid } := by
  unfold State.keyEvent; split <;> simp_all [Flags.set]

@[simp] theorem State.keyEvent_obs (s : State) (i j : Fin 4) :
    (s.keyEvent i j).obs =
      { s.obs with keys := s.obs.keys ++ [⟨i, j, symbolCode (keyAt s.params i j)⟩] } := by
  unfold State.keyEvent; split <;> rfl

/-! ### `linePut` -/

@[simp] theorem State.linePut_pads (s : State) (c : Byte) : (s.linePut c).pads = s.pads := by
  unfold State.linePut; split <;> rfl
@[simp] theorem State.linePut_flags (s : State) (c : Byte) : (s.linePut c).flags = s.flags := by
  unfold State.linePut; split <;> rfl
@[simp] theorem State.linePut_key (s : State) (c : Byte) : (s.linePut c).key = s.key := by
  unfold State.linePut; split <;> rfl
@[simp] theorem State.linePut_kpReady (s : State) (c : Byte) : (s.linePut c).kpReady = s.kpReady := by
  unfold State.linePut; split <;> rfl
@[simp] theorem State.linePut_lcdReady (s : State) (c : Byte) : (s.linePut c).lcdReady = s.lcdReady := by
  unfold State.linePut; split <;> rfl
@[simp] theorem State.linePut_cur (s : State) (c : Byte) : (s.linePut c).cur = s.cur := by
  unfold State.linePut; split <;> rfl
@[simp] theorem State.linePut_acts (s : State) (c : Byte) : (s.linePut c).acts = s.acts := by
  unfold State.linePut; split <;> rfl
@[simp] theorem State.linePut_scan (s : State) (c : Byte) : (s.linePut c).scan = s.scan := by
  unfold State.linePut; split <;> rfl
@[simp] theorem State.linePut_waitLeft (s : State) (c : Byte) : (s.linePut c).waitLeft = s.waitLeft := by
  unfold State.linePut; split <;> rfl
@[simp] theorem State.linePut_params (s : State) (c : Byte) : (s.linePut c).params = s.params := by
  unfold State.linePut; split <;> rfl
@[simp] theorem State.linePut_inputs (s : State) (c : Byte) : (s.linePut c).inputs = s.inputs := by
  unfold State.linePut; split <;> rfl
@[simp] theorem State.linePut_draws (s : State) (c : Byte) : (s.linePut c).draws = s.draws := by
  unfold State.linePut; split <;> rfl
@[simp] theorem State.linePut_obs (s : State) (c : Byte) : (s.linePut c).obs = s.obs := by
  unfold State.linePut; split <;> rfl

/-- LB_PUT before the 16th character stores it and counts it (R181). -/
theorem State.linePut_of_lt (s : State) (c : Byte) (h : s.lbIdx.val < 16) :
    s.linePut c = { s with lb := s.lb.set s.lbIdx.val c, lbIdx := ⟨s.lbIdx.val + 1, by omega⟩ } := by
  simp [State.linePut, h]

/-- LB_PUT after the 16th character changes nothing (R181). -/
theorem State.linePut_of_full (s : State) (c : Byte) (h : ¬ s.lbIdx.val < 16) : s.linePut c = s := by
  simp [State.linePut, h]

/-! ### Flags -/

@[simp] theorem State.busy_iff (s : State) : s.busy = true ↔ s.cur ≠ none := by
  simp [State.busy, Option.isSome_iff_ne_none]

@[simp] theorem Flags.set_ill (f : Flags) : f.set .ill = { f with ill := true } := rfl
@[simp] theorem Flags.set_ovr (f : Flags) : f.set .ovr = { f with ovr := true } := rfl
@[simp] theorem Flags.set_notinit (f : Flags) : f.set .notinit = { f with notinit := true } := rfl
@[simp] theorem Flags.set_cfgerr (f : Flags) : f.set .cfgerr = { f with cfgerr := true } := rfl
@[simp] theorem Flags.set_kovr (f : Flags) : f.set .kovr = { f with kovr := true } := rfl

end Sys2Proof.Machine
end

