-- ==== Sys2Proof/Laws/Step.lean ====
section
/-! SUPPORT. What a step can do, said once: acceptance, HOST's accesses, SEQ's turn, the step. -/

namespace Sys2Proof.Machine

/-! ## Acceptance -/

theorem submit_busy (ready : Bool) (f : State → State) {s : State} (h : s.cur ≠ none) :
    submit ready f s = .next (s.raise .ovr) := by
  simp [submit, h]

theorem submit_ready (f : State → State) {s : State} (h : s.cur = none) : submit true f s = .next (f s) := by
  simp [submit, h]

theorem submit_unready (f : State → State) {s : State} (h : s.cur = none) :
    submit false f s = .next (s.raise .notinit) := by
  simp [submit, h]

/-- Acceptance answers one of three next states (R200, R218). -/
theorem submit_cases {ready : Bool} {f : State → State} {s : State} {o : Host.Outcome State Fault Refusal}
    (h : submit ready f s = o) :
    (s.cur ≠ none ∧ o = .next (s.raise .ovr)) ∨
    (s.cur = none ∧ ready = true ∧ o = .next (f s)) ∨
    (s.cur = none ∧ ready = false ∧ o = .next (s.raise .notinit)) := by
  subst h
  by_cases hc : s.cur = none
  · cases ready
    · exact .inr (.inr ⟨hc, rfl, submit_unready f hc⟩)
    · exact .inr (.inl ⟨hc, rfl, submit_ready f hc⟩)
  · exact .inl ⟨hc, submit_busy ready f hc⟩

/-- Whether the unit a command needs is ready (R200). -/
def unitReady (i : Instr) (s : State) : Bool :=
  match i with
  | .kpScan => s.kpReady
  | .lcdCmd _ => s.lcdReady
  | .lcdData _ => s.lcdReady
  | .lcdWriteLine _ => s.lcdReady
  | .nop => true
  | .kpInit => true
  | .lcdInit => true
  | .lbBegin => true
  | .lbPut _ => true

/-- The state an accepted command leaves in its accepting step (R200). -/
def accepted (i : Instr) (s : State) : State :=
  match i with
  | .nop => s
  | .kpInit => { s.start .kpInit kpInitActs with kpReady := false }
  | .kpScan => { s with scan := Scan.start, cur := some .kpScan }
  | .lcdInit => { s.start .lcdInit (lcdInitActs s.params) with lcdReady := false }
  | .lcdCmd v => s.start (.lcdCmd v) (sendActs s.params v false)
  | .lcdData v => s.start (.lcdData v) (sendActs s.params v true)
  | .lbBegin => s.lineBegin
  | .lbPut c => s.linePut c
  | .lcdWriteLine l => s.start (.lcdWriteLine l) (lineActs s.params l s.lb)

/-- Every command is one acceptance. -/
theorem exec_eq_submit (i : Instr) (s : State) : exec i s = submit (unitReady i s) (accepted i) s := by
  cases i <;> rfl

theorem exec_busy (i : Instr) {s : State} (h : s.cur ≠ none) : exec i s = .next (s.raise .ovr) := by
  rw [exec_eq_submit, submit_busy _ _ h]

theorem exec_ready {i : Instr} {s : State} (h : s.cur = none) (hr : unitReady i s = true) :
    exec i s = .next (accepted i s) := by
  rw [exec_eq_submit, hr, submit_ready _ h]

theorem exec_unready {i : Instr} {s : State} (h : s.cur = none) (hr : unitReady i s = false) :
    exec i s = .next (s.raise .notinit) := by
  rw [exec_eq_submit, hr, submit_unready _ h]

/-- A command answers one of three next states. -/
theorem exec_cases {i : Instr} {s : State} {o : Host.Outcome State Fault Refusal} (h : exec i s = o) :
    (s.cur ≠ none ∧ o = .next (s.raise .ovr)) ∨
    (s.cur = none ∧ unitReady i s = true ∧ o = .next (accepted i s)) ∨
    (s.cur = none ∧ unitReady i s = false ∧ o = .next (s.raise .notinit)) :=
  submit_cases ((exec_eq_submit i s).symm.trans h)

/-! ## HOST's accesses -/

/-- A CMD write answers one of four next states (R200, R218). -/
theorem acceptWord_cases {w : Word} {s : State} {o : Host.Outcome State Fault Refusal} (h : acceptWord w s = o) :
    (s.cur ≠ none ∧ o = .next (s.raise .ovr)) ∨
    (s.cur = none ∧ (∃ e, decode w = .error e) ∧ o = .next (s.raise .ill)) ∨
    (∃ i, s.cur = none ∧ decode w = .ok i ∧ unitReady i s = true ∧ o = .next (accepted i s)) ∨
    (∃ i, s.cur = none ∧ decode w = .ok i ∧ unitReady i s = false ∧ o = .next (s.raise .notinit)) := by
  subst h
  by_cases hc : s.cur = none
  · cases hd : decode w with
    | error e => exact .inr (.inl ⟨hc, ⟨e, rfl⟩, by simp [acceptWord, hc, hd]⟩)
    | ok i =>
      have he : acceptWord w s = exec i s := by simp [acceptWord, hc, hd]
      cases hr : unitReady i s
      · exact .inr (.inr (.inr ⟨i, hc, rfl, hr, by rw [he, exec_unready hc hr]⟩))
      · exact .inr (.inr (.inl ⟨i, hc, rfl, hr, by rw [he, exec_ready hc hr]⟩))
  · exact .inl ⟨hc, by simp [acceptWord, hc]⟩

/-- An admitted access is four bytes wide at a multiple of four (R61). -/
theorem accessAdmitted_iff (off : Offset) (bytes : Nat) :
    accessAdmitted off bytes = true ↔ bytes = 4 ∧ off.toNat % 4 = 0 := by
  simp [accessAdmitted]

/-- The offset of an access, its width, and what it does (R61, R63, R64): a read, a CMD write, a STATUS write, or a write
that is ignored; an access not admitted is refused. -/
theorem hostStep_cases {a : HostAccess} {s : State} {o : Host.Outcome State Fault Refusal} (h : hostStep a s = o) :
    (∃ off, a = .read off 4 ∧ o = .next (hostRead off s)) ∨
    (∃ w, a = .write 0x0 4 w ∧ o = acceptWord w s) ∨
    (∃ v, a = .write 0x4 4 v ∧ o = .next { s with flags := s.flags.clearedBy v }) ∨
    (∃ off v, a = .write off 4 v ∧ off ≠ 0x0 ∧ off ≠ 0x4 ∧ o = .next s) ∨
    (∃ off bytes, (a = .read off bytes ∨ ∃ v, a = .write off bytes v) ∧ (bytes ≠ 4 ∨ off.toNat % 4 ≠ 0) ∧
      o = .refused (.accessNotAdmitted off bytes)) := by
  subst h
  cases a with
  | read off bytes =>
    by_cases ha : accessAdmitted off bytes = true
    · obtain ⟨rfl, -⟩ := (accessAdmitted_iff off bytes).1 ha
      exact .inl ⟨off, rfl, by rw [hostStep, if_pos ha]⟩
    · refine .inr (.inr (.inr (.inr ⟨off, bytes, .inl rfl, ?_, by simp [hostStep, ha]⟩)))
      rw [accessAdmitted_iff] at ha
      tauto
  | write off bytes v =>
    by_cases ha : accessAdmitted off bytes = true
    · obtain ⟨rfl, -⟩ := (accessAdmitted_iff off bytes).1 ha
      by_cases h0 : off = 0x0
      · subst h0
        exact .inr (.inl ⟨v, rfl, by rw [hostStep, if_pos ha]; rfl⟩)
      · by_cases h4 : off = 0x4
        · subst h4
          exact .inr (.inr (.inl ⟨v, rfl, by rw [hostStep, if_pos ha]; rfl⟩))
        · refine .inr (.inr (.inr (.inl ⟨off, v, rfl, h0, h4, ?_⟩)))
          have h0' : off.toNat ≠ 0 := fun e => h0 (BitVec.eq_of_toNat_eq (by simpa using e))
          have h4' : off.toNat ≠ 4 := fun e => h4 (BitVec.eq_of_toNat_eq (by simpa using e))
          rw [hostStep, if_pos ha, hostWrite]
          split <;> simp_all
    · refine .inr (.inr (.inr (.inr ⟨off, bytes, .inr ⟨v, rfl⟩, ?_, by simp [hostStep, ha]⟩)))
      rw [accessAdmitted_iff] at ha
      tauto

/-- A read of any register but KEY only joins the observation (R63). -/
theorem hostRead_of_ne (s : State) {off : Offset} (h : off ≠ 0x8) :
    hostRead off s = { s with obs := { s.obs with reads := s.obs.reads ++ [⟨off, peek s off⟩] } } := by
  unfold hostRead
  simp only [if_neg h]

/-- A read of KEY consumes the event (R27). -/
theorem hostRead_key (s : State) :
    hostRead 0x8 s = { s with
      key := s.key.consumed
      obs := { s.obs with reads := s.obs.reads ++ [⟨0x8, s.key.word⟩] } } := by
  simp [hostRead, peek]

/-- A property that raising an acceptance error, accepting a command, reading a register and writing the flags keep is
kept by every access of HOST. -/
theorem hostStep_keeps {P : State → Prop}
    (raise : ∀ s c, P s → c = .ovr ∨ c = .ill ∨ c = .notinit → P (s.raise c))
    (accept : ∀ i s, P s → s.cur = none → unitReady i s = true → P (accepted i s))
    (read : ∀ s k o, P s → P { s with key := k, obs := { s.obs with reads := o } })
    (clear : ∀ s f, P s → P { s with flags := f }) :
    ∀ a s t, P s → hostStep a s = .next t → P t := by
  intro a s t hs h
  rcases hostStep_cases h with ⟨off, _, e⟩ | ⟨w, _, e⟩ | ⟨v, _, e⟩ | ⟨_, _, _, _, _, e⟩ | ⟨_, _, _, _, e⟩
  · injection e with e
    subst e
    unfold hostRead
    dsimp only
    split
    · exact read _ _ _ hs
    · exact read s s.key _ hs
  · rcases acceptWord_cases e.symm with ⟨_, e⟩ | ⟨_, _, e⟩ | ⟨i, hc, _, hr, e⟩ | ⟨_, _, _, _, e⟩ <;>
      (injection e with e; subst e)
    · exact raise _ _ hs (by simp)
    · exact raise _ _ hs (by simp)
    · exact accept _ _ hs hc hr
    · exact raise _ _ hs (by simp)
  · injection e with e
    subst e
    exact clear _ _ hs
  · injection e with e
    subst e
    exact hs
  · cases e

/-! ## SEQ's turn -/

theorem seqStep_idle (a : Answer) {s : State} (h : s.cur = none) : seqStep a s = s := by
  simp [seqStep, h]

theorem seqStep_wait (a : Answer) {s : State} {c : Instr} (h : s.cur = some c) (hw : s.waitLeft ≠ 0) :
    seqStep a s = waitCycle s := by
  simp [seqStep, h, hw]

theorem seqStep_scan (a : Answer) {s : State} (h : s.cur = some .kpScan) (hw : s.waitLeft = 0) :
    seqStep a s = scanStep a s := by
  simp [seqStep, h, hw]

theorem seqStep_list (a : Answer) {s : State} {c : Instr} {x : Prim} {rest : List Prim} (h : s.cur = some c)
    (hc : c ≠ .kpScan) (hw : s.waitLeft = 0) (hl : s.acts = x :: rest) :
    seqStep a s = perform x a { s with acts := rest } := by
  simp [seqStep, h, hw, hc, hl]

theorem seqStep_empty (a : Answer) {s : State} {c : Instr} (h : s.cur = some c) (hc : c ≠ .kpScan)
    (hw : s.waitLeft = 0) (hl : s.acts = []) : seqStep a s = s.complete := by
  simp [seqStep, h, hw, hc, hl]

/-- SEQ's turn is one of: nothing on an idle block; a cycle of a wait; a primitive of a scan pass; the head of the list
(or, in a state no run reaches, the end of an empty list). -/
theorem seqStep_cases (a : Answer) (s : State) :
    (s.cur = none ∧ seqStep a s = s) ∨
    (∃ c, s.cur = some c ∧ s.waitLeft ≠ 0 ∧ seqStep a s = waitCycle s) ∨
    (s.cur = some .kpScan ∧ s.waitLeft = 0 ∧ seqStep a s = scanStep a s) ∨
    (∃ c x rest, s.cur = some c ∧ c ≠ .kpScan ∧ s.waitLeft = 0 ∧ s.acts = x :: rest ∧
      seqStep a s = perform x a { s with acts := rest }) ∨
    (∃ c, s.cur = some c ∧ c ≠ .kpScan ∧ s.waitLeft = 0 ∧ s.acts = [] ∧ seqStep a s = s.complete) := by
  rcases Option.eq_none_or_eq_some s.cur with hc | ⟨c, hc⟩
  · exact .inl ⟨hc, seqStep_idle a hc⟩
  · by_cases hw : s.waitLeft = 0
    · by_cases hk : c = .kpScan
      · subst hk
        exact .inr (.inr (.inl ⟨hc, hw, seqStep_scan a hc hw⟩))
      · by_cases hl : s.acts = []
        · exact .inr (.inr (.inr (.inr ⟨c, hc, hk, hw, hl, seqStep_empty a hc hk hw hl⟩)))
        · obtain ⟨x, rest, hl⟩ := List.exists_cons_of_ne_nil hl
          exact .inr (.inr (.inr (.inl ⟨c, x, rest, hc, hk, hw, hl, seqStep_list a hc hk hw hl⟩)))
    · exact .inr (.inl ⟨c, hc, hw, seqStep_wait a hc hw⟩)

/-- A low read in a pass (R125). -/
theorem seqStep_low_read {s : State} {ans : Answer} (hc : s.cur = some .kpScan) (hw : s.waitLeft = 0)
    (hp : s.scan.phase = .read) (hl : ans.level = false) :
    seqStep ans s = { s with
      key := KeyReg.ofEvent s.params s.scan.i s.scan.j
      flags := { s.flags with kovr := s.flags.kovr || s.key.valid }
      scan := { s.scan with phase := .release, hit := true }
      obs :=
        { s.obs with
          pins := s.obs.pins ++ [.read (.row s.scan.i) false]
          keys := s.obs.keys ++ [⟨s.scan.i, s.scan.j, symbolCode (keyAt s.params s.scan.i s.scan.j)⟩] } } := by
  rw [seqStep_scan ans hc hw, scanStep, hp]
  simp only [scanRead, hl]
  unfold State.keyEvent
  cases hv : s.key.valid <;> simp [State.record, State.raise, Flags.set, hv]

theorem listDone_iff (s : State) : s.listDone = true ↔ s.cur ≠ some .kpScan ∧ s.acts = [] ∧ s.waitLeft = 0 := by
  simp [State.listDone, and_assoc]

theorem completeIfDone_of_done {s : State} (hc : s.cur ≠ some .kpScan) (ha : s.acts = []) (hw : s.waitLeft = 0) :
    s.completeIfDone = s.complete := by
  rw [State.completeIfDone, if_pos ((listDone_iff s).2 ⟨hc, ha, hw⟩)]

theorem completeIfDone_of_more {s : State} (h : s.cur = some .kpScan ∨ s.acts ≠ [] ∨ s.waitLeft ≠ 0) :
    s.completeIfDone = s := by
  rw [State.completeIfDone, if_neg]
  rw [listDone_iff]
  tauto

/-- What `completeIfDone` can do. -/
theorem completeIfDone_cases (s : State) :
    (s.cur ≠ some .kpScan ∧ s.acts = [] ∧ s.waitLeft = 0 ∧ s.completeIfDone = s.complete) ∨
    ((s.cur = some .kpScan ∨ s.acts ≠ [] ∨ s.waitLeft ≠ 0) ∧ s.completeIfDone = s) := by
  by_cases h : s.cur ≠ some .kpScan ∧ s.acts = [] ∧ s.waitLeft = 0
  · exact .inl ⟨h.1, h.2.1, h.2.2, completeIfDone_of_done h.1 h.2.1 h.2.2⟩
  · refine .inr ⟨by tauto, completeIfDone_of_more (by tauto)⟩

/-! ## The step -/

theorem step_nil {s : State} (h : s.inputs = []) : step s = .next (freeStep s) := by
  simp [step, scheduleStep, h]

theorem step_host {s : State} {a : HostAccess} {rest : List Input} (h : s.inputs = .host a :: rest) :
    step s = hostStep a { s with inputs := rest } := by
  simp [step, scheduleStep, h, inputStep]

theorem step_seq {s : State} {a : Answer} {rest : List Input} (h : s.inputs = .seq a :: rest) :
    step s = .next (seqStep a { s with inputs := rest }) := by
  simp [step, scheduleStep, h, inputStep]

theorem step_both {s : State} {a : HostAccess} {ans : Answer} {rest : List Input}
    (h : s.inputs = .both a ans :: rest) : step s = bothStep a ans { s with inputs := rest } := by
  simp [step, scheduleStep, h, inputStep]

theorem step_reset {s : State} {rest : List Input} (h : s.inputs = .reset :: rest) :
    step s = .next ({ s with inputs := rest } : State).resetNow := by
  simp [step, scheduleStep, h, inputStep]

/-- HOST's access and then SEQ's turn, when a command was executing. -/
theorem bothStep_busy {a : HostAccess} {ans : Answer} {s u : State} (hc : s.cur ≠ none) (h : hostStep a s = .next u) :
    bothStep a ans s = .next (seqStep ans u) := by
  rw [bothStep, h]
  simp [hc]

/-- HOST's access alone, when the block was idle. -/
theorem bothStep_idle {a : HostAccess} {ans : Answer} {s u : State} (hc : s.cur = none) (h : hostStep a s = .next u) :
    bothStep a ans s = .next u := by
  rw [bothStep, h]
  simp [hc]

/-- A step that answers a next state is one of: SEQ's turn with a free answer or a listed one, or nothing on an idle
block that nothing is done to; HOST's access; HOST's access and then SEQ's turn; reset. `s₀` is the state with the input
taken off the list, or with a free answer drawn. -/
theorem step_cases {s t : State} (h : step s = .next t) :
    (s.inputs = [] ∧ s.cur = none ∧ t = s) ∨
    (∃ ans, s.inputs = [] ∧ s.cur ≠ none ∧ t = seqStep ans { s with draws := s.draws + 1 }) ∨
    (∃ ans rest, s.inputs = .seq ans :: rest ∧ t = seqStep ans { s with inputs := rest }) ∨
    (∃ a rest, s.inputs = .host a :: rest ∧ hostStep a { s with inputs := rest } = .next t) ∨
    (∃ a ans rest u, s.inputs = .both a ans :: rest ∧ hostStep a { s with inputs := rest } = .next u ∧
      ((s.cur ≠ none ∧ t = seqStep ans u) ∨ (s.cur = none ∧ t = u))) ∨
    (∃ rest, s.inputs = .reset :: rest ∧ t = ({ s with inputs := rest } : State).resetNow) := by
  by_cases hi : s.inputs = []
  · rw [step_nil hi] at h
    injection h with h
    subst h
    by_cases hc : s.cur = none
    · exact .inl ⟨hi, hc, by simp [freeStep, hc]⟩
    · exact .inr (.inl ⟨⟨Config.freeLevel s.draws, Config.freeAck s.draws⟩, hi, hc, by simp [freeStep, hc]⟩)
  · obtain ⟨x, rest, hi⟩ := List.exists_cons_of_ne_nil hi
    cases x with
    | host a =>
      rw [step_host hi] at h
      exact .inr (.inr (.inr (.inl ⟨a, rest, hi, h⟩)))
    | seq ans =>
      rw [step_seq hi] at h
      injection h with h
      exact .inr (.inr (.inl ⟨ans, rest, hi, h.symm⟩))
    | both a ans =>
      rw [step_both hi] at h
      unfold bothStep at h
      cases hh : hostStep a { s with inputs := rest } with
      | next u =>
        rw [hh] at h
        simp only [Host.Outcome.next.injEq] at h
        refine .inr (.inr (.inr (.inr (.inl ⟨a, ans, rest, u, hi, hh, ?_⟩))))
        by_cases hc : s.cur = none
        · exact .inr ⟨hc, by simpa [hc] using h.symm⟩
        · exact .inl ⟨hc, by simpa [hc] using h.symm⟩
      | fault r => rw [hh] at h; cases h
      | refused r => rw [hh] at h; cases h
    | reset =>
      rw [step_reset hi] at h
      injection h with h
      exact .inr (.inr (.inr (.inr (.inr ⟨rest, hi, h.symm⟩))))

/-- A property of states that does not look at the inputs list, the draws or HOST's reads, and that HOST's accesses,
SEQ's turns and reset keep, is kept by every step. -/
theorem step_keeps {P : State → Prop}
    (blind : ∀ s (l : List Input) (n : Nat), P s → P { s with inputs := l, draws := n })
    (host : ∀ a s t, P s → hostStep a s = .next t → P t)
    (seq : ∀ a s, P s → P (seqStep a s))
    (reset : ∀ s, P s → P s.resetNow) :
    ∀ s t, P s → step s = .next t → P t := by
  intro s t hs h
  have b : ∀ l, P { s with inputs := l } := fun l => blind s l s.draws hs
  rcases step_cases h with ⟨_, _, rfl⟩ | ⟨ans, _, _, rfl⟩ | ⟨ans, rest, _, rfl⟩ | ⟨a, rest, _, ha⟩ |
      ⟨a, ans, rest, u, _, ha, ⟨_, rfl⟩ | ⟨_, rfl⟩⟩ | ⟨rest, _, rfl⟩
  · exact hs
  · exact seq _ _ (blind s s.inputs (s.draws + 1) hs)
  · exact seq _ _ (b rest)
  · exact host a _ _ (b rest) ha
  · exact seq _ _ (host a _ _ (b rest) ha)
  · exact host a _ _ (b rest) ha
  · exact reset _ (b rest)

end Sys2Proof.Machine
end

