-- ==== Sys2Proof/Laws/Run.lean ====
section
/-! SUPPORT. Runs of SEQ: waits, action lists, whole commands. -/
namespace Sys2Proof.Safety
open Sys2Proof.Machine

/-! ## SEQ's turns in a row -/

/-- SEQ's turns in a row, answered in order. -/
def seqFold (as : List Answer) (s : State) : State := as.foldl (fun s a => seqStep a s) s

@[simp] theorem seqFold_nil (s : State) : seqFold [] s = s := rfl

@[simp] theorem seqFold_cons (a : Answer) (as : List Answer) (s : State) :
    seqFold (a :: as) s = seqFold as (seqStep a s) := rfl

theorem seqFold_append (as bs : List Answer) (s : State) : seqFold (as ++ bs) s = seqFold bs (seqFold as s) := by
  simp [seqFold, List.foldl_append]

theorem complete_withInputs (s : State) (l : List Input) :
    ({ s with inputs := l } : State).complete = { s.complete with inputs := l } := by
  rcases s with ⟨_, _, _, _, _, _, _, _ | c, _, _, _, _, _, _, _⟩
  · rfl
  · cases c <;> rfl

theorem completeIfDone_withInputs (s : State) (l : List Input) :
    ({ s with inputs := l } : State).completeIfDone = { s.completeIfDone with inputs := l } := by
  by_cases h : s.listDone = true
  · have h' : ({ s with inputs := l } : State).listDone = true := h
    rw [State.completeIfDone, if_pos h', State.completeIfDone, if_pos h, complete_withInputs]
  · have h' : ¬ ({ s with inputs := l } : State).listDone = true := h
    rw [State.completeIfDone, if_neg h', State.completeIfDone, if_neg h]

theorem keyEvent_withInputs (s : State) (i j : Fin 4) (l : List Input) :
    ({ s with inputs := l } : State).keyEvent i j = { s.keyEvent i j with inputs := l } := by
  unfold State.keyEvent
  by_cases h : s.key.valid = true
  · simp only [h, if_true]; rfl
  · simp only [h]; rfl

theorem scanStep_withInputs (a : Answer) (s : State) (l : List Input) :
    scanStep a { s with inputs := l } = { scanStep a s with inputs := l } := by
  unfold scanStep
  cases hp : s.scan.phase with
  | drive => rfl
  | settle => rfl
  | read =>
    simp only [scanRead]
    cases a.level
    · exact congrArg (fun t : State => { t with scan := { s.scan with phase := .release, hit := true } })
        (keyEvent_withInputs (s.record (.read (.row s.scan.i) false)) s.scan.i s.scan.j l)
    · rfl
  | release => simp only [scanRelease]; cases a.level <;> rfl
  | restore =>
    simp only [scanRestore]
    have hc := complete_withInputs
      { { s with pads := s.pads.setOut (.col s.scan.j) true }.record (.write (.col s.scan.j) true) with
        scan := { s.scan with hit := false } } l
    split
    · exact hc
    · split
      · rfl
      · exact hc

theorem perform_withInputs (x : Prim) (a : Answer) (s : State) (l : List Input) :
    perform x a { s with inputs := l } = { perform x a s with inputs := l } := by
  cases x with
  | cfg p d =>
    simp only [perform]
    cases a.ack
    · rfl
    · exact completeIfDone_withInputs ({ s with pads := s.pads.setDir p d }.record (.cfg p d true)) l
  | pullUp p =>
    simp only [perform]
    cases a.ack
    · rfl
    · exact completeIfDone_withInputs ({ s with pads := s.pads.pullUp p }.record (.pullUp p true)) l
  | write p lvl => exact completeIfDone_withInputs ({ s with pads := s.pads.setOut p lvl }.record (.write p lvl)) l
  | read p => exact completeIfDone_withInputs (s.record (.read p a.level)) l
  | wait us => exact completeIfDone_withInputs ({ s with waitLeft := cycles s.params us }.record (.wait us)) l

/-- SEQ's turn does not look at what the outside world does next. -/
theorem seqStep_withInputs (a : Answer) (s : State) (l : List Input) :
    seqStep a { s with inputs := l } = { seqStep a s with inputs := l } := by
  rcases seqStep_cases a s with ⟨hc, h⟩ | ⟨c, hc, hw, h⟩ | ⟨hc, hw, h⟩ | ⟨c, x, rest, hc, hk, hw, hl, h⟩ |
      ⟨c, hc, hk, hw, hl, h⟩
  · rw [h, seqStep_idle a (s := { s with inputs := l }) hc]
  · rw [h, seqStep_wait a (s := { s with inputs := l }) hc hw]
    exact completeIfDone_withInputs { s with waitLeft := s.waitLeft - 1 } l
  · rw [h, seqStep_scan a (s := { s with inputs := l }) hc hw, scanStep_withInputs]
  · rw [h, seqStep_list a (s := { s with inputs := l }) hc hk hw hl]
    exact perform_withInputs x a { s with acts := rest } l
  · rw [h, seqStep_empty a (s := { s with inputs := l }) hc hk hw hl, complete_withInputs]

theorem seqStep_inputs (a : Answer) (s : State) : (seqStep a s).inputs = s.inputs := by
  have h := congrArg State.inputs (seqStep_withInputs a s s.inputs)
  exact h

/-- A run goes on from a step's next state. -/
theorem core_run_succ (k : Nat) {s t : State} (h : step s = .next t) :
    Host.Core.run core (k + 1) s = Host.Core.run core k t := by
  have run_succ : ∀ (M : Host.Core) (s t : M.State), M.step s = .next t → M.run (k + 1) s = M.run k t := by
    intro M s t h
    simp [Host.Core.run, h]
  exact run_succ core s t h

theorem seqRun_nil (s : State) : seqRun [] s = .next { s with inputs := [] } := rfl

theorem seqRun_cons (a : Answer) (as : List Answer) (s : State) : seqRun (a :: as) s = seqRun as (seqStep a s) := by
  have h : step { s with inputs := (a :: as).map Input.seq }
      = .next { seqStep a s with inputs := as.map Input.seq } := by
    rw [step_seq (a := a) (rest := as.map Input.seq) rfl, ← seqStep_withInputs]
  exact core_run_succ as.length h

/-- A run of SEQ's turns is their composition. -/
theorem seqRun_eq (as : List Answer) (s : State) : seqRun as s = .next { seqFold as s with inputs := [] } := by
  induction as generalizing s with
  | nil => rfl
  | cons a as ih => rw [seqRun_cons, ih, seqFold_cons]

theorem seqFold_idle (as : List Answer) {s : State} (h : s.cur = none) : seqFold as s = s := by
  induction as with
  | nil => rfl
  | cons a as ih => rw [seqFold_cons, seqStep_idle a h, ih]

/-! ## Waits -/

/-- The cycles of a wait that something follows. -/
theorem seqFold_wait_more {s : State} {c : Instr} (as : List Answer) (hc : s.cur = some c)
    (hm : c = .kpScan ∨ s.acts ≠ []) (hl : as.length = s.waitLeft) : seqFold as s = { s with waitLeft := 0 } := by
  induction as generalizing s with
  | nil => rw [List.length_nil] at hl; rw [hl]; rfl
  | cons a as ih =>
    have hw : s.waitLeft ≠ 0 := by rw [← hl]; simp
    have h : seqStep a s = { s with waitLeft := s.waitLeft - 1 } := by
      rw [seqStep_wait a hc hw, waitCycle]
      apply completeIfDone_of_more
      rcases hm with rfl | hm
      · exact .inl hc
      · exact .inr (.inl hm)
    rw [seqFold_cons, h, ih (s := { s with waitLeft := s.waitLeft - 1 }) hc hm (by simp at hl ⊢; omega)]

/-- The cycles of a wait that ends the command. -/
theorem seqFold_wait_last {s : State} {c : Instr} (as : List Answer) (hc : s.cur = some c)
    (hk : c ≠ .kpScan) (ha : s.acts = []) (hl : as.length = s.waitLeft) (hw : s.waitLeft ≠ 0) :
    seqFold as s = ({ s with waitLeft := 0 } : State).complete := by
  induction as generalizing s with
  | nil => simp at hl; omega
  | cons a as ih =>
    by_cases h1 : s.waitLeft = 1
    · have has : as = [] := by
        rw [h1] at hl
        simpa using hl
      subst has
      rw [seqFold_cons, seqFold_nil, seqStep_wait a hc hw, waitCycle, completeIfDone_of_done]
      · simp [h1]
      · simp [hc, hk]
      · exact ha
      · simp [h1]
    · have h : seqStep a s = { s with waitLeft := s.waitLeft - 1 } := by
        rw [seqStep_wait a hc hw, waitCycle]
        exact completeIfDone_of_more (.inr (.inr (by simp; omega)))
      rw [seqFold_cons, h, ih (s := { s with waitLeft := s.waitLeft - 1 }) hc ha (by simp at hl ⊢; omega) (by simp; omega)]

/-! ## Lists -/

/-- The state in which the head of the list has been performed, accepted, and its wait, if it is one, is over. -/
def afterPrim (s : State) (x : Prim) (rest : List Prim) : State :=
  { s with
    pads := padsAfterPrim s.pads x
    acts := rest
    obs := { s.obs with pins := s.obs.pins ++ [acceptedEvent x] } }

/-- Answers under which a list is performed whole. -/
theorem follows_cons {p : Params} {as : List Answer} {x : Prim} {tr : List PinEvent}
    (h : Follows p as (acceptedEvent x :: tr)) :
    ∃ a bs cs, as = a :: (bs ++ cs) ∧ Follows p cs tr ∧ (1 + bs.length = primSteps p x) ∧
      (∀ q d, x = .cfg q d → a.ack = true) ∧ (∀ q, x = .pullUp q → a.ack = true) ∧
      (∀ q, x = .read q → a.level = true) := by
  cases as with
  | nil => simp [Follows] at h
  | cons a rest =>
    cases x with
    | wait us =>
      simp only [acceptedEvent, Follows] at h
      refine ⟨a, rest.take (cycles p us), rest.drop (cycles p us), by simp, h.2, ?_, by simp, by simp, by simp⟩
      simp [primSteps, h.1]
    | cfg q d =>
      simp only [acceptedEvent, Follows] at h
      exact ⟨a, [], rest, rfl, h.2, rfl, fun _ _ _ => h.1, by simp, by simp⟩
    | pullUp q =>
      simp only [acceptedEvent, Follows] at h
      exact ⟨a, [], rest, rfl, h.2, rfl, by simp, fun _ _ => h.1, by simp⟩
    | write q l =>
      simp only [acceptedEvent, Follows] at h
      exact ⟨a, [], rest, rfl, h, rfl, by simp, by simp, by simp⟩
    | read q =>
      simp only [acceptedEvent, Follows] at h
      exact ⟨a, [], rest, rfl, h.2, rfl, by simp, by simp, fun _ _ => h.1⟩

/-- A list that holds no configuration is followed by any answers of the right number. -/
theorem follows_of_length {p : Params} {l : List Prim} {as : List Answer}
    (hl : ∀ x ∈ l, (∃ q lvl, x = .write q lvl) ∨ ∃ us, x = .wait us)
    (h : as.length = (l.map (primSteps p)).sum) : Follows p as (l.map acceptedEvent) := by
  induction l generalizing as with
  | nil => simpa [Follows] using h
  | cons x l ih =>
    cases as with
    | nil => rcases hl x (by simp) with ⟨q, lvl, rfl⟩ | ⟨us, rfl⟩ <;> (simp [primSteps] at h; try omega)
    | cons a as =>
      have hl' : ∀ y ∈ l, (∃ q lvl, y = .write q lvl) ∨ ∃ us, y = .wait us := fun y hy => hl y (by simp [hy])
      rcases hl x (by simp) with ⟨q, lvl, rfl⟩ | ⟨us, rfl⟩
      · simp only [List.map_cons, acceptedEvent, Follows]
        exact ih hl' (by simp [primSteps] at h; omega)
      · simp only [List.map_cons, acceptedEvent, Follows]
        simp [primSteps] at h
        exact ⟨by omega, ih hl' (by simp; omega)⟩

/-- SEQ performs the head of a list that more follows. -/
theorem seqFold_prim_more {s : State} {c : Instr} {x : Prim} {rest : List Prim} (hc : s.cur = some c)
    (hk : c ≠ .kpScan) (hw : s.waitLeft = 0) (hl : s.acts = x :: rest) (hr : rest ≠ []) {a : Answer} {bs : List Answer}
    (hb : 1 + bs.length = primSteps s.params x) (h1 : ∀ q d, x = .cfg q d → a.ack = true)
    (h2 : ∀ q, x = .pullUp q → a.ack = true) (h3 : ∀ q, x = .read q → a.level = true) :
    seqFold (a :: bs) s = afterPrim s x rest := by
  rw [seqFold_cons, seqStep_list a hc hk hw hl]
  have hmore : ∀ t : State, t.acts = rest → t.completeIfDone = t :=
    fun t ht => completeIfDone_of_more (.inr (.inl (by rw [ht]; exact hr)))
  cases x with
  | wait us =>
    simp only [perform]
    rw [hmore _ rfl, seqFold_wait_more bs (c := c) (by simpa using hc) (.inr (by simpa using hr))
      (by simpa [primSteps] using hb)]
    simp [afterPrim, State.record, padsAfterPrim, acceptedEvent, hw]
  | cfg q d =>
    have hb' : bs = [] := by simpa [primSteps] using hb
    subst hb'
    simp only [perform, h1 q d rfl, if_true]
    rw [hmore _ rfl]
    rfl
  | pullUp q =>
    have hb' : bs = [] := by simpa [primSteps] using hb
    subst hb'
    simp only [perform, h2 q rfl, if_true]
    rw [hmore _ rfl]
    rfl
  | write q l =>
    have hb' : bs = [] := by simpa [primSteps] using hb
    subst hb'
    simp only [perform]
    rw [hmore _ rfl]
    rfl
  | read q =>
    have hb' : bs = [] := by simpa [primSteps] using hb
    subst hb'
    simp only [perform]
    rw [hmore _ rfl]
    simp [afterPrim, State.record, padsAfterPrim, acceptedEvent, h3 q rfl]

/-- SEQ performs the last primitive of a list, and the command is complete. -/
theorem seqFold_prim_last {s : State} {c : Instr} {x : Prim} (hc : s.cur = some c)
    (hk : c ≠ .kpScan) (hw : s.waitLeft = 0) (hl : s.acts = [x]) {a : Answer} {bs : List Answer}
    (hb : 1 + bs.length = primSteps s.params x) (h1 : ∀ q d, x = .cfg q d → a.ack = true)
    (h2 : ∀ q, x = .pullUp q → a.ack = true) (h3 : ∀ q, x = .read q → a.level = true) :
    seqFold (a :: bs) s = (afterPrim s x []).complete := by
  rw [seqFold_cons, seqStep_list a hc hk hw hl]
  have hdone : ∀ t : State, t.cur = some c → t.acts = [] → t.waitLeft = 0 → t.completeIfDone = t.complete :=
    fun t h1 h2 h3 => completeIfDone_of_done (by simp [h1, hk]) h2 h3
  cases x with
  | wait us =>
    simp only [perform]
    by_cases hn : cycles s.params us = 0
    · have hb' : bs = [] := by simpa [primSteps, hn] using hb
      subst hb'
      rw [hdone _ (by simpa using hc) rfl (by simpa using hn), seqFold_nil]
      simp [afterPrim, State.record, padsAfterPrim, acceptedEvent, hn, hw]
    · rw [completeIfDone_of_more (.inr (.inr (by simpa using hn))),
        seqFold_wait_last bs (c := c) (by simpa using hc) hk (by simp) (by simpa [primSteps] using hb) (by simpa using hn)]
      simp [afterPrim, State.record, padsAfterPrim, acceptedEvent, hw]
  | cfg q d =>
    have hb' : bs = [] := by simpa [primSteps] using hb
    subst hb'
    simp only [perform, h1 q d rfl, if_true]
    rw [hdone _ (by simpa using hc) rfl (by simpa using hw)]
    rfl
  | pullUp q =>
    have hb' : bs = [] := by simpa [primSteps] using hb
    subst hb'
    simp only [perform, h2 q rfl, if_true]
    rw [hdone _ (by simpa using hc) rfl (by simpa using hw)]
    rfl
  | write q l =>
    have hb' : bs = [] := by simpa [primSteps] using hb
    subst hb'
    simp only [perform]
    rw [hdone _ (by simpa using hc) rfl (by simpa using hw)]
    rfl
  | read q =>
    have hb' : bs = [] := by simpa [primSteps] using hb
    subst hb'
    simp only [perform]
    rw [hdone _ (by simpa using hc) rfl (by simpa using hw)]
    simp [afterPrim, State.record, padsAfterPrim, acceptedEvent, h3 q rfl]

/-- SEQ performs a whole list, and the command is complete. -/
theorem seqFold_list {s : State} {c : Instr} {as : List Answer} (hc : s.cur = some c) (hk : c ≠ .kpScan)
    (hw : s.waitLeft = 0) (hl : s.acts ≠ []) (hf : Follows s.params as (s.acts.map acceptedEvent)) :
    seqFold as s = ({ s with
      pads := padsAfter s.pads s.acts
      acts := []
      obs := { s.obs with pins := s.obs.pins ++ s.acts.map acceptedEvent } } : State).complete := by
  generalize ha : s.acts = l at *
  induction l generalizing s as with
  | nil => exact absurd rfl hl
  | cons x rest ih =>
    rw [List.map_cons] at hf
    obtain ⟨a, bs, cs, rfl, hcs, hb, h1, h2, h3⟩ := follows_cons hf
    by_cases hr : rest = []
    · subst hr
      have : cs = [] := by simpa [Follows] using hcs
      subst this
      rw [List.append_nil, seqFold_prim_last hc hk hw ha hb h1 h2 h3]
      rfl
    · rw [← List.cons_append, seqFold_append, seqFold_prim_more hc hk hw ha hr hb h1 h2 h3,
        ih (s := afterPrim s x rest) (by simpa [afterPrim] using hc) (by simpa [afterPrim] using hw) rfl hr
          (by simpa [afterPrim] using hcs)]
      simp [afterPrim, padsAfter]

/-! ## Answers exist -/

/-- Answers under which SEQ performs a trace. -/
def answersFor (p : Params) : List PinEvent → List Answer
  | [] => []
  | .cfg _ _ ok :: tr => ⟨true, ok⟩ :: answersFor p tr
  | .pullUp _ ok :: tr => ⟨true, ok⟩ :: answersFor p tr
  | .write _ _ :: tr => ⟨true, true⟩ :: answersFor p tr
  | .read _ lvl :: tr => ⟨lvl, true⟩ :: answersFor p tr
  | .wait us :: tr => ⟨true, true⟩ :: (List.replicate (cycles p us) ⟨true, true⟩ ++ answersFor p tr)
  | .reset :: _ => []

/-- Every trace that holds no reset is followed by some answers. -/
theorem follows_answersFor (p : Params) {tr : List PinEvent} (h : PinEvent.reset ∉ tr) :
    Follows p (answersFor p tr) tr := by
  induction tr with
  | nil => rfl
  | cons ev tr ih =>
    have ih := ih (List.not_mem_of_not_mem_cons h)
    cases ev with
    | cfg q d ok => exact ⟨rfl, ih⟩
    | pullUp q ok => exact ⟨rfl, ih⟩
    | write q lvl => exact ih
    | read q lvl => exact ⟨rfl, ih⟩
    | wait us =>
      have hl : (List.replicate (cycles p us) (⟨true, true⟩ : Answer)).length = cycles p us := List.length_replicate
      refine ⟨by rw [List.length_append, hl]; exact Nat.le_add_right _ _, ?_⟩
      rw [List.drop_append_of_le_length (Nat.le_of_eq hl.symm), List.drop_of_length_le (Nat.le_of_eq hl)]
      exact ih
    | reset => exact absurd List.mem_cons_self h

/-- No accepted event is a reset. -/
theorem acceptedEvent_ne_reset (x : Prim) : acceptedEvent x ≠ .reset := by cases x <;> simp [acceptedEvent]

/-- Every action list is followed by some answers. -/
theorem follows_acts (p : Params) (l : List Prim) :
    Follows p (answersFor p (l.map acceptedEvent)) (l.map acceptedEvent) :=
  follows_answersFor p (by simp [acceptedEvent_ne_reset])

/-- The reference contact environment always has an answer (R77). -/
theorem exists_answersContacts (ks : List Pressed) (s : State) : ∃ as, AnswersContacts ks as s := by
  induction ks generalizing s with
  | nil => exact ⟨[], rfl⟩
  | cons k ks ih =>
    let a : Answer := ⟨(contactLevel k s.pads s.scan.i).getD true, true⟩
    obtain ⟨as, h⟩ := ih (seqStep a s)
    refine ⟨a :: as, fun _ _ => ?_, h⟩
    simp only [contactAllows, a]
    cases contactLevel k s.pads s.scan.i <;> simp

/-- An idle block with nothing left to do meets the sequencer's invariant. -/
theorem sequencerInv_of_idle {s : State} (hc : s.cur = none) (ha : s.acts = []) (hw : s.waitLeft = 0) :
    SequencerInv s := by
  constructor <;> simp [hc, ha, hw]

end Sys2Proof.Safety
end

