-- ==== Sys2Proof/Laws/Pass.lean ====
section
/-! SUPPORT. A scan pass under a given trace: its primitives one by one, its columns, its release-wait. -/

namespace Sys2Proof.Safety

open Sys2Proof.Machine

/-! ## Splitting the answers of a trace -/

/-- The answers of a trace in two parts are the answers of the parts. -/
theorem follows_append {p : Params} {tr₁ tr₂ : List PinEvent} {as : List Answer} (h : Follows p as (tr₁ ++ tr₂)) :
    ∃ bs cs, as = bs ++ cs ∧ Follows p bs tr₁ ∧ Follows p cs tr₂ := by
  induction tr₁ generalizing as with
  | nil => exact ⟨[], as, rfl, rfl, h⟩
  | cons ev tr ih =>
    cases as with
    | nil => simp [Follows] at h
    | cons a as =>
      cases ev with
      | wait us =>
        simp only [List.cons_append, Follows] at h
        obtain ⟨bs, cs, e, h1, h2⟩ := ih h.2
        have hl : (as.take (cycles p us)).length = cycles p us := List.length_take_of_le h.1
        refine ⟨a :: (as.take (cycles p us) ++ bs), cs, ?_, ?_, h2⟩
        · rw [List.cons_append, List.append_assoc, ← e, List.take_append_drop]
        simp only [Follows]
        refine ⟨by rw [List.length_append, hl]; exact Nat.le_add_right _ _, ?_⟩
        rw [List.drop_append_of_le_length (Nat.le_of_eq hl.symm), List.drop_of_length_le (Nat.le_of_eq hl)]
        exact h1
      | reset => simp [Follows] at h
      | write q l =>
        simp only [List.cons_append, Follows] at h
        obtain ⟨bs, cs, rfl, h1, h2⟩ := ih h
        exact ⟨a :: bs, cs, rfl, h1, h2⟩
      | cfg q d ok =>
        simp only [List.cons_append, Follows] at h
        obtain ⟨bs, cs, rfl, h1, h2⟩ := ih h.2
        exact ⟨a :: bs, cs, rfl, ⟨h.1, h1⟩, h2⟩
      | pullUp q ok =>
        simp only [List.cons_append, Follows] at h
        obtain ⟨bs, cs, rfl, h1, h2⟩ := ih h.2
        exact ⟨a :: bs, cs, rfl, ⟨h.1, h1⟩, h2⟩
      | read q l =>
        simp only [List.cons_append, Follows] at h
        obtain ⟨bs, cs, rfl, h1, h2⟩ := ih h.2
        exact ⟨a :: bs, cs, rfl, ⟨h.1, h1⟩, h2⟩

theorem follows_write {p : Params} {as : List Answer} {q : Pin} {l : Level} (h : Follows p as [.write q l]) :
    ∃ a, as = [a] := by
  cases as with
  | nil => simp [Follows] at h
  | cons a as => exact ⟨a, by rw [show as = [] by simpa [Follows] using h]⟩

theorem follows_read {p : Params} {as : List Answer} {q : Pin} {l : Level} (h : Follows p as [.read q l]) :
    ∃ a, as = [a] ∧ a.level = l := by
  cases as with
  | nil => simp [Follows] at h
  | cons a as =>
    simp only [Follows] at h
    exact ⟨a, by rw [h.2], h.1⟩

theorem follows_wait {p : Params} {as : List Answer} {us : Nat} (h : Follows p as [.wait us]) :
    ∃ a bs, as = a :: bs ∧ bs.length = cycles p us := by
  cases as with
  | nil => simp [Follows] at h
  | cons a as =>
    simp only [Follows, List.drop_eq_nil_iff] at h
    exact ⟨a, as, rfl, by omega⟩

/-! ## The primitives of a pass -/

/-- A state at another position of its pass, with other pads and a longer trace. -/
def scanAt (s : State) (evs : List PinEvent) (c : Scan) (v : Pads) : State :=
  { s with scan := c, pads := v, obs := { s.obs with pins := s.obs.pins ++ evs } }

theorem scanAt_scanAt (s : State) (e e' : List PinEvent) (c c' : Scan) (v v' : Pads) :
    scanAt (scanAt s e c v) e' c' v' = scanAt s (e ++ e') c' v' := by
  simp [scanAt]

theorem eq_scanAt {s : State} {c : Scan} (h : s.scan = c) : s = scanAt s [] c s.pads := by
  subst h
  simp [scanAt]

section

variable {s : State} {as : List Answer} {i j : Fin 4} {hit : Bool} {evs : List PinEvent} {v : Pads}

/-- A column is driven, and the settle wait, if there is one, is over. -/
theorem pass_drive (hc : s.cur = some .kpScan) (hw : s.waitLeft = 0)
    (hf : Follows s.params as ([.write (.col j) false] ++ settleEvents s.params)) :
    seqFold as (scanAt s evs ⟨.drive, j, i, hit⟩ v)
      = scanAt s (evs ++ ([.write (.col j) false] ++ settleEvents s.params)) ⟨.read, j, 0, hit⟩
          (v.setOut (.col j) false) := by
  obtain ⟨bs, cs, rfl, h1, h2⟩ := follows_append hf
  obtain ⟨a, rfl⟩ := follows_write h1
  rw [seqFold_append, seqFold_cons, seqFold_nil, seqStep_scan (s := scanAt _ _ _ _) a hc hw, scanStep]
  simp only [scanAt]
  unfold settleEvents at h2 ⊢
  by_cases ht : s.params.tScanSettle = 0
  · simp only [ht, if_true, Follows] at h2 ⊢
    subst h2
    simp [State.record, Scan.driven, ht]
  · simp only [ht, if_false] at h2 ⊢
    obtain ⟨b, ds, rfl, hd⟩ := follows_wait h2
    rw [seqFold_cons, seqStep_scan b (by simpa using hc) (by simpa using hw), scanStep]
    simp only [State.record_scan, Scan.driven, ht, if_false]
    rw [seqFold_wait_more (c := .kpScan) ds (by simpa using hc) (.inl rfl) (by simpa using hd)]
    simp [State.record, hw]

/-- A row reads high. -/
theorem pass_high (hc : s.cur = some .kpScan) (hw : s.waitLeft = 0) (hf : Follows s.params as [.read (.row i) true]) :
    seqFold as (scanAt s evs ⟨.read, j, i, hit⟩ v)
      = scanAt s (evs ++ [.read (.row i) true]) (Scan.nextRow ⟨.read, j, i, hit⟩) v := by
  obtain ⟨a, rfl, ha⟩ := follows_read hf
  rw [seqFold_cons, seqFold_nil, seqStep_scan (s := scanAt _ _ _ _) a hc hw, scanStep]
  simp [scanAt, scanRead, ha, State.record]

@[simp] theorem nextRow_zero (j : Fin 4) (h : Bool) : Scan.nextRow ⟨.read, j, 0, h⟩ = ⟨.read, j, 1, h⟩ := rfl
@[simp] theorem nextRow_one (j : Fin 4) (h : Bool) : Scan.nextRow ⟨.read, j, 1, h⟩ = ⟨.read, j, 2, h⟩ := rfl
@[simp] theorem nextRow_two (j : Fin 4) (h : Bool) : Scan.nextRow ⟨.read, j, 2, h⟩ = ⟨.read, j, 3, h⟩ := rfl
@[simp] theorem nextRow_three (j : Fin 4) (h : Bool) : Scan.nextRow ⟨.read, j, 3, h⟩ = ⟨.restore, j, 3, h⟩ := rfl

/-- A column is restored: the pass ends, or the next column follows. -/
theorem pass_restore (hc : s.cur = some .kpScan) (hw : s.waitLeft = 0)
    (hf : Follows s.params as [.write (.col j) true]) :
    seqFold as (scanAt s evs ⟨.restore, j, i, hit⟩ v) =
      if hit && s.params.passEndOnEvent then
        { scanAt s (evs ++ [.write (.col j) true]) ⟨.restore, j, i, false⟩ (v.setOut (.col j) true) with cur := none }
      else if h : j.val + 1 < 4 then
        scanAt s (evs ++ [.write (.col j) true]) ⟨.drive, ⟨j.val + 1, h⟩, 0, false⟩ (v.setOut (.col j) true)
      else
        { scanAt s (evs ++ [.write (.col j) true]) ⟨.restore, j, i, false⟩ (v.setOut (.col j) true) with
          cur := none } := by
  obtain ⟨a, rfl⟩ := follows_write hf
  have h : ∀ u : State, u.cur = some .kpScan → u.waitLeft = 0 → u.scan = ⟨.restore, j, i, hit⟩ → seqStep a u =
      if hit && u.params.passEndOnEvent then
        { scanAt u [.write (.col j) true] ⟨.restore, j, i, false⟩ (u.pads.setOut (.col j) true) with cur := none }
      else if h : j.val + 1 < 4 then
        scanAt u [.write (.col j) true] ⟨.drive, ⟨j.val + 1, h⟩, 0, false⟩ (u.pads.setOut (.col j) true)
      else
        { scanAt u [.write (.col j) true] ⟨.restore, j, i, false⟩ (u.pads.setOut (.col j) true) with cur := none } := by
    intro u hc hw hs
    rw [seqStep_scan a hc hw, scanStep]
    simp only [hs, scanRestore]
    split
    · simp [State.complete, State.record, scanAt, hc]
    · split
      · simp [State.record, scanAt]
      · simp [State.complete, State.record, scanAt, hc]
  rw [seqFold_cons, seqFold_nil, h (scanAt s evs ⟨.restore, j, i, hit⟩ v) hc hw rfl]
  simp only [scanAt_scanAt]
  rfl

/-- The low reads of a release-wait. -/
theorem pass_lows {n : Nat} (hc : s.cur = some .kpScan) (hw : s.waitLeft = 0)
    (hf : Follows s.params as (List.replicate n (.read (.row i) false))) :
    seqFold as (scanAt s evs ⟨.release, j, i, true⟩ v)
      = scanAt s (evs ++ List.replicate n (.read (.row i) false)) ⟨.release, j, i, true⟩ v := by
  induction n generalizing as evs with
  | zero =>
    simp only [List.replicate_zero, Follows] at hf
    subst hf
    simp
  | succ n ih =>
    rw [List.replicate_succ, ← List.singleton_append] at hf ⊢
    obtain ⟨a1, a2, rfl, h1, h2⟩ := follows_append hf
    obtain ⟨a, rfl, ha⟩ := follows_read h1
    rw [seqFold_append, seqFold_cons, seqFold_nil, seqStep_scan (s := scanAt _ _ _ _) a hc hw, scanStep]
    simp only [scanAt, scanRelease, ha, Bool.false_eq_true, if_false]
    have h := ih (evs := evs ++ [.read (.row i) false]) h2
    rw [List.append_assoc, List.singleton_append] at h
    simpa [scanAt, State.record] using h

/-- Writing a pin's level twice leaves the second. -/
theorem setOut_setOut (v : Pads) (p : Pin) (l l' : Level) : (v.setOut p l).setOut p l' = v.setOut p l' := by
  apply Pads.ext_at
  intro q
  simp only [Pads.at_setOut]
  split <;> simp

/-- A column in which every row reads high. -/
theorem pass_quiet (hc : s.cur = some .kpScan) (hw : s.waitLeft = 0)
    (hf : Follows s.params as (quietColumn s.params j)) :
    seqFold as (scanAt s evs ⟨.drive, j, i, false⟩ v) =
      if h : j.val + 1 < 4 then
        scanAt s (evs ++ quietColumn s.params j) ⟨.drive, ⟨j.val + 1, h⟩, 0, false⟩ (v.setOut (.col j) true)
      else
        { scanAt s (evs ++ quietColumn s.params j) ⟨.restore, j, 3, false⟩ (v.setOut (.col j) true) with
          cur := none } := by
  unfold quietColumn at hf ⊢
  obtain ⟨as, a5, rfl, hf, h5⟩ := follows_append hf
  obtain ⟨a0, as, rfl, h0, hf⟩ := follows_append hf
  obtain ⟨a1, as, rfl, h1, hf⟩ := follows_append (tr₁ := [.read (.row 0) true]) hf
  obtain ⟨a2, as, rfl, h2, hf⟩ := follows_append (tr₁ := [.read (.row 1) true]) hf
  obtain ⟨a3, a4, rfl, h3, h4⟩ := follows_append (tr₁ := [.read (.row 2) true]) hf
  simp only [seqFold_append]
  rw [pass_drive hc hw h0, pass_high hc hw h1, nextRow_zero, pass_high hc hw h2, nextRow_one, pass_high hc hw h3,
    nextRow_two, pass_high hc hw h4, nextRow_three, pass_restore hc hw h5, setOut_setOut]
  simp only [Bool.false_and, Bool.false_eq_true, if_false, List.append_assoc, List.cons_append, List.nil_append]

end

end Sys2Proof.Safety
end

