-- ==== Sys2Proof/Laws/PerInstr.lean ====
section
/-! SUPPORT. Per-instruction facts: the fields of each command's word are the opcode, reserved zeros and the operand
byte of R90 to R92. -/

namespace Sys2Proof.Laws

/-- The word of a command carries its opcode, `RSV = 0` and its operand byte (R90). -/
def EncodeFields.Statement (i : Instr) : Prop :=
  opcField (encode i) = opcodeOf i ∧ rsvField (encode i) = 0 ∧ argField (encode i) = arg8Of i

/-- It does, whatever the command. -/
theorem encode_fields (i : Instr) : EncodeFields.Statement i :=
  ⟨opcField_commandWord _ _, rsvField_commandWord _ _, argField_commandWord _ _⟩

theorem EncodeFields.nop : EncodeFields.Statement .nop := encode_fields _
theorem EncodeFields.kpInit : EncodeFields.Statement .kpInit := encode_fields _
theorem EncodeFields.kpScan : EncodeFields.Statement .kpScan := encode_fields _
theorem EncodeFields.lcdInit : EncodeFields.Statement .lcdInit := encode_fields _
theorem EncodeFields.lcdCmd (v : Byte) : EncodeFields.Statement (.lcdCmd v) := encode_fields _
theorem EncodeFields.lcdData (v : Byte) : EncodeFields.Statement (.lcdData v) := encode_fields _
theorem EncodeFields.lbBegin : EncodeFields.Statement .lbBegin := encode_fields _
theorem EncodeFields.lbPut (c : Byte) : EncodeFields.Statement (.lbPut c) := encode_fields _
theorem EncodeFields.lcdWriteLine (l : DisplayLine) : EncodeFields.Statement (.lcdWriteLine l) := encode_fields _

end Sys2Proof.Laws
end

