-- ==== Sys2Proof/Laws/Send.lean ====
section
/-! SUPPORT. What SEND does to the pads and to the latch observer, whatever stood before it. -/

namespace Sys2Proof.Safety

open Sys2Proof.Machine

theorem padsAfter_append (v : Pads) (a b : List Prim) : padsAfter v (a ++ b) = padsAfter (padsAfter v a) b := by
  simp [padsAfter]

/-- NIB leaves the nibble on the data lines (R150). -/
theorem padsAfter_nib (v : Pads) (n : Nibble) :
    padsAfter v (nibActs n) =
      (((v.setOut .d4 (n.getLsbD 0)).setOut .d5 (n.getLsbD 1)).setOut .d6 (n.getLsbD 2)).setOut .d7 (n.getLsbD 3) := by
  apply Pads.ext_at
  intro p
  unfold nibActs nibSet nibClears
  rcases n.getLsbD 0 <;> rcases n.getLsbD 1 <;> rcases n.getLsbD 2 <;> rcases n.getLsbD 3 <;>
    simp only [padsAfter, List.foldl, padsAfterPrim, List.cons_append, List.nil_append, List.append_nil, if_true,
      Pads.at_setOut, Bool.false_eq_true, if_false] <;>
    cases p <;> simp

/-- SEND leaves RS as sent, E low and the low nibble on the data lines (R152). -/
theorem padsAfter_send (p : Params) (v : Byte) (rs : Level) (w : Pads) :
    padsAfter w (sendActs p v rs) =
      (((((w.setOut .rs rs).setOut .e false).setOut .d4 (v.getLsbD 0)).setOut .d5 (v.getLsbD 1)).setOut .d6
        (v.getLsbD 2)).setOut .d7 (v.getLsbD 3) := by
  have toggle : ∀ v : Pads, padsAfter v (toggleActs p) = (v.setOut .e true).setOut .e false := fun _ => rfl
  simp only [sendActs, padsAfter_append, padsAfter_nib, toggle]
  apply Pads.ext_at
  intro q
  simp only [padsAfter, List.foldl, padsAfterPrim, Pads.at_setOut, lowNibble]
  cases q <;> simp

/-- The latch observer after a NIB. -/
theorem see_nib (v : LatchView) (n : Nibble) :
    ((nibActs n).map acceptedEvent).foldl LatchView.see v =
      { v with d4 := n.getLsbD 0, d5 := n.getLsbD 1, d6 := n.getLsbD 2, d7 := n.getLsbD 3 } := by
  unfold nibActs nibSet nibClears
  rcases n.getLsbD 0 <;> rcases n.getLsbD 1 <;> rcases n.getLsbD 2 <;> rcases n.getLsbD 3 <;> rfl

/-- The latch observer after a TOGGLE: one record (R76, R151). -/
theorem see_toggle (p : Params) (v : LatchView) :
    ((toggleActs p).map acceptedEvent).foldl LatchView.see v =
      { v with pulse := false, latches := v.latches ++ [⟨v.rs, v.nibble⟩] } := by
  simp [toggleActs, acceptedEvent, LatchView.see, LatchView.nibble]

/-- Four bits of a nibble make it up. -/
theorem nibble_bits (n : Nibble) :
    BitVec.ofBool (n.getLsbD 3) ++ BitVec.ofBool (n.getLsbD 2) ++ BitVec.ofBool (n.getLsbD 1)
      ++ BitVec.ofBool (n.getLsbD 0) = n := by
  have h : ∀ k : Fin 16, BitVec.ofBool ((BitVec.ofFin k : Nibble).getLsbD 3)
      ++ BitVec.ofBool ((BitVec.ofFin k : Nibble).getLsbD 2) ++ BitVec.ofBool ((BitVec.ofFin k : Nibble).getLsbD 1)
      ++ BitVec.ofBool ((BitVec.ofFin k : Nibble).getLsbD 0) = BitVec.ofFin k := by decide
  exact h n.toFin

/-- The primitives of SEND are writes and waits. -/
theorem send_writes_waits (p : Params) (v : Byte) (rs : Level) :
    ∀ x ∈ sendActs p v rs, (∃ q lvl, x = .write q lvl) ∨ ∃ us, x = .wait us := by
  have toggle : ∀ x ∈ toggleActs p, (∃ q lvl, x = .write q lvl) ∨ ∃ us, x = .wait us := by simp [toggleActs]
  have nib : ∀ n, ∀ x ∈ nibActs n, (∃ q lvl, x = .write q lvl) ∨ ∃ us, x = .wait us := by
    intro n x hx
    have h : (nibActs n).all (fun x => match x with
        | .write _ _ => true | .cfg _ _ => false | .pullUp _ => false | .read _ => false | .wait _ => false) = true := by
      unfold nibActs nibSet nibClears
      rcases n.getLsbD 0 <;> rcases n.getLsbD 1 <;> rcases n.getLsbD 2 <;> rcases n.getLsbD 3 <;> rfl
    have := List.all_eq_true.1 h x hx
    cases x <;> simp_all
  intro x hx
  simp only [sendActs, List.mem_append, List.mem_singleton] at hx
  rcases hx with (((rfl | hx) | hx) | hx) | hx
  · exact .inl ⟨_, _, rfl⟩
  · exact nib _ x hx
  · exact toggle x hx
  · exact nib _ x hx
  · exact toggle x hx

end Sys2Proof.Safety
end

