-- ==== Sys2Proof/Tests/Slice0.lean ====
section
/-! SUPPORT. Tests, each expected value taken from the spec (a vector of 95_test_vectors.md is named by its label), and the
witnesses of the statements' hypotheses. -/

namespace Sys2Proof.Tests

open Sys2Proof Sys2Proof.Machine Sys2Proof.Safety

/-! ## States to test on -/

/-- A legend with the two keys the spec's example matrix fixes (R11): `KEYMAP[2][1] = '6'`, `KEYMAP[3][2] = '#'`. -/
def demoMap : Vector Symbol 16 :=
  #v[.digit1, .digit2, .digit3, .letterA, .digit4, .digit5, .digit0, .letterB, .digit7, .digit6, .digit9, .letterC,
     .star, .digit8, .hash, .letterD]

/-- The spec's default times, a clock of 1 kHz, so that each wait is one cycle, and the example legend. -/
def demoParams : Params := ⟨500, 500, 10, 1000, demoMap, true, 0x1000⟩

/-- The block after reset. -/
def demo : State := State.resetIn demoParams

/-- What KP_INIT and the configuration of the display's pins leave in the trace. -/
def initEvents : List PinEvent := (kpInitActs ++ lcdPinCfgActs).map acceptedEvent

/-- Both units ready. -/
def ready : State :=
  { demo with
    kpReady := true, lcdReady := true, pads := padsOf initEvents, obs := ⟨initEvents, [], []⟩ }

/-- A scan pass at a position. -/
def scanning (c : Scan) : State :=
  { ready with cur := some .kpScan, scan := c, pads := ready.pads.setOut (.col c.j) (decide (c.phase = .drive)) }

/-- A command with an action list under way. -/
def running (i : Instr) (acts : List Prim) : State := { ready with cur := some i, acts := acts }

/-- The next state, where there is one. -/
def next? (o : Host.Outcome State Fault Refusal) : Option State :=
  match o with
  | .next s => some s
  | .fault _ => none
  | .refused _ => none

/-- The state after one input. -/
def on (inp : Input) (s : State) : Option State := next? (step { s with inputs := [inp] })

/-- HOST writes a command word. -/
def cmd (w : Word) : Input := .host (.write 0x0 4 w)

/-- STATUS after one input. -/
def statusOn (inp : Input) (s : State) : Option Word := (on inp s).map statusWord

/-- The values HOST's reads have returned after one input. -/
def readsOn (inp : Input) (s : State) : Option (List Word) := (on inp s).map fun t => t.obs.reads.map (·.value)

/-! ## Words (L2.1) -/

theorem test_decode_nop : decode 0x00000000 = .ok .nop := by decide
theorem test_decode_kpInit : decode 0x10000000 = .ok .kpInit := by decide
theorem test_decode_kpScan : decode 0x20000000 = .ok .kpScan := by decide
theorem test_decode_lcdInit : decode 0x30000000 = .ok .lcdInit := by decide
theorem test_decode_lcdCmd : decode 0x400000FF = .ok (.lcdCmd 0xFF) := by decide
theorem test_decode_lcdData : decode 0x50000036 = .ok (.lcdData 0x36) := by decide
theorem test_decode_lbBegin : decode 0x60000000 = .ok .lbBegin := by decide
theorem test_decode_lbPut : decode 0x70000000 = .ok (.lbPut 0x00) := by decide
theorem test_decode_lcdWriteLine :
    decode 0x80000000 = .ok (.lcdWriteLine .line1) ∧ decode 0x80000001 = .ok (.lcdWriteLine .line2) := by decide

/-- The illegal words of L2.1, one by one. -/
theorem test_decode_illegal :
    decode 0x00000001 = .error .operandNotZero ∧ decode 0x10000080 = .error .operandNotZero ∧
    decode 0x40000100 = .error .reservedBits ∧ decode 0x48000000 = .error .reservedBits ∧
    decode 0x60000020 = .error .operandNotZero ∧ decode 0x80000002 = .error .lineNotOneBit ∧
    decode 0x80000080 = .error .lineNotOneBit ∧ decode 0x90000000 = .error .reservedOpcode ∧
    decode 0xF00000FF = .error .reservedOpcode ∧ decode 0xFFFFFFFF = .error .reservedBits := by decide

/-- The same word as byte lanes, lowest first (R62), and a bus value of another width (R61). -/
theorem test_decode_bytes :
    decodeBytes [0x36, 0x00, 0x00, 0x50] = .ok (.lcdData 0x36) ∧ decodeBytes [0x36] = .error .notOneWord := by decide

/-- A row's word as the opcode table numbers it. -/
theorem test_decode_table_word :
    decodeTableWord 32 0x80000001 = some (.lcdWriteLine .line2) ∧ decodeTableWord 32 0x80000080 = none := by decide

/-- The assembler's examples of L2.1. -/
theorem test_assemble :
    assembleWord (.lcdLine 0xC0) = some 0x80000001 ∧ assembleWord (.lbPut (.chr 'H')) = some 0x70000048 ∧
    assembleWord (.lcdData (.chr '#')) = some 0x50000023 ∧ assembleWord (.lcdLine 0x40) = none := by decide

/-- The ends of printable ASCII, and characters beyond them (R96, log 18). -/
theorem test_assemble_characters :
    assembleWord (.lbPut (.chr '~')) = some 0x7000007E ∧ assembleWord (.lcdCmd (.chr ' ')) = some 0x40000020 ∧
    assembleWord (.lcdData (.chr 'é')) = none ∧ assembleWord (.lbPut (.chr '\n')) = none := by decide

/-- L3 P4: `0x50000000 | x[7:0]` for the KEY word of '6'. -/
theorem test_p4_host_value :
    (⟨[], 0, false, [(0, 0x80000636)]⟩ : HostState).value (.or (.const 0x50000000) (.field 0 7 0)) = 0x50000036 := by
  decide

/-- What the assembler refuses (R96): a number past 255, an address that names no line, a character with no byte. -/
theorem test_wellFormed_refuses :
    (AsmLine.lcdCmd (.num 256)).wellFormed = false ∧ (AsmLine.lcdData (.num 256)).wellFormed = false ∧
    (AsmLine.lbPut (.chr 'é')).wellFormed = false ∧ (AsmLine.lcdLine 0x81).wellFormed = false ∧
    (AsmLine.lcdCmd (.num 255)).wellFormed = true ∧ (AsmLine.lcdLine 0x80).wellFormed = true := by decide

/-! ## Acceptance (L2.3 K1 K2, L2.4 T3, L2.5 I3, L2.6, L2.7) -/

theorem test_e1_illegal_word : statusOn (cmd 0x00000001) demo = some 0x100 := by decide
theorem test_e2_busy_illegal_word : statusOn (cmd 0x00000001) (scanning ⟨.read, 0, 0, false⟩) = some 0x22D := by decide
theorem test_e3_illegal_before_ready : statusOn (cmd 0x20000001) demo = some 0x100 := by decide
theorem test_e4_line_not_ready : statusOn (cmd 0x80000001) demo = some 0x400 := by decide
theorem test_e6_nop : statusOn (cmd 0x00000000) demo = some 0 := by decide
theorem test_k1_kpInit_accepted : statusOn (cmd 0x10000000) demo = some 0x11 := by decide
theorem test_k2_kpScan_accepted : statusOn (cmd 0x20000000) { ready with lcdReady := false } = some 0x25 := by decide
theorem test_t3_lcdCmd_accepted : statusOn (cmd 0x40000028) ready = some 0x5D := by decide
theorem test_i3_lcdInit_again : statusOn (cmd 0x30000000) ready = some 0x45 := by decide
theorem test_b2_line_accepted : statusOn (cmd 0x80000000) ready = some 0x6D := by decide
theorem test_b5_put_dropped : on (cmd 0x70000061) { demo with lbIdx := 16 } = some { demo with lbIdx := 16 } := by decide
theorem test_b7_begin : (on (cmd 0x60000000) { ready with lb := Vector.replicate 16 0x61, lbIdx := 16 }).map
    (fun t => (t.lb.toList, t.lbIdx)) = some (List.replicate 16 0x20, 0) := by decide
theorem test_b10_put_zero : (on (cmd 0x70000000) { demo with lbIdx := 3 }).map
    (fun t => (t.lb[2], t.lb[3], t.lb[4], t.lbIdx)) = some (0x20, 0x00, 0x20, 4) := by decide

/-! ## Action lists (L1.1, L1.4, L2.3, L2.4, L2.5) -/

theorem test_nib_a : nibActs 0xA = nibClears ++ [.write .d5 true, .write .d7 true] := by decide
theorem test_send_counts :
    (sendActs demoParams 0x00 true).length = 19 ∧ (sendActs demoParams 0x5A true).length = 23 ∧
    (sendActs demoParams 0xFF true).length = 27 := by decide
theorem test_send_5a_latches : latchTrace ((sendActs demoParams 0x5A true).map acceptedEvent)
    = [⟨true, 0x5⟩, ⟨true, 0xA⟩] := by decide
theorem test_lcdInit_list : (lcdInitActs demoParams).length = 136 ∧ actsDuration (lcdInitActs demoParams) = 18500 := by
  decide +kernel
theorem test_b8_line_count :
    (lineActs demoParams .line2 ((Vector.replicate 16 0x20).set 0 0x48)).length = 342 := by decide +kernel

/-- L2.4 T8: cycles of a 500 microsecond wait. -/
theorem test_t8_cycles :
    cycles { demoParams with clkHz := 1000000 } 500 = 500 ∧ cycles { demoParams with clkHz := 32768 } 500 = 17 ∧
    cycles { demoParams with clkHz := 48000000 } 500 = 24000 := by decide

/-! ## SEQ's turns (L2.3 K3 K8 K13, L2.5 I2) -/

theorem test_k3_event : (on (.seq ⟨false, true⟩) { scanning ⟨.read, 1, 2, false⟩ with lcdReady := false }).map
    (fun t => (t.key.word, statusWord t)) = some (0x80000636, 0x37) := by decide
theorem test_k8_overwritten :
    (on (.seq ⟨false, true⟩) { scanning ⟨.read, 2, 3, false⟩ with key := ⟨true, 1, 2, 0x36⟩ }).map
      (fun t => (t.key.word, t.flags.kovr)) = some (0x80000B23, true) := by decide
theorem test_k3_restore_ends_pass : (on (.seq ⟨true, true⟩) (scanning ⟨.restore, 1, 2, true⟩)).map
    (fun t => (t.cur, (t.pads.at (.col 1)).out)) = some (none, true) := by decide
theorem test_k13_rejected_column :
    (on (.seq ⟨true, false⟩) { demo with cur := some .kpInit, acts := kpInitActs.drop 4 }).map
      (fun t => (statusWord t, t.acts, t.pads.at (.col 2))) = some (0x800, [], Pad.reset) := by decide
theorem test_i2_rejected_d5 :
    (on (.seq ⟨true, false⟩) { demo with cur := some .lcdInit, acts := (lcdInitActs demoParams).drop 3 }).map
      (fun t => (statusWord t, t.lcdReady, t.obs.pins)) = some (0x800, false, [.cfg .d5 .output false]) := by decide

/-! ## The host registers (L2.2) -/

theorem test_h4_read_key : (on (.host (.read 0x8 4)) { demo with key := ⟨true, 1, 2, 0x36⟩ }).map
    (fun t => (t.obs.reads.map (·.value), t.key.word)) = some ([0x80000636], 0x636) := by decide
theorem test_h5_write_key : on (.host (.write 0x8 4 0)) { demo with key := ⟨true, 1, 2, 0x36⟩ }
    = some { demo with key := ⟨true, 1, 2, 0x36⟩ } := by decide
theorem test_h6_clear_two :
    statusOn (.host (.write 0x4 4 0x300)) { ready with flags := ⟨true, true, true, true, false⟩ } = some 0xC0C := by
  decide
theorem test_h7_clear_all : statusOn (.host (.write 0x4 4 0xFFFFFFFF))
    { ready with flags := ⟨true, true, true, true, true⟩, key := ⟨true, 0, 0, 0⟩ } = some 0xE := by decide
theorem test_h8_ro_bits :
    statusOn (.host (.write 0x4 4 0xF)) { demo with flags := ⟨false, false, false, true, false⟩ } = some 0x800 := by decide
theorem test_h9_refused :
    on (.host (.read 0x4 1)) demo = none ∧ on (.host (.read 0x6 4)) demo = none := by decide
theorem test_h10_read_at_event :
    (on (.both (.read 0x8 4) ⟨false, true⟩) { scanning ⟨.read, 1, 2, false⟩ with key := ⟨true, 2, 3, 0x23⟩ }).map
      (fun t => (t.obs.reads.map (·.value), t.key.word)) = some ([0x80000B23], 0x80000636) := by decide
theorem test_h11_set_wins :
    (on (.both (.write 0x4 4 0x1000) ⟨false, true⟩)
      { scanning ⟨.read, 1, 2, false⟩ with key := ⟨true, 2, 3, 0x23⟩ }).map (fun t => t.flags.kovr) = some true := by decide

/-! ## Reset (L2.8), contacts (R77, L2.3 K15) -/

theorem test_x1_reset_in_release : on .reset { scanning ⟨.release, 1, 2, true⟩ with key := ⟨true, 1, 2, 0x36⟩ }
    = some { demo with obs := ⟨initEvents ++ [.reset], [], []⟩ } := by decide
theorem test_k15_two_keys_in_a_row :
    contactLevel [(1, 0), (1, 2)] (scanning ⟨.read, 0, 1, false⟩).pads 1 = none := by decide
theorem test_k3_key_pulls_its_row :
    contactLevel [(2, 1)] (scanning ⟨.read, 1, 2, false⟩).pads 2 = some false ∧
    contactLevel [(2, 1)] (scanning ⟨.read, 0, 2, false⟩).pads 2 = some true := by decide

/-! ## The invariants' witnesses -/

theorem ready_sequencerInv : SequencerInv ready := sequencerInv_of_idle rfl rfl rfl

theorem demo_sequencerInv : SequencerInv demo := sequencerInv_of_idle rfl rfl rfl

theorem scanning_sequencerInv (c : Scan) : SequencerInv (scanning c) := by
  constructor <;> simp +contextual [scanning, ready, demo, State.resetIn, Runs, LcdCommand, LcdTransfer]

theorem ready_configured : KeypadConfigured ready.pads := by unfold KeypadConfigured; decide

theorem scanning_columnInv : ColumnInv (scanning ⟨.read, 1, 2, false⟩) := by
  refine ⟨scanning_sequencerInv _, ?_, ?_, ?_, ?_, ?_⟩
  · intro _; unfold KeypadConfigured; decide
  · intro _ h; exact absurd rfl h
  · intro _; decide
  · intro _; decide
  · intro h; simp [scanning] at h

/-- The last action of an LCD_CMD: the closing wait of its second latch. -/
def closing : State :=
  { running (.lcdCmd 0x28) [.wait 500] with
    pads := padsOf (initEvents ++ ((sendActs demoParams 0x28 false).take 20).map acceptedEvent)
    obs := ⟨initEvents ++ ((sendActs demoParams 0x28 false).take 20).map acceptedEvent, [], []⟩ }

theorem closing_sequencerInv : SequencerInv closing := by
  constructor <;>
    simp +contextual [closing, running, ready, demo, State.resetIn, Runs, LcdCommand, LcdTransfer, onLcd, primPin]

theorem closing_lcdTimingInv : LcdTimingInv closing := by
  refine ⟨closing_sequencerInv, ?_, ?_, ?_⟩
  · decide
  · intro h; exact absurd trivial (h (.lcdCmd 0x28) rfl)
  · intro i _ _; exact ⟨by decide, by decide, by decide, by decide⟩

theorem ready_lcdTimingInv : LcdTimingInv ready := by
  refine ⟨ready_sequencerInv, ?_, ?_, ?_⟩
  · decide
  · intro _; exact ⟨by decide, by decide, by decide⟩
  · intro i h; simp [ready, demo, State.resetIn] at h

theorem ready_columnInv : ColumnInv ready := by
  refine ⟨ready_sequencerInv, ?_, ?_, ?_, ?_, ?_⟩
  · intro _; exact ready_configured
  · intro _ _; unfold ColumnsHigh; decide
  · intro h; simp [ready, demo, State.resetIn] at h
  · intro h; simp [ready, demo, State.resetIn] at h
  · intro h; simp [ready, demo, State.resetIn] at h

/-! ## Witnesses: encoding and acceptance

One theorem per statement, or per clause of it, that shows a state and operands meeting its hypotheses together. -/

theorem witness_EncodeInvertsDecode : ∃ w i, decode w = .ok i := ⟨0x80000001, .lcdWriteLine .line2, by decide⟩

/-- Each of the four cases of R94, written to an idle block. -/
theorem witness_IllegalWordsAreExactlyTheListed :
    ∀ w ∈ [(0x40000100 : Word), 0x90000000, 0x60000001, 0x80000002], ∃ (s : State) (rest : List Input), s.cur = none ∧
      s.inputs = .host (.write 0x0 4 w) :: rest ∧ ∃ e, decode w = .error e := by
  intro w hw
  refine ⟨{ demo with inputs := [cmd w] }, [], rfl, rfl, ?_⟩
  simp only [List.mem_cons, List.not_mem_nil, or_false] at hw
  rcases hw with rfl | rfl | rfl | rfl
  · exact ⟨.reservedBits, by decide⟩
  · exact ⟨.reservedOpcode, by decide⟩
  · exact ⟨.operandNotZero, by decide⟩
  · exact ⟨.lineNotOneBit, by decide⟩

theorem witness_OpcodeRowsAreDisjointAndComplete :
    ∃ (w : Word), ∃ r ∈ opcodeRows, ∃ r' ∈ opcodeRows, r.has w = true ∧ r'.has w = true :=
  ⟨0x400000FF, ⟨"LCD_CMD", 0x40000000, 0xFFFFFF00⟩, by decide, ⟨"LCD_CMD", 0x40000000, 0xFFFFFF00⟩, by decide, by decide⟩

theorem witness_StepRunsTheDecodedCommand :
    (∃ (s : State) (w : Word) (i : Instr) (rest : List Input), decode w = .ok i ∧ s.cur ≠ none ∧
      s.inputs = .host (.write 0x0 4 w) :: rest) ∧
    ∃ (s : State) (w : Word) (i : Instr) (rest : List Input), decode w = .ok i ∧ s.cur = none ∧
      (∃ ans, s.inputs = .both (.write 0x0 4 w) ans :: rest) ∧ SubmitsWord s w rest :=
  ⟨⟨{ scanning ⟨.read, 0, 0, false⟩ with inputs := [cmd 0x20000000] }, 0x20000000, .kpScan, [], by decide,
      by decide, rfl⟩,
   { demo with inputs := [.both (.write 0x0 4 0x50000041) ⟨true, true⟩] }, 0x50000041, .lcdData 0x41, [], by decide, rfl,
    ⟨⟨true, true⟩, rfl⟩, .inr ⟨⟨true, true⟩, rfl⟩⟩

/-- A legal word and an illegal one, written during a pass. -/
theorem witness_WriteWhileBusyRaisesOvr :
    ∀ w ∈ [(0x00000000 : Word), 0xFFFFFFFF], ∃ (s : State) (rest : List Input), s.cur ≠ none ∧
      s.inputs = .host (.write 0x0 4 w) :: rest :=
  fun w _ => ⟨{ scanning ⟨.release, 3, 3, true⟩ with inputs := [cmd w] }, [], Option.some_ne_none Instr.kpScan, rfl⟩

theorem witness_UnreadyUnitRaisesNotinit : ∃ s : State, s.cur = none ∧ s.kpReady = false ∧ s.lcdReady = false :=
  ⟨demo, rfl, rfl, rfl⟩

theorem witness_NopDoesNothing :
    (∃ s : State, s.cur = none) ∧ (∃ s : State, s.cur ≠ none) ∧ ∃ w : Word, w.extractLsb' 28 4 = 0 ∧ w ≠ 0 :=
  ⟨⟨demo, rfl⟩, ⟨scanning ⟨.read, 0, 0, false⟩, by decide⟩, 0x00000001, by decide, by decide⟩

theorem witness_LbBeginClearsTheLine : (∃ s : State, s.cur ≠ none) ∧ ∃ s : State, s.cur = none ∧ s.lbIdx = 16 :=
  ⟨⟨scanning ⟨.read, 0, 0, false⟩, by decide⟩, { demo with lbIdx := 16 }, rfl, rfl⟩

/-- The line full, empty, and with one place left. -/
theorem witness_LbPutAppendsOrDrops :
    (∃ s : State, s.cur ≠ none) ∧ (∃ s : State, s.cur = none ∧ s.lbIdx = 16) ∧
    ∀ k ∈ [(0 : Fin 16), 15], ∃ s : State, s.cur = none ∧ s.lbIdx = k.castSucc :=
  ⟨⟨scanning ⟨.read, 0, 0, false⟩, by decide⟩, ⟨{ demo with lbIdx := 16 }, rfl, rfl⟩,
   fun k _ => ⟨{ demo with lbIdx := k.castSucc }, rfl, rfl⟩⟩

theorem witness_LineIsPaddedOrTruncated : ∃ s : State, s.cur = none := ⟨demo, rfl⟩

theorem witness_RunningCommandsAreAccepted :
    ∃ s : State, s.cur = none ∧ s.kpReady = true ∧ s.lcdReady = true := ⟨ready, rfl, rfl, rfl⟩

/-! ## Witnesses: the display transfer -/

theorem witness_ByteCommandsRunToTheEnd :
    (∃ s : State, SequencerInv s ∧ s.cur = none ∧ s.lcdReady = true) ∧
    ∀ t : State, ∃ as : List Answer, as.length = workLeft t :=
  ⟨⟨ready, ready_sequencerInv, rfl, rfl⟩, fun t => ⟨List.replicate (workLeft t) ⟨true, true⟩, List.length_replicate⟩⟩

theorem witness_LcdInitRunsToReady :
    ∃ s t : State, LcdTimingInv s ∧ s.cur = none ∧ exec .lcdInit s = .next t ∧
      ∃ as : List Answer, Follows s.params as (t.acts.map acceptedEvent) :=
  ⟨ready, _, ready_lcdTimingInv, rfl, rfl, _, follows_acts _ _⟩

theorem witness_WriteLineRunsToTheEnd :
    ∃ s t : State, SequencerInv s ∧ s.cur = none ∧ s.lcdReady = true ∧ exec (.lcdWriteLine .line2) s = .next t ∧
      ∃ as : List Answer, as.length = workLeft t :=
  ⟨ready, _, ready_sequencerInv, rfl, rfl, rfl, _, List.length_replicate (a := ⟨true, true⟩)⟩

/-- Two states that differ in their line buffers, their pads and their keypads. -/
theorem witness_LineWriteIsIdempotent :
    ∃ s s' : State, s.cur = none ∧ s'.cur = none ∧ s.lcdReady = true ∧ s'.lcdReady = true ∧ s.params = s'.params ∧
      s.lb ≠ s'.lb ∧ s.pads ≠ s'.pads ∧ s.kpReady ≠ s'.kpReady :=
  ⟨ready, { demo with lcdReady := true, lb := Vector.replicate 16 0x41 }, rfl, rfl, rfl, rfl, rfl, by decide, by decide,
    by decide⟩

/-! ## Witnesses: the keypad -/

theorem witness_KpInitRunsToReady :
    ∃ s t : State, SequencerInv s ∧ s.cur = none ∧ exec .kpInit s = .next t ∧
      ∃ as : List Answer, as.length = 16 ∧ ∀ a ∈ as, a.ack = true :=
  ⟨demo, _, demo_sequencerInv, rfl, rfl, List.replicate 16 ⟨true, true⟩, by decide, by decide⟩

/-- A state whose command has the action at its head and a write after it. -/
def headed (a : Prim) : State :=
  { running .lcdInit [a, .write .e false] with lcdReady := false, inputs := [.seq ⟨true, true⟩] }

theorem witness_ListActionsChangeTheirPadBit :
    ∀ a ∈ [Prim.cfg .rs .output, .pullUp (.row 3), .write .d7 true],
      ∃ (s : State) (c : Instr) (rest : List Prim) (ans : Answer) (later : List Input),
        s.cur = some c ∧ c ≠ .kpScan ∧ s.waitLeft = 0 ∧ s.acts = a :: rest ∧ rest ≠ [] ∧ s.inputs = .seq ans :: later ∧
          ans.ack = true :=
  fun a _ => ⟨headed a, .lcdInit, [.write .e false], ⟨true, true⟩, [], rfl, by decide, rfl, rfl, by decide, rfl, rfl⟩

theorem witness_RejectedConfigurationEndsTheCommand :
    ∀ a ∈ [Prim.cfg (.col 2) .output, .pullUp (.row 1)],
      ∃ (s : State) (c : Instr) (rest : List Prim) (ans : Answer) (later : List Input) (ev : PinEvent),
        s.cur = some c ∧ c ≠ .kpScan ∧ s.waitLeft = 0 ∧ s.acts = a :: rest ∧ ans.ack = false ∧
        ((∃ p d, a = .cfg p d ∧ ev = .cfg p d false) ∨ ∃ p, a = .pullUp p ∧ ev = .pullUp p false) ∧
        s.inputs = .seq ans :: later := by
  intro a ha
  simp only [List.mem_cons, List.not_mem_nil, or_false] at ha
  rcases ha with rfl | rfl
  · exact ⟨{ headed (.cfg (.col 2) .output) with inputs := [.seq ⟨true, false⟩] }, .lcdInit, _, _, _, _, rfl, by decide,
      rfl, rfl, rfl, .inl ⟨.col 2, .output, rfl, rfl⟩, rfl⟩
  · exact ⟨{ headed (.pullUp (.row 1)) with inputs := [.seq ⟨true, false⟩] }, .lcdInit, _, _, _, _, rfl, by decide,
      rfl, rfl, rfl, .inr ⟨.row 1, rfl, rfl⟩, rfl⟩

/-- A scan position whose turn is SEQ's, a read answering `lvl`. -/
def turn (c : Scan) (lvl : Level) : State := { scanning c with inputs := [.seq ⟨lvl, true⟩] }

/-- Every line of the loop: the first and the last column and row, a pass with a hit and one without, a build with a
settle wait and one without. -/
theorem witness_ScanFollowsItsLoop :
    ∀ c ∈ [(⟨.drive, 0, 0, false⟩ : Scan), ⟨.drive, 3, 3, false⟩, ⟨.settle, 0, 0, false⟩, ⟨.read, 0, 0, false⟩,
        ⟨.read, 3, 3, false⟩, ⟨.restore, 0, 3, false⟩, ⟨.restore, 2, 1, true⟩, ⟨.restore, 3, 3, false⟩],
      ∀ ts ∈ [0, 10], ∃ (s : State) (ans : Answer) (later : List Input), s.cur = some .kpScan ∧ s.waitLeft = 0 ∧
        s.inputs = .seq ans :: later ∧ s.scan = c ∧ ans.level = true ∧ s.params.tScanSettle = ts :=
  fun c _ ts _ => ⟨{ turn c true with params := { demoParams with tScanSettle := ts } }, ⟨true, true⟩, [], rfl, rfl, rfl,
    rfl, rfl, rfl⟩

/-- An event while KEY is read, and one while it is not. -/
theorem witness_LowReadMakesAKeyEvent :
    ∀ v ∈ [true, false], ∃ (s : State) (ans : Answer) (later : List Input),
      s.cur = some .kpScan ∧ s.waitLeft = 0 ∧ s.scan.phase = .read ∧ ans.level = false ∧ s.inputs = .seq ans :: later ∧
        s.key.valid = v :=
  fun v _ => ⟨{ turn ⟨.read, 1, 2, false⟩ false with key := ⟨v, 0, 0, 0⟩ }, ⟨false, true⟩, [], rfl, rfl, rfl, rfl, rfl,
    rfl⟩

theorem witness_ReleaseWaitLastsWhileTheRowIsLow :
    ∃ (s : State) (as : List Answer), s.cur = some .kpScan ∧ s.waitLeft = 0 ∧ s.scan.phase = .release ∧
      (∀ a ∈ as, a.level = false) ∧ as.length = 3 :=
  ⟨scanning ⟨.release, 1, 2, true⟩, List.replicate 3 ⟨false, true⟩, rfl, rfl, rfl, by decide, by decide⟩

/-- The three ways on: the build's default, and without PASS_END_ON_EVENT after row 2 and after row 3. -/
theorem witness_ReleaseEndsTheWait :
    ∀ x ∈ [(true, (2 : Fin 4)), (false, 2), (false, 3)], ∃ (s : State) (ans : Answer) (later : List Input),
      s.cur = some .kpScan ∧ s.waitLeft = 0 ∧ s.scan.phase = .release ∧ ans.level = true ∧
        s.inputs = .seq ans :: later ∧ s.params.passEndOnEvent = x.1 ∧ s.scan.i = x.2 :=
  fun x _ => ⟨{ turn ⟨.release, 1, x.2, true⟩ true with params := { demoParams with passEndOnEvent := x.1 } },
    ⟨true, true⟩, [], rfl, rfl, rfl, rfl, rfl, rfl, rfl⟩

theorem quietColumn_no_reset (p : Params) (j : Fin 4) : PinEvent.reset ∉ quietColumn p j := by
  simp only [quietColumn, settleEvents]
  split <;> simp

theorem quietPass_no_reset (p : Params) : PinEvent.reset ∉ quietPass p := by
  simp [quietPass, quietColumn_no_reset]

theorem witness_QuietPassFindsNoKey :
    ∀ ts ∈ [0, 10], ∃ s t : State, SequencerInv s ∧ s.cur = none ∧ s.kpReady = true ∧ exec .kpScan s = .next t ∧
      s.params.tScanSettle = ts ∧ ∃ as : List Answer, Follows s.params as (quietPass s.params) :=
  fun ts _ => ⟨{ ready with params := { demoParams with tScanSettle := ts } }, _, sequencerInv_of_idle rfl rfl rfl, rfl,
    rfl, rfl, rfl, _, follows_answersFor _ (quietPass_no_reset _)⟩

/-- The first key of the matrix, released at once, and the last, held. -/
theorem witness_PassReportsTheFirstKey :
    ∀ x ∈ [((0 : Fin 4), (0 : Fin 4), 0), (3, 3, 2)], ∃ s t : State, SequencerInv s ∧ s.cur = none ∧ s.kpReady = true ∧
      s.params.passEndOnEvent = true ∧ exec .kpScan s = .next t ∧
      ∃ as : List Answer, Follows s.params as (hitPass s.params x.2.1 x.1 x.2.2) := by
  intro x _
  refine ⟨ready, _, ready_sequencerInv, rfl, rfl, rfl, rfl, _, follows_answersFor _ ?_⟩
  simp only [hitPass, hitColumn, settleEvents]
  split <;> simp [quietColumn_no_reset]

theorem witness_OneHeldKeyGivesOneEvent :
    ∀ i j : Fin 4, ∃ s t : State, ColumnInv s ∧ s.cur = none ∧ s.kpReady = true ∧ s.params.passEndOnEvent = true ∧
      exec .kpScan s = .next t ∧ ∃ (n : Nat) (as : List Answer), stepsToRead s.params i j ≤ n ∧
        AnswersContacts (List.replicate n [(i, j)] ++ [[], []]) as t :=
  fun i j => ⟨ready, _, ready_columnInv, rfl, rfl, rfl, rfl, stepsToRead demoParams i j,
    (exists_answersContacts _ _).choose, Nat.le_refl _, (exists_answersContacts _ _).choose_spec⟩

theorem witness_ReleasedKeypadGivesNoEvent :
    ∃ s t : State, ColumnInv s ∧ s.cur = none ∧ s.kpReady = true ∧ exec .kpScan s = .next t ∧
      ∃ (n : Nat) (as : List Answer), 4 * columnSteps s.params ≤ n ∧ AnswersContacts (List.replicate n []) as t :=
  ⟨ready, _, ready_columnInv, rfl, rfl, rfl, 4 * columnSteps demoParams, (exists_answersContacts _ _).choose,
    Nat.le_refl _, (exists_answersContacts _ _).choose_spec⟩

theorem witness_RowsReadHighBetweenPasses : ∃ v : Pads, KeypadConfigured v ∧ ColumnsHigh v :=
  ⟨ready.pads, ready_configured, by unfold ColumnsHigh; decide⟩

theorem witness_OneKeyPullsOnlyItsRowInItsColumn :
    ∀ c : Fin 4, ∃ v : Pads, KeypadConfigured v ∧ ∀ k, (v.at (.col k)).out = decide (k ≠ c) := by
  intro c
  refine ⟨ready.pads.setOut (.col c) false, ?_, ?_⟩
  · unfold KeypadConfigured
    revert c
    decide
  · revert c
    decide

/-! ## Witnesses: the host registers and HOST's programs -/

/-- A state in each state of SEQ that STATUS shows. -/
theorem witness_StatusWordHasItsFields :
    ∀ c ∈ [none, some Instr.kpInit, some .lcdInit, some (.lcdCmd 0), some (.lcdData 0xFF), some (.lcdWriteLine .line1),
        some .kpScan],
      ∀ ph ∈ [Phase.drive, .settle, .read, .release, .restore],
        ∃ s : State, s.cur = c ∧ s.scan.phase = ph :=
  fun c _ ph _ => ⟨{ ready with cur := c, scan := ⟨ph, 0, 0, false⟩ }, rfl, rfl⟩

/-- A STATUS write alone; with a KOVR event; with a rejected configuration and a rejected pull-up. -/
theorem witness_StatusWriteClearsItsOnes :
    (∃ (s : State) (v : Word) (rest : List Input), s.inputs = .host (.write 0x4 4 v) :: rest) ∧
    (∃ (s : State) (v : Word) (ans : Answer) (rest : List Input), s.inputs = .both (.write 0x4 4 v) ans :: rest ∧
      s.waitLeft = 0 ∧ s.cur = some .kpScan ∧ s.scan.phase = .read ∧ ans.level = false ∧ s.key.valid = true) ∧
    ∀ a ∈ [Prim.cfg .d5 .output, .pullUp (.row 1)],
      ∃ (s : State) (v : Word) (ans : Answer) (rest : List Input) (c : Instr) (more : List Prim),
        s.inputs = .both (.write 0x4 4 v) ans :: rest ∧ s.waitLeft = 0 ∧ s.cur = some c ∧ c ≠ .kpScan ∧
        s.acts = a :: more ∧ ans.ack = false ∧ ((∃ p d, a = .cfg p d) ∨ ∃ p, a = .pullUp p) := by
  refine ⟨⟨{ demo with inputs := [.host (.write 0x4 4 0x1F00)] }, 0x1F00, [], rfl⟩,
    ⟨{ turn ⟨.read, 1, 2, false⟩ false with
        key := ⟨true, 0, 0, 0⟩, inputs := [.both (.write 0x4 4 0x1000) ⟨false, true⟩] },
      0x1000, ⟨false, true⟩, [], rfl, rfl, rfl, rfl, rfl, rfl⟩, ?_⟩
  intro a ha
  refine ⟨{ headed a with inputs := [.both (.write 0x4 4 0x800) ⟨true, false⟩] }, 0x800, ⟨true, false⟩, [], .lcdInit,
    [.write .e false], rfl, rfl, rfl, by decide, rfl, rfl, ?_⟩
  simp only [List.mem_cons, List.not_mem_nil, or_false] at ha
  rcases ha with rfl | rfl
  · exact .inl ⟨_, _, rfl⟩
  · exact .inr ⟨_, rfl⟩

/-- Every flag set: in SEQ's turn, in a STATUS read, and in a STATUS write of zeros, alone and in common with SEQ. -/
theorem witness_StickyFlagsStayUntilCleared :
    ∀ inp ∈ [Input.seq ⟨true, true⟩, .host (.read 0x4 4), .host (.write 0x4 4 0), .both (.write 0x4 4 0) ⟨true, true⟩],
      ∃ s t : State, step s = .next t ∧ (∀ rest, s.inputs ≠ .reset :: rest) ∧ s.inputs = [inp] ∧
        s.flags = ⟨true, true, true, true, true⟩ ∧ ∀ k ∈ [8, 9, 10, 11, 12], ¬ ClearsBit s k := by
  intro inp h
  simp only [List.mem_cons, List.not_mem_nil, or_false] at h
  rcases h with rfl | rfl | rfl | rfl <;>
    exact ⟨{ turn ⟨.read, 1, 2, false⟩ true with flags := ⟨true, true, true, true, true⟩, inputs := [_] }, _, rfl,
      by simp, rfl, rfl, by simp [ClearsBit]⟩

theorem witness_KeyReadConsumesTheEvent :
    (∃ (s : State) (rest : List Input), s.inputs = .host (.read 0x8 4) :: rest ∧ s.key.valid = true) ∧
    ∃ (s : State) (ans : Answer) (rest : List Input), s.inputs = .both (.read 0x8 4) ans :: rest ∧
      s.cur = some .kpScan ∧ s.waitLeft = 0 ∧ s.scan.phase = .read ∧ ans.level = false :=
  ⟨⟨{ demo with key := ⟨true, 1, 2, 0x36⟩, inputs := [.host (.read 0x8 4)] }, [], rfl, rfl⟩,
   { turn ⟨.read, 1, 2, false⟩ false with inputs := [.both (.read 0x8 4) ⟨false, true⟩] }, ⟨false, true⟩, [], rfl, rfl,
    rfl, rfl, rfl⟩

theorem witness_OtherAccessesHaveNoEffect :
    ∀ a ∈ [HostAccess.read 0x0 4, .read 0xC 4, .read 0x4 4, .write 0x8 4 0xFFFFFFFF, .write 0xC 4 0xFFFFFFFF],
      ∃ (s : State) (rest : List Input), s.inputs = .host a :: rest :=
  fun a _ => ⟨{ scanning ⟨.read, 1, 2, false⟩ with inputs := [.host a] }, [], rfl⟩

/-- A narrow access and an unaligned one, alone and with SEQ. -/
theorem witness_OnlyInadmissibleAccessesStop :
    (∃ s : State, ∃ r, step s = .refused r) ∧
    ∀ a ∈ [HostAccess.read 0x4 1, .write 0x6 4 0], ∃ s s' : State, s.inputs = [.host a] ∧
      s'.inputs = [.both a ⟨true, true⟩] :=
  ⟨⟨{ demo with inputs := [.host (.read 0x4 1)] }, _, rfl⟩,
   fun a _ => ⟨{ demo with inputs := [.host a] }, { demo with inputs := [.both a ⟨true, true⟩] }, rfl, rfl⟩⟩

/-- A host program of command lines. -/
def lines : List HostOp := [.command .kpInit, .command .kpScan, .pollIdle, .read 0x8 5]

/-- HOST about to write its first word, alone and with SEQ; and HOST polling while a pass runs. -/
theorem witness_CommandLinesNeverOverrun :
    (∀ t ∈ [Turn.host, .both ⟨true, true⟩], ∃ (h h' : HostState) (s s' : State), CommandsByLine h ∧ SequencerInv s ∧
      PolledIdle h s ∧ h.polled = true ∧ systemStep t h s = .next (h', s') ∧ s.flags.ovr = false) ∧
    ∃ (h h' : HostState) (s s' : State), CommandsByLine h ∧ SequencerInv s ∧ PolledIdle h s ∧ s.cur ≠ none ∧
      systemStep .host h s = .next (h', s') ∧ s.flags.ovr = false := by
  have hl : ∀ off v, HostOp.write off v ∈ lines → off ≠ 0x0 := by simp [lines]
  constructor
  · intro t ht
    simp only [List.mem_cons, List.not_mem_nil, or_false] at ht
    rcases ht with rfl | rfl <;>
      exact ⟨⟨lines, 0, true, []⟩, _, demo, _, hl, demo_sequencerInv, fun _ => rfl, rfl, rfl, rfl⟩
  · exact ⟨⟨lines, 1, false, []⟩, _, scanning ⟨.read, 1, 2, false⟩, _, hl, scanning_sequencerInv _,
      fun h => absurd h (by decide), by decide, rfl, rfl⟩

/-- With an event waiting and with none. -/
theorem witness_GetkeyTakesTheEvent :
    ∀ v ∈ [true, false], ∃ (h : HostState) (s : State) (at_ x : Nat),
      (∀ k, k < 4 → h.prog[at_ + k]? = (getkeyLines at_ x)[k]?) ∧ h.line = at_ + 2 ∧ s.key.valid = v :=
  fun v _ => ⟨⟨.command .kpInit :: getkeyLines 1 5, 3, false, []⟩, { ready with key := ⟨v, 1, 2, 0x36⟩ }, 1, 5, by decide,
    rfl, rfl⟩

/-! ## Witnesses: reset and the whole machine -/

theorem witness_ResetSetsEveryElement : ∃ (s : State) (rest : List Input), s.inputs = .reset :: rest ∧ s.cur ≠ none :=
  ⟨{ scanning ⟨.release, 1, 2, true⟩ with inputs := [.reset] }, [], rfl, by decide⟩

/-- SEQ's turn in a pass, and in the last action of a display command. -/
theorem witness_StepKeepsSequencerInv :
    (∃ s t : State, SequencerInv s ∧ step s = .next t ∧ s.cur = some .kpScan) ∧
    ∃ s t : State, SequencerInv s ∧ step s = .next t ∧ s.cur = some (.lcdCmd 0x28) :=
  ⟨⟨scanning ⟨.read, 1, 2, false⟩, _, scanning_sequencerInv _, rfl, rfl⟩, closing, _, closing_sequencerInv, rfl, rfl⟩

theorem witness_StepKeepsColumnDiscipline : ∃ s t : State, ColumnInv s ∧ step s = .next t ∧ s.cur = some .kpScan :=
  ⟨scanning ⟨.read, 1, 2, false⟩, _, scanning_columnInv, rfl, rfl⟩

theorem witness_StepKeepsLcdTiming : ∃ s t : State, LcdTimingInv s ∧ step s = .next t ∧ s.cur = some (.lcdCmd 0x28) :=
  ⟨closing, _, closing_lcdTimingInv, rfl, rfl⟩

theorem witness_StepKeepsPadsAsTraced : ∃ s t : State, PadsInv s ∧ step s = .next t ∧ s.cur = some (.lcdCmd 0x28) :=
  ⟨closing, _, rfl, rfl, rfl⟩

theorem witness_ParametersNeverChange : ∃ s t : State, step s = .next t ∧ s.cur = some .kpScan :=
  ⟨scanning ⟨.read, 1, 2, false⟩, _, rfl, rfl⟩

theorem witness_HostNeverDisturbsTheCommand :
    (∃ (s t : State) (a : HostAccess) (rest : List Input), s.cur ≠ none ∧ s.inputs = .host a :: rest ∧
      step s = .next t) ∧
    ∃ (s : State) (w : Word) (ans : Answer) (rest : List Input), s.cur ≠ none ∧
      s.inputs = .both (.write 0x0 4 w) ans :: rest :=
  ⟨⟨{ closing with inputs := [cmd 0x30000000] }, _, .write 0x0 4 0x30000000, [], by decide, rfl, rfl⟩,
   { scanning ⟨.read, 1, 2, false⟩ with inputs := [.both (.write 0x0 4 0) ⟨true, true⟩] }, 0, ⟨true, true⟩, [], by decide,
    rfl⟩

/-- A display command and a pass. -/
theorem witness_UnitsDoNotTouchEachOther :
    (∃ (s t : State) (ans : Answer) (rest : List Input) (c : Instr), SequencerInv s ∧ s.cur = some c ∧
      s.inputs = .seq ans :: rest ∧ step s = .next t ∧ LcdCommand c) ∧
    ∃ (s t : State) (ans : Answer) (rest : List Input) (c : Instr), SequencerInv s ∧ s.cur = some c ∧
      s.inputs = .seq ans :: rest ∧ step s = .next t ∧ ¬ LcdCommand c := by
  constructor
  · refine ⟨{ closing with inputs := [.seq ⟨true, true⟩] }, _, ⟨true, true⟩, [], .lcdCmd 0x28, ?_, rfl, rfl, rfl, trivial⟩
    obtain ⟨h1, h2, h3, h4, h5, h6, h7, h8⟩ := closing_sequencerInv
    exact ⟨h1, h2, h3, h4, h5, h6, h7, h8⟩
  · refine ⟨turn ⟨.read, 1, 2, false⟩ true, _, ⟨true, true⟩, [], .kpScan, ?_, rfl, rfl, rfl, fun h => h⟩
    obtain ⟨h1, h2, h3, h4, h5, h6, h7, h8⟩ := scanning_sequencerInv ⟨.read, 1, 2, false⟩
    exact ⟨h1, h2, h3, h4, h5, h6, h7, h8⟩

/-- LB_BEGIN, LB_PUT and reset on a line that is not blank. -/
theorem witness_OnlyLbCommandsWriteTheLine :
    ∀ inp ∈ [cmd 0x60000000, cmd 0x70000041, .reset], ∃ s t : State, step s = .next t ∧ t.lb ≠ s.lb ∧
      s.inputs = [inp] := by
  intro inp h
  simp only [List.mem_cons, List.not_mem_nil, or_false] at h
  rcases h with rfl | rfl | rfl <;>
    exact ⟨{ demo with lb := Vector.replicate 16 0x61, inputs := [_] }, _, rfl, by decide, rfl⟩

/-- The last action of each INIT. -/
theorem witness_ReadyOnlyByASuccessfulInit :
    (∃ s t : State, step s = .next t ∧ s.kpReady = false ∧ t.kpReady = true ∧ s.flags.cfgerr = false) ∧
    ∃ s t : State, step s = .next t ∧ s.lcdReady = false ∧ t.lcdReady = true ∧ s.flags.cfgerr = false :=
  ⟨⟨{ demo with cur := some .kpInit, acts := [.pullUp (.row 3)], inputs := [.seq ⟨true, true⟩] }, _, rfl, rfl, by decide,
    rfl⟩,
   { demo with cur := some .lcdInit, waitLeft := 1, inputs := [.seq ⟨true, true⟩] }, _, rfl, rfl, by decide, rfl⟩

/-- An event, HOST's read, and reset. -/
theorem witness_KeyHasThreeWriters :
    ∀ inp ∈ [Input.seq ⟨false, true⟩, .host (.read 0x8 4), .reset], ∃ s t : State, step s = .next t ∧ t.key ≠ s.key ∧
      s.inputs = [inp] := by
  intro inp h
  simp only [List.mem_cons, List.not_mem_nil, or_false] at h
  rcases h with rfl | rfl | rfl <;>
    exact ⟨{ scanning ⟨.read, 1, 2, false⟩ with key := ⟨true, 2, 3, 0x23⟩, inputs := [_] }, _, rfl, by decide, rfl⟩

theorem witness_ListCommandsEnd :
    ∃ (s : State) (c : Instr) (as : List Answer), SequencerInv s ∧ s.cur = some c ∧ c ≠ .kpScan ∧
      as.length = workLeft s :=
  ⟨closing, .lcdCmd 0x28, List.replicate (workLeft closing) ⟨true, true⟩, closing_sequencerInv, rfl, by decide,
    List.length_replicate⟩

/-- A wait that begins, and one with at least two cycles left. -/
theorem witness_WaitsLastTheirCycles :
    (∃ (s : State) (c : Instr) (us : Nat) (rest : List Prim) (ans : Answer) (later : List Input),
      s.cur = some c ∧ c ≠ .kpScan ∧ s.waitLeft = 0 ∧ s.acts = .wait us :: rest ∧ s.inputs = .seq ans :: later ∧
        rest ≠ []) ∧
    ∃ (s : State) (c : Instr) (ans : Answer) (later : List Input), s.cur = some c ∧ 2 ≤ s.waitLeft ∧
      s.inputs = .seq ans :: later :=
  ⟨⟨headed (.wait 500), .lcdInit, 500, [.write .e false], ⟨true, true⟩, [], rfl, by decide, rfl, rfl, rfl, by decide⟩,
   { headed (.wait 500) with waitLeft := 2 }, .lcdInit, ⟨true, true⟩, [], rfl, by decide, rfl⟩

/-- Two states that differ, and only in what has been observed. -/
theorem witness_ObservationIsNeverRead : ∃ s s' : State, forget s = forget s' ∧ s ≠ s' :=
  ⟨ready, { ready with obs := ⟨[], [], []⟩ }, rfl, by decide⟩

end Sys2Proof.Tests
end

section
/-! Settles the statements of 10_state.md about KEY: what HOST's read of KEY does, alone and in the step of a key
event. -/

namespace Sys2Proof.Machine

/-- HOST's read of KEY is admitted and consumes the event (R27, R61). -/
theorem hostStep_read_key (s : State) :
    hostStep (.read 0x8 4) s = .next { s with
      key := s.key.consumed
      obs := { s.obs with reads := s.obs.reads ++ [⟨0x8, s.key.word⟩] } } := by
  have admitted : accessAdmitted 0x8 4 = true := by decide
  rw [hostStep, if_pos admitted, hostRead_key]

/-- HOST's read of KEY in the step of a key event (R27): the read comes first, so it returns the old word and the event
finds VALID clear; KOVR stays as it was. -/
theorem bothStep_read_key_with_event {s : State} {ans : Answer} (hc : s.cur = some .kpScan) (hw : s.waitLeft = 0)
    (hp : s.scan.phase = .read) (hl : ans.level = false) :
    bothStep (.read 0x8 4) ans s = .next { s with
      key := KeyReg.ofEvent s.params s.scan.i s.scan.j
      scan := { s.scan with phase := .release, hit := true }
      obs :=
        { pins := s.obs.pins ++ [.read (.row s.scan.i) false]
          keys := s.obs.keys ++ [⟨s.scan.i, s.scan.j, symbolCode (keyAt s.params s.scan.i s.scan.j)⟩]
          reads := s.obs.reads ++ [⟨0x8, s.key.word⟩] } } := by
  have running : s.cur ≠ none := by simp [hc]
  rw [bothStep_busy running (hostStep_read_key s)]
  refine congrArg Host.Outcome.next (Eq.trans (seqStep_low_read hc hw hp hl) ?_)
  simp [KeyReg.consumed]

/-- Settles O40: the read is HOST's own step, or comes before the event in their common step. -/
theorem keyReadConsumesTheEvent : Obligations.KeyReadConsumesTheEvent := by
  intro s w
  constructor
  · intro rest hi
    exact (step_host hi).trans (hostStep_read_key _)
  · intro ans rest hi hc hw hp hl
    exact ⟨_, (step_both hi).trans (bothStep_read_key_with_event hc hw hp hl), rfl, rfl, rfl, rfl, rfl⟩

end Sys2Proof.Machine
end

section
/-! Settles the statement of 30_encoding.md about the illegal words: which words the decoder refuses (R94), and what a
CMD write of one does on an idle block (R211). -/

namespace Sys2Proof

/-! ### The operand forms -/

/-- A command with no operand refuses every operand byte but zero (R91). -/
theorem decodeNone_illegal_iff (i : Instr) (arg : Byte) : (∃ e, decodeNone i arg = .error e) ↔ arg ≠ 0 := by
  by_cases h : arg = 0
  · simp [decodeNone, h]
  · exact iff_of_true ⟨.operandNotZero, if_neg h⟩ h

/-- The `line` form refuses an operand byte with a bit set above bit 0 (R91). -/
theorem decodeLine_illegal_iff (arg : Byte) :
    (∃ e, (decodeLine arg).map Instr.lcdWriteLine = .error e) ↔ arg.extractLsb' 1 7 ≠ 0 := by
  by_cases h : arg.extractLsb' 1 7 = 0
  · rw [decodeLine, if_pos h]
    cases arg.getLsbD 0 <;> simp [Except.map, h]
  · rw [decodeLine, if_neg h]
    exact iff_of_true ⟨.lineNotOneBit, rfl⟩ h

/-- Bits 7:1 of the operand byte are bits 7:1 of the word (R90). -/
theorem argField_extractLsb'_one_seven (w : Word) : (argField w).extractLsb' 1 7 = w.extractLsb' 1 7 :=
  BitVec.extractLsb'_extractLsb'_of_le (by decide)

/-! ### The decoder by kind of opcode (R91, R92) -/

theorem decode_of_rsvField_ne_zero {w : Word} (hr : rsvField w ≠ 0) : decode w = .error .reservedBits :=
  if_pos hr

theorem decode_of_operandless_opcode {w : Word} (hr : rsvField w = 0)
    (ho : (opcField w).toNat ∈ [0, 1, 2, 3, 6]) : ∃ i, decode w = decodeNone i (argField w) := by
  simp only [List.mem_cons, List.not_mem_nil, or_false] at ho
  rcases ho with h | h | h | h | h
  · exact ⟨.nop, by simp [decode, hr, h]⟩
  · exact ⟨.kpInit, by simp [decode, hr, h]⟩
  · exact ⟨.kpScan, by simp [decode, hr, h]⟩
  · exact ⟨.lcdInit, by simp [decode, hr, h]⟩
  · exact ⟨.lbBegin, by simp [decode, hr, h]⟩

theorem decode_of_byte_opcode {w : Word} (hr : rsvField w = 0) (ho : (opcField w).toNat ∈ [4, 5, 7]) :
    ∃ i, decode w = .ok i := by
  simp only [List.mem_cons, List.not_mem_nil, or_false] at ho
  rcases ho with h | h | h
  · exact ⟨.lcdCmd (argField w), by simp [decode, hr, h]⟩
  · exact ⟨.lcdData (argField w), by simp [decode, hr, h]⟩
  · exact ⟨.lbPut (argField w), by simp [decode, hr, h]⟩

theorem decode_of_line_opcode {w : Word} (hr : rsvField w = 0) (ho : (opcField w).toNat = 8) :
    decode w = (decodeLine (argField w)).map .lcdWriteLine := by
  simp [decode, hr, ho]

theorem decode_of_reserved_opcode {w : Word} (hr : rsvField w = 0) (ho : 9 ≤ (opcField w).toNat) :
    decode w = .error .reservedOpcode := by
  simp only [decode, hr, ne_eq, not_true_eq_false, if_false]
  split
  case h_10 => rfl
  all_goals omega

/-- Every opcode is of one of the four kinds: no operand, a byte, a line, reserved (R91, R92). -/
theorem opcode_kinds (n : Nat) : n ∈ [0, 1, 2, 3, 6] ∨ n ∈ [4, 5, 7] ∨ n = 8 ∨ 9 ≤ n := by
  simp only [List.mem_cons, List.not_mem_nil, or_false]
  omega

/-- The decoder refuses a word in the four cases of R94 and in no other: its reserved bits come first, then the kind of
its opcode decides. -/
theorem decode_illegal_iff (w : Word) :
    (∃ e, decode w = .error e) ↔
      rsvField w ≠ 0 ∨ 9 ≤ (opcField w).toNat ∨
      ((opcField w).toNat ∈ [0, 1, 2, 3, 6] ∧ argField w ≠ 0) ∨
      ((opcField w).toNat = 8 ∧ (argField w).extractLsb' 1 7 ≠ 0) := by
  by_cases hr : rsvField w = 0
  · rcases opcode_kinds (opcField w).toNat with ho | ho | ho | ho
    · obtain ⟨i, hd⟩ := decode_of_operandless_opcode hr ho
      have notReserved : ¬ 9 ≤ (opcField w).toNat := by simp at ho; omega
      have notLine : (opcField w).toNat ≠ 8 := by simp at ho; omega
      rw [hd, decodeNone_illegal_iff]
      simp [hr, ho, notReserved, notLine]
    · obtain ⟨i, hd⟩ := decode_of_byte_opcode hr ho
      simp only [List.mem_cons, List.not_mem_nil, or_false] at ho
      rcases ho with ho | ho | ho <;> simp [hd, hr, ho]
    · rw [decode_of_line_opcode hr ho, decodeLine_illegal_iff]
      simp [hr, ho]
    · exact iff_of_true ⟨_, decode_of_reserved_opcode hr ho⟩ (.inr (.inl ho))
  · exact iff_of_true ⟨_, decode_of_rsvField_ne_zero hr⟩ (.inl hr)

end Sys2Proof

namespace Sys2Proof.Machine

/-- A write of four bytes at offset 0 submits its word (R61, R64). -/
theorem hostStep_write_cmd (w : Word) (s : State) : hostStep (.write 0x0 4 w) s = acceptWord w s := by
  have admitted : accessAdmitted 0x0 4 = true := by decide
  rw [hostStep, if_pos admitted]
  rfl

/-- An idle block answers an illegal word with ILL (R211). -/
theorem acceptWord_illegal {w : Word} {s : State} (hc : s.cur = none) (hd : ∃ e, decode w = .error e) :
    acceptWord w s = .next (s.raise .ill) := by
  obtain ⟨e, hd⟩ := hd
  simp [acceptWord, hc, hd]

/-- Settles O4: the decoder's four ways to refuse a word, and acceptance of a refused word on an idle block. -/
theorem illegalWordsAreExactlyTheListed : Obligations.IllegalWordsAreExactlyTheListed := by
  intro w
  constructor
  · rw [← argField_extractLsb'_one_seven]
    exact decode_illegal_iff w
  · intro s rest hc hi hd
    calc step s = hostStep (.write 0x0 4 w) { s with inputs := rest } := step_host hi
      _ = acceptWord w { s with inputs := rest } := hostStep_write_cmd _ _
      _ = .next (({ s with inputs := rest } : State).raise .ill) := acceptWord_illegal hc hd

end Sys2Proof.Machine
end

section
/-! Settles the statement of 40_keypad.md about the key event: what a low read in a pass does (R125, R215). -/

namespace Sys2Proof.Machine

/-- Settles O28: the step is SEQ's turn, and SEQ's turn is the pass's low read. -/
theorem lowReadMakesAKeyEvent : Obligations.LowReadMakesAKeyEvent := by
  intro s ans later hc hw hp hl hi
  have turn : step s = .next (seqStep ans { s with inputs := later }) := step_seq hi
  have event := seqStep_low_read (s := { s with inputs := later }) hc hw hp hl
  exact turn.trans (congrArg Host.Outcome.next event)

end Sys2Proof.Machine
end

section
/-! Settles the statement of 41_lcd_transfer.md about the nibble split: what SEND adds to the latch trace (R158). -/

namespace Sys2Proof.Safety

open Sys2Proof.Machine

/-- The latch observer after a NIB and a TOGGLE: one record, of the nibble sent (R150, R151). -/
theorem see_nib_toggle (p : Params) (v : LatchView) (n : Nibble) :
    ((nibActs n ++ toggleActs p).map acceptedEvent).foldl LatchView.see v =
      { v with
        d4 := n.getLsbD 0, d5 := n.getLsbD 1, d6 := n.getLsbD 2, d7 := n.getLsbD 3
        pulse := false
        latches := v.latches ++ [⟨v.rs, n⟩] } := by
  rw [List.map_append, List.foldl_append, see_nib, see_toggle, LatchView.nibble, nibble_bits]

/-- The latch observer after a SEND: the low nibble is on the lines, and both nibbles are recorded (R152). -/
theorem see_send (p : Params) (v : LatchView) (b : Byte) (rs : Level) :
    ((sendActs p b rs).map acceptedEvent).foldl LatchView.see v =
      { rs := rs
        d4 := (lowNibble b).getLsbD 0, d5 := (lowNibble b).getLsbD 1
        d6 := (lowNibble b).getLsbD 2, d7 := (lowNibble b).getLsbD 3
        pulse := false
        latches := v.latches ++ [⟨rs, highNibble b⟩, ⟨rs, lowNibble b⟩] } := by
  have split : sendActs p b rs =
      .write .rs rs :: ((nibActs (highNibble b) ++ toggleActs p) ++ (nibActs (lowNibble b) ++ toggleActs p)) := by
    simp [sendActs]
  rw [split, List.map_cons, List.foldl_cons, List.map_append, List.foldl_append, see_nib_toggle, see_nib_toggle]
  simp [acceptedEvent, LatchView.see]

/-- Whatever the trace before it, SEND adds its byte's two nibbles to the latch trace, high nibble first (R158). -/
theorem latchTrace_append_send (p : Params) (t : List PinEvent) (b : Byte) (rs : Level) :
    latchTrace (t ++ (sendActs p b rs).map acceptedEvent) =
      latchTrace t ++ [⟨rs, highNibble b⟩, ⟨rs, lowNibble b⟩] := by
  rw [latchTrace, List.foldl_append, see_send, latchTrace]

/-- The two nibbles of a byte recombine to it. -/
theorem sixteen_mul_highNibble_add_lowNibble (b : Byte) :
    16 * (highNibble b).toNat + (lowNibble b).toNat = b.toNat := by
  have high : (highNibble b).toNat = b.toNat / 16 := by
    simp only [highNibble, BitVec.extractLsb'_toNat, Nat.shiftRight_eq_div_pow]
    omega
  have low : (lowNibble b).toNat = b.toNat % 16 := by simp [lowNibble, BitVec.extractLsb'_toNat]
  rw [high, low]
  exact Nat.div_add_mod b.toNat 16

/-- Settles O19: the two records are the high and the low nibble of the byte. -/
theorem sendLatchesTheByteAsTwoNibbles : Obligations.SendLatchesTheByteAsTwoNibbles := fun p t v rs =>
  ⟨highNibble v, lowNibble v, latchTrace_append_send p t v rs, sixteen_mul_highNibble_add_lowNibble v⟩

end Sys2Proof.Safety
end

section
/-! Settles the statements of 42_lcd_line.md about the line buffer's two commands: LB_BEGIN (R180) and LB_PUT (R181). -/

namespace Sys2Proof

/-- A command word is its opcode's bare word with the operand byte in the low bits (R90). -/
theorem commandWord_eq_or (o : BitVec 4) (a : Byte) : commandWord o a = commandWord o 0 ||| a.setWidth 32 := by
  apply BitVec.eq_of_getLsbD_eq
  intro i hi
  simp only [commandWord, BitVec.getLsbD_or, BitVec.getLsbD_append, BitVec.getLsbD_setWidth]
  by_cases h : i < 8
  · simp [h, hi]
  · simp [h, BitVec.getLsbD_of_ge a i (by omega)]

end Sys2Proof

namespace Sys2Proof.Machine

theorem State.lineBegin_getElem (s : State) (k : Fin 16) : s.lineBegin.lb[k] = spaceByte := by
  rw [State.lineBegin_lb]
  exact Vector.getElem_replicate k.isLt

/-- LB_PUT at 16 changes nothing (R181). -/
theorem State.linePut_of_lbIdx_eq_sixteen {s : State} (c : Byte) (h : s.lbIdx = 16) : s.linePut c = s :=
  s.linePut_of_full c (by rw [h]; decide)

/-- LB_PUT with `k` characters before it stores its character at `k` and makes the index `k + 1` (R181). -/
theorem State.linePut_of_lbIdx_eq_castSucc {s : State} {k : Fin 16} (c : Byte) (h : s.lbIdx = k.castSucc) :
    s.linePut c = { s with lb := s.lb.set k c, lbIdx := k.succ } := by
  have index : s.lbIdx.val = k.val := congrArg Fin.val h
  rw [s.linePut_of_lt c (index ▸ k.isLt)]
  simp only [index]
  rfl

/-- Settles O13: on an idle block LB_PUT is `linePut`, which turns on whether the index is 16 or below. -/
theorem lbPutAppendsOrDrops : Obligations.LbPutAppendsOrDrops := by
  intro s c
  refine ⟨commandWord_eq_or 0x7 c, exec_busy (.lbPut c), ?full, ?room⟩
  case full =>
    intro idle full
    calc exec (.lbPut c) s = .next (s.linePut c) := exec_ready idle rfl
      _ = .next s := by rw [State.linePut_of_lbIdx_eq_sixteen c full]
  case room =>
    intro k idle index
    have put : exec (.lbPut c) s = .next { s with lb := s.lb.set k c, lbIdx := k.succ } :=
      (exec_ready idle rfl).trans (congrArg Host.Outcome.next (State.linePut_of_lbIdx_eq_castSucc c index))
    refine ⟨_, put, Vector.getElem_set_self k.isLt, ?_, rfl, rfl⟩
    intro m hm
    exact Vector.getElem_set_ne k.isLt m.isLt (Fin.val_ne_of_ne hm.symm)

/-- Settles O12: LB_BEGIN needs no unit, so an idle block takes it and its line becomes `lineBegin`'s. -/
theorem lbBeginClearsTheLine : Obligations.LbBeginClearsTheLine :=
  ⟨rfl, fun _ busy => exec_busy .lbBegin busy,
    fun s idle => ⟨s.lineBegin.lb, s.lineBegin_getElem, exec_ready idle rfl⟩⟩

end Sys2Proof.Machine
end

section
/-! Settles the statement of 43_system.md about NOP: it changes nothing, and its word is the only legal word of opcode 0
(R201). -/

namespace Sys2Proof

/-- A word is its opcode, reserved and operand fields (R90). -/
theorem opcField_append_rsvField_append_argField (w : Word) : opcField w ++ rsvField w ++ argField w = w := by
  have upper : opcField w ++ rsvField w = w.extractLsb' 8 24 :=
    BitVec.extractLsb'_append_extractLsb'_eq_extractLsb' (by decide)
  have all : w.extractLsb' 8 24 ++ argField w = w.extractLsb' 0 32 :=
    BitVec.extractLsb'_append_extractLsb'_eq_extractLsb' (by decide)
  rw [upper, all, BitVec.extractLsb'_eq_self]

/-- A word with no reserved bit set is laid out by its opcode and its operand byte (R90). -/
theorem commandWord_opcField_argField {w : Word} (hr : rsvField w = 0) :
    commandWord (opcField w) (argField w) = w := by
  rw [commandWord, ← hr, opcField_append_rsvField_append_argField]

/-- NOP's word is zero (R92, R201). -/
theorem encode_nop : encode .nop = 0x00000000 := by decide

/-- Opcode 0 has no legal word but zero: a reserved bit makes a word illegal, and without one the operand byte, which
must be zero, is all that is left of the word (R94, R201). -/
theorem decode_illegal_of_opcode_zero {w : Word} (ho : opcField w = 0) (hw : w ≠ 0) : ∃ e, decode w = .error e := by
  rw [decode_illegal_iff]
  by_cases hr : rsvField w = 0
  case neg => exact .inl hr
  case pos =>
    have operand : argField w ≠ 0 := by
      intro ha
      apply hw
      calc w = commandWord (opcField w) (argField w) := (commandWord_opcField_argField hr).symm
        _ = encode .nop := by rw [ho, ha]; rfl
        _ = 0 := encode_nop
    have operandless : (opcField w).toNat ∈ [0, 1, 2, 3, 6] := by simp [ho]
    exact .inr (.inr (.inl ⟨operandless, operand⟩))

end Sys2Proof

namespace Sys2Proof.Machine

/-- Settles O11: NOP needs no unit and its acceptance leaves the state as it is, so it changes a flag only on a
busy block. -/
theorem nopDoesNothing : Obligations.NopDoesNothing :=
  ⟨fun _ idle => exec_ready idle rfl, fun _ busy => exec_busy .nop busy, encode_nop,
    fun _ opcode nonzero => decode_illegal_of_opcode_zero opcode nonzero⟩

end Sys2Proof.Machine
end

section
/-! Settles the statements of 60_exceptions.md about acceptance's two other errors: OVR, a CMD write while a command
executes (R212), and NOTINIT, a command whose unit is not ready (R213). -/

namespace Sys2Proof.Machine

/-- A busy block answers any word with OVR, and does not decode it (R212). -/
theorem acceptWord_busy (w : Word) {s : State} (hc : s.cur ≠ none) : acceptWord w s = .next (s.raise .ovr) := by
  simp [acceptWord, hc]

/-- Settles O9: the step is HOST's CMD write alone, and acceptance on a busy block is OVR before the word is looked
at. -/
theorem writeWhileBusyRaisesOvr : Obligations.WriteWhileBusyRaisesOvr := by
  intro s w rest busy hi
  calc step s = hostStep (.write 0x0 4 w) { s with inputs := rest } := step_host hi
    _ = acceptWord w { s with inputs := rest } := hostStep_write_cmd _ _
    _ = .next (({ s with inputs := rest } : State).raise .ovr) := acceptWord_busy w busy

/-- Settles O10: KP_SCAN needs the keypad, the two byte commands and LCD_WRITE_LINE the display; an idle block answers
a command whose unit is not ready with NOTINIT. -/
theorem unreadyUnitRaisesNotinit : Obligations.UnreadyUnitRaisesNotinit := by
  intro s idle
  constructor
  · intro keypadUnready
    exact exec_unready idle (i := .kpScan) keypadUnready
  · intro displayUnready
    exact ⟨fun v => exec_unready idle (i := .lcdCmd v) displayUnready,
      fun v => exec_unready idle (i := .lcdData v) displayUnready,
      fun l => exec_unready idle (i := .lcdWriteLine l) displayUnready⟩

end Sys2Proof.Machine
end

section
/-! Settles the statement of 70_reset_and_hazards.md about reset: every state element to its reset value (R250). -/

namespace Sys2Proof.Machine

/-- An idle block's state code is 0 (R38). -/
theorem stateCode_idle {s : State} (idle : s.cur = none) : stateCode s = 0 := by
  simp [stateCode, idle]

/-- After reset no bit of STATUS is set: the block is idle, with no flag, no key, no unit ready and an empty line
(R23). -/
@[simp] theorem statusWord_resetNow (s : State) : statusWord s.resetNow = 0 := by
  have idle : stateCode s.resetNow = 0 := stateCode_idle s.resetNow_cur
  simp only [statusWord, idle, State.resetNow_lbIdx, State.resetNow_flags, State.resetNow_key, State.resetNow_kpReady,
    State.resetNow_lcdReady]
  decide

/-- The line after reset is sixteen spaces (R31). -/
theorem State.resetNow_lb_getElem (s : State) (k : Fin 16) : s.resetNow.lb[k] = 0x20 := by
  rw [State.resetNow_lb]
  exact Vector.getElem_replicate k.isLt

/-- Settles O45: the step is `resetNow`, whose fields are the reset values whatever the state before; STATUS and the
pads are read off from them. -/
theorem resetSetsEveryElement : Obligations.ResetSetsEveryElement := by
  intro s rest hi
  exact ⟨({ s with inputs := rest } : State).resetNow, step_reset hi, Pads.at_reset, rfl, rfl, statusWord_resetNow _,
    rfl, rfl, State.resetNow_lb_getElem _, rfl, rfl, rfl, rfl, rfl, rfl⟩

end Sys2Proof.Machine
end

section
/-! Settles the statements of 30_encoding.md about legal words: the decoder and the encoder are inverse (R90 to R95), the
rows of the opcode map are the legal words (R92, R93), and the assembler gives each line its word (R96, R98). -/

namespace Sys2Proof

/-! ### Round trips -/

/-- The decoder reads a command back from its word: it sees the command's opcode, no reserved bit, and its operand
byte. -/
theorem decode_encode (i : Instr) : decode (encode i) = .ok i := by
  obtain ⟨opcode, reserved, operand⟩ := Laws.encode_fields i
  simp only [decode, opcode, reserved, operand]
  cases i with
  | lcdWriteLine l => cases l <;> rfl
  | _ => rfl

/-- The four byte lanes of a word are decoded as the word (R62, R95). -/
theorem decodeBytes_wordBytes (w : Word) : decodeBytes (wordBytes w) = decode w :=
  congrArg decode (wordOfBytes_laneByte w)

/-- A word's number, as the opcode table writes it, is decoded as the word. -/
theorem decodeTableWord_toNat (w : Word) : decodeTableWord 32 w.toNat = (decode w).toOption := by
  have number : w.toNat % 2 ^ 32 = w.toNat := Nat.mod_eq_of_lt w.isLt
  simp only [decodeTableWord, number, if_pos w.isLt, BitVec.ofNat_toNat, BitVec.setWidth_eq, decodeBytes_wordBytes]
  cases decode w <;> rfl

/-- Settles O2: all three decodings are that of the word, which inverts the encoder. -/
theorem decodeInvertsEncode : Obligations.DecodeInvertsEncode := by
  intro i
  refine ⟨decode_encode i, ?_, ?_⟩
  · rw [decodeBytes_wordBytes, decode_encode]
  · rw [decodeTableWord_toNat, decode_encode]
    rfl

/-- A command with no operand is read from a zero operand byte alone (R91). -/
theorem decodeNone_eq_ok {i i' : Instr} {arg : Byte} (h : decodeNone i arg = .ok i') : arg = 0 ∧ i = i' := by
  unfold decodeNone at h
  split at h
  · exact ⟨‹_›, by injection h⟩
  · cases h

/-- The `line` form reads each line from its own operand byte alone (R91). -/
theorem decodeLine_eq_ok {arg : Byte} {l : DisplayLine} (h : decodeLine arg = .ok l) : lineArg l = arg := by
  unfold decodeLine at h
  split at h
  case isTrue upper =>
    have small : arg.toNat < 2 := by
      have := congrArg BitVec.toNat upper
      simp only [BitVec.extractLsb'_toNat, Nat.shiftRight_eq_div_pow, BitVec.ofNat_eq_ofNat, BitVec.toNat_ofNat] at this
      omega
    have bit : arg.getLsbD 0 = decide (arg.toNat % 2 = 1) := by
      rw [BitVec.getLsbD, Nat.testBit_zero]
    apply BitVec.eq_of_toNat_eq
    split at h <;> (injection h with h; subst h; simp_all [lineArg]; omega)
  case isFalse => cases h

/-- What the decoder reads a command from: no reserved bit, the command's opcode and its operand byte. -/
theorem fields_of_decode_eq_ok {w : Word} {i : Instr} (h : decode w = .ok i) :
    rsvField w = 0 ∧ opcodeOf i = opcField w ∧ arg8Of i = argField w := by
  have reserved : rsvField w = 0 := by
    by_contra hr
    rw [decode_of_rsvField_ne_zero hr] at h
    cases h
  have opcode : ∀ n : BitVec 4, (opcField w).toNat = n.toNat → n = opcField w :=
    fun n hn => BitVec.eq_of_toNat_eq hn.symm
  refine ⟨reserved, ?_⟩
  simp only [decode, reserved, ne_eq, not_true_eq_false, if_false] at h
  split at h
  case h_5 ho | h_6 ho | h_8 ho => 
    injection h with h
    subst h
    exact ⟨opcode _ ho, rfl⟩
  case h_9 ho => 
    cases hl : decodeLine (argField w) with
    | error e => rw [hl] at h; cases h
    | ok l =>
      rw [hl] at h
      injection h with h
      subst h
      exact ⟨opcode _ ho, decodeLine_eq_ok hl⟩
  case h_10 => cases h
  all_goals
    rename_i ho
    obtain ⟨operand, rfl⟩ := decodeNone_eq_ok h
    exact ⟨opcode _ ho, operand.symm⟩

/-- A legal word is laid out from the fields of its command. -/
theorem encode_of_decode_eq_ok {w : Word} {i : Instr} (h : decode w = .ok i) : encode i = w := by
  obtain ⟨reserved, opcode, operand⟩ := fields_of_decode_eq_ok h
  rw [encode, opcode, operand, commandWord_opcField_argField reserved]

/-- Settles O3: the fields the decoder reads determine the word. -/
theorem encodeInvertsDecode : Obligations.EncodeInvertsDecode := fun _ _ h => encode_of_decode_eq_ok h

/-- Settles O1, a vector of L2.1 at a time. -/
theorem sampleWordsDecodeAsTabled : Obligations.SampleWordsDecodeAsTabled := by
  unfold Obligations.SampleWordsDecodeAsTabled
  decide

/-! ### The rows of the opcode map (R92) -/

/-- Two words with the same three fields are the same. -/
theorem word_ext {w w' : Word} (ho : opcField w = opcField w') (hr : rsvField w = rsvField w')
    (ha : argField w = argField w') : w = w' := by
  rw [← opcField_append_rsvField_append_argField w, ho, hr, ha, opcField_append_rsvField_append_argField]

/-- What the masks and patterns of R92 have in common: they fix the opcode, and the reserved bits to zero. -/
theorem opcodeRows_fields : ∀ r ∈ opcodeRows,
    opcField r.mask = BitVec.allOnes 4 ∧ rsvField r.mask = BitVec.allOnes 20 ∧
    rsvField r.pattern = 0 ∧ argField r.pattern = 0 := by
  decide

/-- A word is of a row when it has the row's opcode, no reserved bit, and no operand bit under the row's mask. -/
theorem row_has_iff {r : OpcodeRow} (hr : r ∈ opcodeRows) (w : Word) :
    r.has w = true ↔
      opcField w = opcField r.pattern ∧ rsvField w = 0 ∧ argField w &&& argField r.mask = 0 := by
  obtain ⟨maskOpc, maskRsv, patRsv, patArg⟩ := opcodeRows_fields r hr
  have opc : opcField (w &&& r.mask) = opcField w := by
    rw [opcField, BitVec.extractLsb'_and, ← opcField, ← opcField, maskOpc, BitVec.and_allOnes]
  have rsv : rsvField (w &&& r.mask) = rsvField w := by
    rw [rsvField, BitVec.extractLsb'_and, ← rsvField, ← rsvField, maskRsv, BitVec.and_allOnes]
  have arg : argField (w &&& r.mask) = argField w &&& argField r.mask := BitVec.extractLsb'_and
  rw [OpcodeRow.has, beq_iff_eq, ← opc, ← rsv, ← arg, ← patRsv, ← patArg]
  exact ⟨fun h => by simp [h], fun ⟨ho, hr, ha⟩ => word_ext ho hr ha⟩

/-- The operand mask of a row is that of its opcode's kind: no operand, a byte, a line (R91). -/
theorem opcodeRows_kinds :
    (∀ r ∈ opcodeRows, argField r.mask = 0xFF ∨ argField r.mask = 0 ∨ argField r.mask = 0xFE) ∧
    (∀ o : BitVec 4, (∃ r ∈ opcodeRows, opcField r.pattern = o ∧ argField r.mask = 0xFF) ↔ o.toNat ∈ [0, 1, 2, 3, 6]) ∧
    (∀ o : BitVec 4, (∃ r ∈ opcodeRows, opcField r.pattern = o ∧ argField r.mask = 0) ↔ o.toNat ∈ [4, 5, 7]) ∧
    ∀ o : BitVec 4, (∃ r ∈ opcodeRows, opcField r.pattern = o ∧ argField r.mask = 0xFE) ↔ o.toNat = 8 := by
  decide

/-- The words the decoder accepts, by the kind of their opcode (R91, R93). -/
theorem decode_legal_iff (w : Word) :
    (∃ i, decode w = .ok i) ↔
      rsvField w = 0 ∧
      (((opcField w).toNat ∈ [0, 1, 2, 3, 6] ∧ argField w = 0) ∨ (opcField w).toNat ∈ [4, 5, 7] ∨
       ((opcField w).toNat = 8 ∧ (argField w).extractLsb' 1 7 = 0)) := by
  have legal : (∃ i, decode w = .ok i) ↔ ¬ ∃ e, decode w = .error e := by
    cases decode w <;> simp
  have kinds := opcode_kinds (opcField w).toNat
  rw [legal, decode_illegal_iff]
  simp only [List.mem_cons, List.not_mem_nil, or_false] at kinds ⊢
  constructor
  · intro h
    push Not at h
    obtain ⟨reserved, small, operand, line⟩ := h
    refine ⟨reserved, ?_⟩
    rcases kinds with k | k | k | k
    · exact .inl ⟨k, operand k⟩
    · exact .inr (.inl k)
    · exact .inr (.inr ⟨k, line k⟩)
    · omega
  · rintro ⟨reserved, ⟨k, operand⟩ | k | ⟨k, line⟩⟩
    · simp [reserved, operand]; omega
    · simp [reserved]; omega
    · simp [reserved, k, line]

/-- No operand bit is set but the line select's. -/
theorem and_lineMask_eq_zero_iff (a : Byte) : a &&& 0xFE = 0 ↔ a.extractLsb' 1 7 = 0 := by
  have bit : ∀ i < 8, (a &&& 0xFE).getLsbD i = (decide (1 ≤ i) && a.getLsbD i) := by
    intro i hi
    interval_cases i <;> simp
  constructor
  · intro h
    apply BitVec.eq_of_getLsbD_eq
    intro i hi
    have := bit (1 + i) (by omega)
    simp_all
  · intro h
    apply BitVec.eq_of_getLsbD_eq
    intro i hi
    rw [bit i hi]
    cases i with
    | zero => simp
    | succ i =>
      have operand : (a.extractLsb' 1 7).getLsbD i = false := by rw [h, BitVec.ofNat_eq_ofNat, BitVec.getLsbD_zero]
      rw [BitVec.getLsbD_extractLsb', Nat.add_comm, decide_eq_true (by omega : i < 7), Bool.true_and] at operand
      rw [operand, Bool.and_false, BitVec.ofNat_eq_ofNat, BitVec.getLsbD_zero]

/-- A word is legal when it is of a row: rows and opcodes fall into the same kinds. -/
theorem decode_legal_iff_row (w : Word) : (∃ i, decode w = .ok i) ↔ ∃ r ∈ opcodeRows, r.has w = true := by
  obtain ⟨kinds, none, byte, line⟩ := opcodeRows_kinds
  rw [decode_legal_iff]
  constructor
  · rintro ⟨reserved, ⟨k, operand⟩ | k | ⟨k, operand⟩⟩
    · obtain ⟨r, hr, opc, mask⟩ := (none _).2 k
      exact ⟨r, hr, (row_has_iff hr w).2 ⟨opc.symm, reserved, by simp [operand]⟩⟩
    · obtain ⟨r, hr, opc, mask⟩ := (byte _).2 k
      exact ⟨r, hr, (row_has_iff hr w).2 ⟨opc.symm, reserved, by simp [mask]⟩⟩
    · obtain ⟨r, hr, opc, mask⟩ := (line _).2 k
      exact ⟨r, hr, (row_has_iff hr w).2 ⟨opc.symm, reserved, by rwa [mask, and_lineMask_eq_zero_iff]⟩⟩
  · rintro ⟨r, hr, h⟩
    obtain ⟨opc, reserved, operand⟩ := (row_has_iff hr w).1 h
    refine ⟨reserved, ?_⟩
    rcases kinds r hr with mask | mask | mask <;> rw [mask] at operand
    · exact .inl ⟨(none _).1 ⟨r, hr, opc.symm, mask⟩,
        by rwa [show (0xFF : Byte) = BitVec.allOnes 8 from rfl, BitVec.and_allOnes] at operand⟩
    · exact .inr (.inl ((byte _).1 ⟨r, hr, opc.symm, mask⟩))
    · exact .inr (.inr ⟨(line _).1 ⟨r, hr, opc.symm, mask⟩, (and_lineMask_eq_zero_iff _).1 operand⟩)

/-- No two rows have the same opcode (R92). -/
theorem opcodeRows_opcodes_differ :
    ∀ r ∈ opcodeRows, ∀ r' ∈ opcodeRows, opcField r.pattern = opcField r'.pattern → r = r' := by
  decide

/-- Settles O5: a word's row has the word's opcode, and no two rows share one. -/
theorem opcodeRowsAreDisjointAndComplete : Obligations.OpcodeRowsAreDisjointAndComplete := by
  refine ⟨decode_legal_iff_row, fun w r hr r' hr' h h' => opcodeRows_opcodes_differ r hr r' hr' ?_⟩
  rw [← ((row_has_iff hr w).1 h).1, ((row_has_iff hr' w).1 h').1]

/-! ### The assembler (R96, R98) -/

/-- The operand byte of an `<imm8>` in range, in the low bits of a word. -/
theorem imm8_word {n : Nat} (h : n ≤ 255) : (BitVec.ofNat 8 n).setWidth 32 = BitVec.ofNat 32 n := by
  apply BitVec.eq_of_toNat_eq
  simp
  omega

/-- The word of a command line with an `<imm8>`, a number or a character: it has one when the operand is accepted. -/
theorem assembleWord_imm8 (v : Imm8) :
    assembleWord (.lcdCmd v) = (if v.wellFormed then some (0x40000000 ||| v.byte.setWidth 32) else none) ∧
    assembleWord (.lcdData v) = (if v.wellFormed then some (0x50000000 ||| v.byte.setWidth 32) else none) ∧
    assembleWord (.lbPut v) = (if v.wellFormed then some (0x70000000 ||| v.byte.setWidth 32) else none) := by
  have word : ∀ o, commandWord o v.byte = commandWord o 0 ||| v.byte.setWidth 32 := fun o => commandWord_eq_or o v.byte
  simp only [assembleWord, assemble, AsmLine.wellFormed]
  by_cases accepted : v.wellFormed = true
  · simp only [accepted, if_true]
    exact ⟨congrArg some (word 4), congrArg some (word 5), congrArg some (word 7)⟩
  · simp only [accepted]
    exact ⟨rfl, rfl, rfl⟩

theorem assembleWord_line (n : Nat) : assembleWord (.lcdLine n) =
    (if n = 0x80 then some 0x80000000 else if n = 0xC0 then some 0x80000001 else none) := by
  by_cases h1 : n = 0x80
  · subst h1
    decide
  · by_cases h2 : n = 0xC0
    · subst h2
      decide
    · simp [assembleWord, assemble, AsmLine.wellFormed, lineAddrWellFormed, h1, h2]

/-- Settles O6: the operand forms one by one; a line without an operand has the word of its command. -/
theorem assemblerFollowsItsTable : Obligations.AssemblerFollowsItsTable := by
  refine ⟨fun n => ?number, fun c => ?character, by decide⟩
  case number =>
    have range : (Imm8.num n).wellFormed = decide (n ≤ 255) := rfl
    have word : n ≤ 255 → (Imm8.num n).byte.setWidth 32 = BitVec.ofNat 32 n := imm8_word
    obtain ⟨cmd, data, put⟩ := assembleWord_imm8 (.num n)
    refine ⟨cmd.trans ?_, data.trans ?_, put.trans ?_, assembleWord_line n⟩
    all_goals by_cases h : n ≤ 255 <;> simp [range, h, word]
  case character =>
    have range : (Imm8.chr c).wellFormed = decide (0x20 ≤ c.toNat ∧ c.toNat ≤ 0x7E) := rfl
    have word : c.toNat ≤ 255 → (Imm8.chr c).byte.setWidth 32 = BitVec.ofNat 32 c.toNat := imm8_word
    obtain ⟨cmd, data, put⟩ := assembleWord_imm8 (.chr c)
    refine ⟨cmd.trans ?_, data.trans ?_, put.trans ?_⟩
    all_goals
      by_cases h : 0x20 ≤ c.toNat ∧ c.toNat ≤ 0x7E
      · simp [range, h, word (by omega)]
      · simp [range, h]

/-- The assembler accepts every byte as the operand of LB_PUT. -/
theorem assemble_lbPut (c : Byte) : assemble (.lbPut (.num c.toNat)) = some (.lbPut c) := by
  have range : c.toNat ≤ 255 := Nat.le_of_lt_succ c.isLt
  simp [assemble, AsmLine.wellFormed, Imm8.wellFormed, Imm8.byte, range]

/-- Settles O7: the two ends of the expansion are fixed lines, and between them every character is put. -/
theorem writeLineExpandsToItsCommands : Obligations.WriteLineExpandsToItsCommands := by
  intro text
  constructor <;> simp [Pseudo.expand, Function.comp_def, assemble_lbPut] <;> decide

end Sys2Proof
end

section
/-! What SEQ's turn does, said once as an equation: the primitive of a list (R70 to R74, R214) and the turn of a scan pass
(R122). What a turn changes and leaves unchanged is read off from the two equations. -/

namespace Sys2Proof.Machine

/-! ## A primitive of a list -/

/-- What a primitive puts into the pin trace, with ENV's answer (R19). -/
def Prim.event (x : Prim) (a : Answer) : PinEvent :=
  match x with
  | .cfg p d => .cfg p d a.ack
  | .pullUp p => .pullUp p a.ack
  | .write p lvl => .write p lvl
  | .read p => .read p a.level
  | .wait us => .wait us

/-- A configuration that ENV rejects (R70, R71). -/
def Prim.rejected (x : Prim) (a : Answer) : Bool :=
  match x with
  | .cfg _ _ => !a.ack
  | .pullUp _ => !a.ack
  | .write _ _ => false
  | .read _ => false
  | .wait _ => false

/-- The cycles left after a primitive that begins with none left: a wait loads its own (R74). -/
def Prim.cyclesLeft (x : Prim) (p : Params) : Nat :=
  match x with
  | .wait us => cycles p us
  | .cfg _ _ => 0
  | .pullUp _ => 0
  | .write _ _ => 0
  | .read _ => 0

/-- The state after a primitive that ENV did not reject, before it is seen whether the list is done. -/
def State.afterTurn (s : State) (x : Prim) (a : Answer) (rest : List Prim) : State :=
  { s with
    pads := s.pads.see (x.event a)
    acts := rest
    waitLeft := x.cyclesLeft s.params
    obs := { s.obs with pins := s.obs.pins ++ [x.event a] } }

@[simp] theorem State.afterTurn_pads (s : State) (x : Prim) (a : Answer) (rest : List Prim) :
    (s.afterTurn x a rest).pads = s.pads.see (x.event a) := rfl
@[simp] theorem State.afterTurn_flags (s : State) (x : Prim) (a : Answer) (rest : List Prim) :
    (s.afterTurn x a rest).flags = s.flags := rfl
@[simp] theorem State.afterTurn_key (s : State) (x : Prim) (a : Answer) (rest : List Prim) :
    (s.afterTurn x a rest).key = s.key := rfl
@[simp] theorem State.afterTurn_kpReady (s : State) (x : Prim) (a : Answer) (rest : List Prim) :
    (s.afterTurn x a rest).kpReady = s.kpReady := rfl
@[simp] theorem State.afterTurn_lcdReady (s : State) (x : Prim) (a : Answer) (rest : List Prim) :
    (s.afterTurn x a rest).lcdReady = s.lcdReady := rfl
@[simp] theorem State.afterTurn_lb (s : State) (x : Prim) (a : Answer) (rest : List Prim) :
    (s.afterTurn x a rest).lb = s.lb := rfl
@[simp] theorem State.afterTurn_lbIdx (s : State) (x : Prim) (a : Answer) (rest : List Prim) :
    (s.afterTurn x a rest).lbIdx = s.lbIdx := rfl
@[simp] theorem State.afterTurn_cur (s : State) (x : Prim) (a : Answer) (rest : List Prim) :
    (s.afterTurn x a rest).cur = s.cur := rfl
@[simp] theorem State.afterTurn_acts (s : State) (x : Prim) (a : Answer) (rest : List Prim) :
    (s.afterTurn x a rest).acts = rest := rfl
@[simp] theorem State.afterTurn_scan (s : State) (x : Prim) (a : Answer) (rest : List Prim) :
    (s.afterTurn x a rest).scan = s.scan := rfl
@[simp] theorem State.afterTurn_waitLeft (s : State) (x : Prim) (a : Answer) (rest : List Prim) :
    (s.afterTurn x a rest).waitLeft = x.cyclesLeft s.params := rfl
@[simp] theorem State.afterTurn_params (s : State) (x : Prim) (a : Answer) (rest : List Prim) :
    (s.afterTurn x a rest).params = s.params := rfl
@[simp] theorem State.afterTurn_obs (s : State) (x : Prim) (a : Answer) (rest : List Prim) :
    (s.afterTurn x a rest).obs = { s.obs with pins := s.obs.pins ++ [x.event a] } := rfl

/-- The head of a list is performed: it changes the pads as its event says, or ends the command. -/
theorem perform_eq (x : Prim) (a : Answer) {s : State} (rest : List Prim) (hw : s.waitLeft = 0) :
    perform x a { s with acts := rest } =
      if x.rejected a then (s.record (x.event a)).configRejected else (s.afterTurn x a rest).completeIfDone := by
  cases x with
  | cfg p d =>
    cases h : a.ack <;> simp [perform, Prim.rejected, Prim.event, State.afterTurn, Prim.cyclesLeft, h, ← hw] <;> rfl
  | pullUp p =>
    cases h : a.ack <;> simp [perform, Prim.rejected, Prim.event, State.afterTurn, Prim.cyclesLeft, h, ← hw] <;> rfl
  | write p lvl => simp [perform, Prim.rejected, Prim.event, State.afterTurn, Prim.cyclesLeft, ← hw]; rfl
  | read p => simp [perform, Prim.rejected, Prim.event, State.afterTurn, Prim.cyclesLeft, ← hw]; rfl
  | wait us => rfl

/-! ## A turn of a scan pass -/

/-- What a turn of a pass puts into the pin trace (R122). -/
def scanEvent (a : Answer) (s : State) : PinEvent :=
  match s.scan.phase with
  | .drive => .write (.col s.scan.j) false
  | .settle => .wait s.params.tScanSettle
  | .read => .read (.row s.scan.i) a.level
  | .release => .read (.row s.scan.i) a.level
  | .restore => .write (.col s.scan.j) true

/-- A low read in phase READ, the one turn that makes a key event (R125). -/
def scanHits (a : Answer) (s : State) : Bool := decide (s.scan.phase = .read) && !a.level

/-- The restore that ends a pass: after column 3, or after an event under `PASS_END_ON_EVENT` (R122, R127). -/
def scanEnds (s : State) : Bool :=
  decide (s.scan.phase = .restore) && (decide (s.scan.j = 3) || (s.scan.hit && s.params.passEndOnEvent))

/-- Where a turn of a pass leaves the scan (R122, R126, R127). -/
def scanNext (a : Answer) (s : State) : Scan :=
  match s.scan.phase with
  | .drive => s.scan.driven s.params
  | .settle => { s.scan with phase := .read }
  | .read => if a.level then s.scan.nextRow else { s.scan with phase := .release, hit := true }
  | .release =>
    if a.level then (if s.params.passEndOnEvent then { s.scan with phase := .restore } else s.scan.nextRow) else s.scan
  | .restore => if scanEnds s then { s.scan with hit := false } else ⟨.drive, s.scan.j + 1, 0, false⟩

/-- The cycles left after a turn of a pass: the settle wait loads its own (R74). -/
def scanCyclesLeft (s : State) : Nat :=
  if s.scan.phase = .settle then cycles s.params s.params.tScanSettle else 0

/-- The state after a turn of a pass: the pads change as its event says; a low read takes the key; the last restore ends
the command. -/
def State.afterScan (s : State) (a : Answer) : State :=
  { s with
    pads := s.pads.see (scanEvent a s)
    key := if scanHits a s then KeyReg.ofEvent s.params s.scan.i s.scan.j else s.key
    flags := { s.flags with kovr := s.flags.kovr || (scanHits a s && s.key.valid) }
    cur := if scanEnds s then none else some .kpScan
    scan := scanNext a s
    waitLeft := scanCyclesLeft s
    obs :=
      { s.obs with
        pins := s.obs.pins ++ [scanEvent a s]
        keys := s.obs.keys ++
          if scanHits a s then [⟨s.scan.i, s.scan.j, symbolCode (keyAt s.params s.scan.i s.scan.j)⟩] else [] } }

/-- A turn of a pass, by its phase. -/
theorem scanStep_eq (a : Answer) {s : State} (hc : s.cur = some .kpScan) (hw : s.waitLeft = 0) :
    scanStep a s = s.afterScan a := by
  unfold State.afterScan
  cases hp : s.scan.phase with
  | drive => simp [scanStep, scanEvent, scanHits, scanEnds, scanNext, scanCyclesLeft, hp, ← hw, ← hc, Pads.see]; rfl
  | settle => simp [scanStep, scanEvent, scanHits, scanEnds, scanNext, scanCyclesLeft, hp, ← hc, Pads.see]; rfl
  | read =>
    cases hl : a.level
    · rw [← seqStep_scan a hc hw, seqStep_low_read hc hw hp hl]
      simp [scanEvent, scanHits, scanEnds, scanNext, scanCyclesLeft, hp, hl, ← hw, ← hc, Pads.see]
    · simp [scanStep, scanRead, scanEvent, scanHits, scanEnds, scanNext, scanCyclesLeft, hp, hl, ← hw, ← hc, Pads.see,
        State.record]
  | release =>
    cases hl : a.level <;>
      simp [scanStep, scanRelease, scanEvent, scanHits, scanEnds, scanNext, scanCyclesLeft, hp, hl, ← hw, ← hc, Pads.see,
        State.record]
  | restore =>
    have event : scanEvent a s = .write (.col s.scan.j) true := by rw [scanEvent, hp]
    have hits : scanHits a s = false := by simp [scanHits, hp]
    have left : scanCyclesLeft s = s.waitLeft := by simp [scanCyclesLeft, hp, hw]
    have last : s.scan.j = 3 ↔ ¬ s.scan.j.val + 1 < 4 := by omega
    have next : (h : s.scan.j.val + 1 < 4) → (⟨s.scan.j.val + 1, h⟩ : Fin 4) = s.scan.j + 1 := by
      intro h
      apply Fin.ext
      rw [Fin.val_add_one_of_lt' h]
    simp only [scanStep, hp, scanRestore, event, hits, left, scanNext]
    by_cases event : (s.scan.hit && s.params.passEndOnEvent) = true
    · have ends : scanEnds s = true := by simp [scanEnds, hp, event]
      simp [event, ends, State.complete, State.record, hc, Pads.see]
    · by_cases more : s.scan.j.val + 1 < 4
      · have ends : scanEnds s = false := by simp [scanEnds, hp, event, last, more]
        simp [event, ends, more, next, State.record, hc, Pads.see]
      · have ends : scanEnds s = true := by simp [scanEnds, hp, last, more]
        simp [event, ends, more, State.complete, State.record, hc, Pads.see]

@[simp] theorem State.afterScan_pads (s : State) (a : Answer) : (s.afterScan a).pads = s.pads.see (scanEvent a s) := rfl
@[simp] theorem State.afterScan_kpReady (s : State) (a : Answer) : (s.afterScan a).kpReady = s.kpReady := rfl
@[simp] theorem State.afterScan_lcdReady (s : State) (a : Answer) : (s.afterScan a).lcdReady = s.lcdReady := rfl
@[simp] theorem State.afterScan_lb (s : State) (a : Answer) : (s.afterScan a).lb = s.lb := rfl
@[simp] theorem State.afterScan_lbIdx (s : State) (a : Answer) : (s.afterScan a).lbIdx = s.lbIdx := rfl
@[simp] theorem State.afterScan_cur (s : State) (a : Answer) :
    (s.afterScan a).cur = if scanEnds s then none else some .kpScan := rfl
@[simp] theorem State.afterScan_acts (s : State) (a : Answer) : (s.afterScan a).acts = s.acts := rfl
@[simp] theorem State.afterScan_scan (s : State) (a : Answer) : (s.afterScan a).scan = scanNext a s := rfl
@[simp] theorem State.afterScan_waitLeft (s : State) (a : Answer) : (s.afterScan a).waitLeft = scanCyclesLeft s := rfl
@[simp] theorem State.afterScan_params (s : State) (a : Answer) : (s.afterScan a).params = s.params := rfl
@[simp] theorem State.afterScan_pins (s : State) (a : Answer) :
    (s.afterScan a).obs.pins = s.obs.pins ++ [scanEvent a s] := rfl

/-- Only a read makes a key event, and only in a pass's READ phase. -/
theorem scanHits_iff (a : Answer) (s : State) : scanHits a s = true ↔ s.scan.phase = .read ∧ a.level = false := by
  simp [scanHits]

/-! ## SEQ's turn -/

/-- SEQ's turn is one of: nothing on an idle block; a cycle of a wait; a turn of a scan pass; the head of the list, which
ENV rejects or not; or, in a state no run reaches, the end of an empty list. -/
theorem seqStep_turns (a : Answer) (s : State) :
    (s.cur = none ∧ seqStep a s = s) ∨
    (∃ c, s.cur = some c ∧ s.waitLeft ≠ 0 ∧
      seqStep a s = ({ s with waitLeft := s.waitLeft - 1 } : State).completeIfDone) ∨
    (s.cur = some .kpScan ∧ s.waitLeft = 0 ∧ seqStep a s = s.afterScan a) ∨
    (∃ c x rest, s.cur = some c ∧ c ≠ .kpScan ∧ s.waitLeft = 0 ∧ s.acts = x :: rest ∧ x.rejected a = true ∧
      seqStep a s = (s.record (x.event a)).configRejected) ∨
    (∃ c x rest, s.cur = some c ∧ c ≠ .kpScan ∧ s.waitLeft = 0 ∧ s.acts = x :: rest ∧ x.rejected a = false ∧
      seqStep a s = (s.afterTurn x a rest).completeIfDone) ∨
    (∃ c, s.cur = some c ∧ c ≠ .kpScan ∧ s.waitLeft = 0 ∧ s.acts = [] ∧ seqStep a s = s.complete) := by
  rcases seqStep_cases a s with h | h | ⟨hc, hw, h⟩ | ⟨c, x, rest, hc, hk, hw, hl, h⟩ | h
  · exact .inl h
  · exact .inr (.inl h)
  · exact .inr (.inr (.inl ⟨hc, hw, h.trans (scanStep_eq a hc hw)⟩))
  · rw [perform_eq x a rest hw] at h
    cases hr : x.rejected a
    · rw [hr, if_neg Bool.false_ne_true] at h
      exact .inr (.inr (.inr (.inr (.inl ⟨c, x, rest, hc, hk, hw, hl, hr, h⟩))))
    · rw [hr, if_pos rfl] at h
      exact .inr (.inr (.inr (.inl ⟨c, x, rest, hc, hk, hw, hl, hr, h⟩)))
  · exact .inr (.inr (.inr (.inr (.inr h))))

/-- SEQ leaves the line buffer, its index and the parameters alone (R31, R35). -/
theorem seqStep_leaves (a : Answer) (s : State) :
    (seqStep a s).lb = s.lb ∧ (seqStep a s).lbIdx = s.lbIdx ∧ (seqStep a s).params = s.params := by
  rcases seqStep_turns a s with ⟨_, h⟩ | ⟨_, _, _, h⟩ | ⟨_, _, h⟩ | ⟨_, _, _, _, _, _, _, _, h⟩ |
      ⟨_, _, _, _, _, _, _, _, h⟩ | ⟨_, _, _, _, _, h⟩ <;> simp [h]

/-- SEQ's turn changes the pads exactly as what it adds to the pin trace says (R21). -/
theorem seqStep_pins (a : Answer) (s : State) :
    ((seqStep a s).pads = s.pads ∧ (seqStep a s).obs.pins = s.obs.pins) ∨
    ∃ ev, (seqStep a s).pads = s.pads.see ev ∧ (seqStep a s).obs.pins = s.obs.pins ++ [ev] := by
  rcases seqStep_turns a s with ⟨_, h⟩ | ⟨_, _, _, h⟩ | ⟨_, _, h⟩ | ⟨_, x, _, _, _, _, _, rejected, h⟩ |
      ⟨_, x, _, _, _, _, _, _, h⟩ | ⟨_, _, _, _, _, h⟩
  · simp [h]
  · simp [h]
  · exact .inr ⟨scanEvent a s, by simp [h], by simp [h]⟩
  · refine .inr ⟨x.event a, ?_, by simp [h]⟩
    cases x <;> simp_all [Prim.rejected, Prim.event, Pads.see]
  · exact .inr ⟨x.event a, by simp [h], by simp [h]⟩
  · simp [h]

end Sys2Proof.Machine
end

section
/-! What accepting a command leaves unchanged; the parameters never change (R35), the pads follow the trace (R21), and
every step keeps the sequencer's invariant (R33, R38, R75, R200, R202). -/

namespace Sys2Proof.Machine

/-! ### Acceptance leaves the pads, the flags, KEY, the parameters and the observation alone (R200) -/

@[simp] theorem accepted_pads (i : Instr) (s : State) : (accepted i s).pads = s.pads := by cases i <;> simp [accepted]
@[simp] theorem accepted_flags (i : Instr) (s : State) : (accepted i s).flags = s.flags := by cases i <;> simp [accepted]
@[simp] theorem accepted_key (i : Instr) (s : State) : (accepted i s).key = s.key := by cases i <;> simp [accepted]
@[simp] theorem accepted_params (i : Instr) (s : State) : (accepted i s).params = s.params := by
  cases i <;> simp [accepted]
@[simp] theorem accepted_waitLeft (i : Instr) (s : State) : (accepted i s).waitLeft = s.waitLeft := by
  cases i <;> simp [accepted]
@[simp] theorem accepted_obs (i : Instr) (s : State) : (accepted i s).obs = s.obs := by cases i <;> simp [accepted]

/-- HOST's access leaves the parameters. -/
theorem hostStep_params {a : HostAccess} {s t : State} (h : hostStep a s = .next t) : t.params = s.params :=
  hostStep_keeps (P := fun u => u.params = s.params) (fun _ _ hu _ => hu)
    (fun i u hu _ _ => (accepted_params i u).trans hu) (fun _ _ _ hu => hu) (fun _ _ hu => hu) a s t rfl h

/-- Settles O51: HOST's accesses, SEQ's turns and reset all leave the parameters. -/
theorem parametersNeverChange : Obligations.ParametersNeverChange := by
  intro s t h
  refine step_keeps (P := fun u => u.params = s.params) (fun _ _ _ hu => hu) ?host ?seq ?reset s t rfl h
  case host => exact fun _ _ _ hu e => (hostStep_params e).trans hu
  case seq => exact fun a u hu => (seqStep_leaves a u).2.2.trans hu
  case reset => exact fun _ hu => hu

/-- Settles O50: HOST's accesses touch neither the pads nor the pin trace; SEQ's turn and reset change both alike. -/
theorem stepKeepsPadsAsTraced : Obligations.StepKeepsPadsAsTraced := by
  refine step_keeps (P := Safety.PadsInv) (fun _ _ _ hu => hu) ?host ?seq ?reset
  case host =>
    refine hostStep_keeps (fun _ _ hu _ => hu) (fun i u hu _ _ => ?_) (fun _ _ _ hu => hu) (fun _ _ hu => hu)
    rw [Safety.PadsInv, accepted_pads, accepted_obs]
    exact hu
  case seq =>
    intro a u hu
    rcases seqStep_pins a u with ⟨pads, pins⟩ | ⟨ev, pads, pins⟩
    · rw [Safety.PadsInv, pads, pins]
      exact hu
    · rw [Safety.PadsInv, pads, pins, padsOf_snoc, ← hu]
  case reset =>
    intro u _
    rw [Safety.PadsInv, State.resetNow_obs, padsOf_snoc]
    rfl

end Sys2Proof.Machine

namespace Sys2Proof.Safety

open Sys2Proof.Machine

/-! ## The sequencer's invariant -/

/-- The invariant looks at the command, its list and wait, and the ready flags alone. -/
theorem SequencerInv.of_eq {s t : State} (h : SequencerInv s) (cur : t.cur = s.cur) (acts : t.acts = s.acts)
    (wait : t.waitLeft = s.waitLeft) (kp : t.kpReady = s.kpReady) (lcd : t.lcdReady = s.lcdReady) : SequencerInv t := by
  obtain ⟨h1, h2, h3, h4, h5, h6, h7, h8⟩ := h
  constructor <;> simp only [cur, acts, wait, kp, lcd] <;> assumption

/-- The running command further on: nothing new in the list, the same ready flags. -/
theorem SequencerInv.completeIfDone {s t : State} (h : SequencerInv s) (busy : s.cur ≠ none) (cur : t.cur = s.cur)
    (kp : t.kpReady = s.kpReady) (lcd : t.lcdReady = s.lcdReady) (acts : t.acts ⊆ s.acts) :
    SequencerInv t.completeIfDone := by
  have all : ∀ p : Prim → Bool, s.acts.all p = true → t.acts.all p = true := by
    simp only [List.all_eq_true]
    exact fun p hp x hx => hp x (acts hx)
  have noList : s.acts = [] → t.acts = [] := fun ha => List.subset_nil.1 (ha ▸ acts)
  rcases completeIfDone_cases t with ⟨_, ha, hw, e⟩ | ⟨more, e⟩
  · exact sequencerInv_of_idle (by simp [e]) (by simp [ha]) (by simp [hw])
  · rw [e]
    exact {
      idle := fun hc => absurd (cur ▸ hc) busy
      runs := cur ▸ h.runs
      scanning := fun hc => ⟨noList (h.scanning (cur ▸ hc)).1, kp.trans (h.scanning (cur ▸ hc)).2⟩
      working := fun i hi hk => more.resolve_left (by simp [hi, hk])
      kpInit := fun hc => ⟨kp.trans (h.kpInit (cur ▸ hc)).1, all _ (h.kpInit (cur ▸ hc)).2⟩
      lcdInit := fun hc => lcd.trans (h.lcdInit (cur ▸ hc))
      lcdList := fun i hi hl => all _ (h.lcdList i (cur ▸ hi) hl)
      lcdReady := fun i hi hl => lcd.trans (h.lcdReady i (cur ▸ hi) hl) }

/-- SEQ's turn keeps the invariant: an ended command leaves an idle block, a running one has work left. -/
theorem SequencerInv.seqStep {s : State} (h : SequencerInv s) (a : Answer) : SequencerInv (seqStep a s) := by
  rcases seqStep_turns a s with ⟨_, e⟩ | ⟨c, hc, _, e⟩ | ⟨hc, hw, e⟩ | ⟨c, x, rest, _, _, hw, _, _, e⟩ |
      ⟨c, x, rest, hc, _, _, hl, _, e⟩ | ⟨c, hc, hk, hw, hl, _⟩ <;> try rw [e]
  · exact h
  · exact h.completeIfDone (by simp [hc]) rfl rfl rfl (List.Subset.refl _)
  · obtain ⟨noList, ready⟩ := h.scanning hc
    by_cases ends : scanEnds s = true
    · have noWait : scanCyclesLeft s = 0 := by
        simp_all [scanEnds, scanCyclesLeft]
      exact sequencerInv_of_idle (by simp [ends]) noList noWait
    · constructor <;> simp [ends, noList, ready, Runs, LcdCommand, LcdTransfer]
  · exact sequencerInv_of_idle rfl rfl hw
  · exact h.completeIfDone (by simp [hc]) rfl rfl rfl (by rw [hl]; exact List.subset_cons_self x rest)
  · have := h.working c hc hk
    simp_all

/-! ### The lists of the commands (R120, R156, R182) -/

theorem nibActs_onLcd (n : Nibble) : (nibActs n).all onLcd = true := by
  have clears : nibClears.all onLcd = true := rfl
  have set : ∀ b p, keypadPin p = false → (nibSet b p).all onLcd = true := by
    intro b p hp
    cases b <;> simp [nibSet, onLcd, primPin, hp]
  simp only [nibActs, List.all_append, clears, set _ .d4 rfl, set _ .d5 rfl, set _ .d6 rfl, set _ .d7 rfl, Bool.and_true]

theorem sendActs_onLcd (p : Params) (v : Byte) (rs : Level) : (sendActs p v rs).all onLcd = true := by
  have toggle : (toggleActs p).all onLcd = true := rfl
  simp only [sendActs, List.all_append, nibActs_onLcd, toggle, Bool.and_true]
  rfl

theorem flatMap_sendActs_onLcd (p : Params) (rs : Level) (l : List Byte) :
    (l.flatMap fun v => sendActs p v rs).all onLcd = true := by
  simp [List.all_flatMap, sendActs_onLcd]

theorem lcdInitActs_onLcd (p : Params) : (lcdInitActs p).all onLcd = true := by
  simp only [lcdInitActs, List.all_append, flatMap_sendActs_onLcd, Bool.and_true]
  rfl

theorem lineActs_onLcd (p : Params) (l : DisplayLine) (lb : Vector Byte 16) : (lineActs p l lb).all onLcd = true := by
  simp only [lineActs, List.all_append, sendActs_onLcd, flatMap_sendActs_onLcd, Bool.and_true]

theorem sendActs_ne_nil (p : Params) (v : Byte) (rs : Level) : sendActs p v rs ≠ [] := by simp [sendActs]

/-- A transfer to a ready display starts with work left, on the display's pins. -/
theorem SequencerInv.start_transfer {s : State} {i : Instr} {l : List Prim} (hi : LcdTransfer i)
    (ready : s.lcdReady = true) (work : l ≠ []) (pins : l.all onLcd = true) : SequencerInv (s.start i l) := by
  cases i <;> simp only [LcdTransfer] at hi <;>
    (constructor <;> simp_all [Runs, LcdCommand, LcdTransfer])

/-- Acceptance keeps the invariant: a command that runs starts with work left, on its own unit's pins, and only if the
unit it needs is ready. -/
theorem SequencerInv.accepted {s : State} (h : SequencerInv s) {i : Instr} (hc : s.cur = none)
    (hr : unitReady i s = true) : SequencerInv (accepted i s) := by
  obtain ⟨noList, noWait⟩ := h.idle hc
  cases i with
  | nop => exact h
  | lbBegin => exact h.of_eq rfl rfl rfl rfl rfl
  | lbPut c =>
    exact h.of_eq (s.linePut_cur c) (s.linePut_acts c) (s.linePut_waitLeft c) (s.linePut_kpReady c) (s.linePut_lcdReady c)
  | kpInit =>
    have pins : kpInitActs.all onKeypad = true := by decide
    have work : kpInitActs ≠ [] := by decide
    constructor <;> simp [Machine.accepted, Runs, LcdCommand, LcdTransfer, pins, work]
  | kpScan => constructor <;> simp_all [Machine.accepted, unitReady, Runs, LcdCommand, LcdTransfer]
  | lcdInit =>
    have work : lcdInitActs s.params ≠ [] := by simp [lcdInitActs]
    constructor <;> simp [Machine.accepted, Runs, LcdCommand, LcdTransfer, work, lcdInitActs_onLcd]
  | lcdCmd v => exact start_transfer trivial hr (sendActs_ne_nil _ _ _) (sendActs_onLcd _ _ _)
  | lcdData v => exact start_transfer trivial hr (sendActs_ne_nil _ _ _) (sendActs_onLcd _ _ _)
  | lcdWriteLine l =>
    exact start_transfer trivial hr (List.append_ne_nil_of_left_ne_nil (sendActs_ne_nil _ _ _) _) (lineActs_onLcd _ _ _)

/-- HOST's accesses keep the invariant. -/
theorem SequencerInv.hostStep {s t : State} (h : SequencerInv s) {a : HostAccess} (e : hostStep a s = .next t) :
    SequencerInv t :=
  hostStep_keeps (fun _ _ hu _ => hu.of_eq rfl rfl rfl rfl rfl) (fun _ _ hu hc hr => hu.accepted hc hr)
    (fun _ _ _ hu => hu.of_eq rfl rfl rfl rfl rfl) (fun _ _ hu => hu.of_eq rfl rfl rfl rfl rfl) a s t h e

/-- A reset block meets the invariant. -/
theorem sequencerInv_resetNow (s : State) : SequencerInv s.resetNow := sequencerInv_of_idle rfl rfl rfl

/-- Settles O47: HOST's accesses, SEQ's turns and reset each keep the invariant. -/
theorem stepKeepsSequencerInv : Obligations.StepKeepsSequencerInv :=
  step_keeps (fun _ _ _ hs => hs.of_eq rfl rfl rfl rfl rfl) (fun _ _ _ hs e => hs.hostStep e) (fun a _ hs => hs.seqStep a)
    (fun s _ => sequencerInv_resetNow s)

end Sys2Proof.Safety
end

section
/-! The column discipline is kept by every step (R121, R123). -/

namespace Sys2Proof.Safety

open Sys2Proof.Machine

/-! ### Pads under events -/

/-- A primitive's event leaves every pad but its own pin's alone. -/
theorem at_see_event_of_ne (v : Pads) {x : Prim} (a : Answer) {p : Pin} (h : primPin x ≠ some p) :
    (v.see (x.event a)).at p = v.at p := by
  have other : ∀ q, primPin x = some q → p ≠ q := by
    rintro q hq rfl
    exact h hq
  cases x with
  | cfg q d => cases h : a.ack <;> simp [Prim.event, Pads.see, h, Pads.at_setDir, other q rfl]
  | pullUp q => cases h : a.ack <;> simp [Prim.event, Pads.see, h, Pads.at_pullUp, other q rfl]
  | write q lvl => simp [Prim.event, Pads.see, Pads.at_setOut, other q rfl]
  | read q => rfl
  | wait us => rfl

/-- A display primitive's event leaves the keypad's pads alone (R75). -/
theorem at_see_onLcd (v : Pads) {x : Prim} (a : Answer) (hx : onLcd x = true) {p : Pin} (hp : keypadPin p = true) :
    (v.see (x.event a)).at p = v.at p :=
  at_see_event_of_ne v a fun h => by simp [onLcd, h, hp] at hx

/-- A keypad primitive's event leaves the display's pads alone (R75). -/
theorem at_see_onKeypad (v : Pads) {x : Prim} (a : Answer) (hx : onKeypad x = true) {p : Pin} (hp : keypadPin p = false) :
    (v.see (x.event a)).at p = v.at p :=
  at_see_event_of_ne v a fun h => by simp [onKeypad, h, hp] at hx

/-- An accepted primitive's event leaves the pads as the primitive does. -/
theorem see_event_of_accepted (v : Pads) {x : Prim} {a : Answer} (h : x.rejected a = false) :
    v.see (x.event a) = padsAfterPrim v x := by
  cases x <;> simp_all [Prim.rejected, Prim.event, Pads.see, padsAfterPrim]

theorem at_padsAfter_kpInitColumn (v : Pads) (j : Fin 4) (p : Pin) :
    (padsAfter v (kpInitColumn j)).at p = if p = .col j then ⟨.output, true, (v.at p).pu⟩ else v.at p := by
  simp only [kpInitColumn, padsAfter, List.foldl, padsAfterPrim, Pads.at_setDir, Pads.at_setOut]
  split <;> simp_all

theorem at_padsAfter_kpInitRow (v : Pads) (i : Fin 4) (p : Pin) :
    (padsAfter v (kpInitRow i)).at p = if p = .row i then ⟨.input, (v.at p).out, true⟩ else v.at p := by
  simp only [kpInitRow, padsAfter, List.foldl, padsAfterPrim, Pads.at_setDir, Pads.at_pullUp]
  split <;> simp_all

/-- A pad after KP_INIT's list (R120): a column is an output and high, a row an input with its pull-up, and a display
pad is as it was. -/
theorem at_padsAfter_kpInit (v : Pads) (p : Pin) :
    (padsAfter v kpInitActs).at p =
      match p with
      | .col _ => ⟨.output, true, (v.at p).pu⟩
      | .row _ => ⟨.input, (v.at p).out, true⟩
      | .rs | .e | .d4 | .d5 | .d6 | .d7 => v.at p := by
  have cells : ∀ i : Fin 4, i = 0 ∨ i = 1 ∨ i = 2 ∨ i = 3 := by decide
  simp only [kpInitActs, padsAfter_append, at_padsAfter_kpInitColumn, at_padsAfter_kpInitRow]
  cases p with
  | col j => rcases cells j with rfl | rfl | rfl | rfl <;> simp
  | row i => rcases cells i with rfl | rfl | rfl | rfl <;> simp
  | _ => simp

/-- KP_INIT's list leaves the keypad configured with every column high, whatever the pads were (R120). -/
theorem padsAfter_kpInit (v : Pads) :
    KeypadConfigured (padsAfter v kpInitActs) ∧ ColumnsHigh (padsAfter v kpInitActs) := by
  refine ⟨⟨fun j => ?_, fun i => ?_⟩, fun j => ?_⟩ <;> simp [at_padsAfter_kpInit]

/-! ### The keypad's pads -/

/-- Whether the keypad is configured, and which columns are high, is a matter of the keypad's pads alone. -/
theorem KeypadConfigured.of_at {v w : Pads} (h : KeypadConfigured v) (same : ∀ p, keypadPin p = true → w.at p = v.at p) :
    KeypadConfigured w :=
  ⟨fun j => same (.col j) rfl ▸ h.1 j, fun i => same (.row i) rfl ▸ h.2 i⟩

theorem ColumnsHigh.of_at {v w : Pads} (h : ColumnsHigh v) (same : ∀ p, keypadPin p = true → w.at p = v.at p) :
    ColumnsHigh w :=
  fun j => same (.col j) rfl ▸ h j

/-- Driving a pin changes its level alone. -/
theorem at_setOut_eq (v : Pads) (p : Pin) (l : Level) (q : Pin) :
    (v.setOut p l).at q = { v.at q with out := if q = p then l else (v.at q).out } := by
  rw [Pads.at_setOut]
  split
  · subst q; rfl
  · rfl

/-! ### A turn of a pass -/

/-- A turn of a pass leaves the keypad configured: it drives columns and reads rows. -/
theorem KeypadConfigured.see_scanEvent {s : State} (h : KeypadConfigured s.pads) (a : Answer) :
    KeypadConfigured (s.pads.see (scanEvent a s)) := by
  have drive : ∀ l, KeypadConfigured (s.pads.setOut (.col s.scan.j) l) := fun l =>
    ⟨fun j => by simpa [at_setOut_eq] using h.1 j, fun i => by simpa [at_setOut_eq] using h.2 i⟩
  cases hp : s.scan.phase <;> simp only [scanEvent, hp, Pads.see]
  · exact drive false
  · exact h
  · exact h
  · exact h
  · exact drive true

/-- The row after the current one is in the same column, and no column is driven for it. -/
theorem nextRow_column (c : Scan) : c.nextRow.j = c.j ∧ c.nextRow.phase ≠ .drive := by
  unfold Scan.nextRow
  split <;> simp

/-- Until its restore a pass stays in its column, and does not drive it again. -/
theorem scanNext_column {s : State} (a : Answer) (hp : s.scan.phase ≠ .restore) :
    (scanNext a s).j = s.scan.j ∧ (scanNext a s).phase ≠ .drive := by
  have row := nextRow_column s.scan
  cases h : s.scan.phase <;> simp only [scanNext, h]
  · exact ⟨rfl, by simp only [Scan.driven]; split <;> simp⟩
  · simp
  · split
    · exact row
    · simp
  · split
    · split
      · simp
      · exact row
    · simp [h]
  · exact absurd h hp

/-! ### The invariant -/

theorem ColumnInv.of_eq {s t : State} (h : ColumnInv s) (cur : t.cur = s.cur) (acts : t.acts = s.acts)
    (wait : t.waitLeft = s.waitLeft) (kp : t.kpReady = s.kpReady) (lcd : t.lcdReady = s.lcdReady)
    (pads : t.pads = s.pads) (scan : t.scan = s.scan) : ColumnInv t := by
  obtain ⟨h0, h1, h2, h3, h4, h5⟩ := h
  refine ⟨h0.of_eq cur acts wait kp lcd, ?_, ?_, ?_, ?_, ?_⟩ <;> simp only [cur, acts, kp, pads, scan] <;> assumption

/-- The running command further on: KP_INIT's list leads where it led, and no other command touches the keypad. -/
theorem ColumnInv.completeIfDone {s t : State} (h : ColumnInv s) (inv : SequencerInv t.completeIfDone)
    (cur : t.cur = s.cur) (kp : t.kpReady = s.kpReady) (scan : t.scan = s.scan)
    (pads : s.cur ≠ some .kpInit → ∀ p, keypadPin p = true → t.pads.at p = s.pads.at p)
    (leads : padsAfter t.pads t.acts = padsAfter s.pads s.acts) : ColumnInv t.completeIfDone := by
  have unready : s.cur = some .kpInit → s.kpReady = false := fun hc => (h.kpInit hc).1
  rcases completeIfDone_cases t with ⟨hk, ha, _, e⟩ | ⟨_, e⟩
  · rw [cur] at hk
    by_cases hc : s.cur = some .kpInit
    · have reached : padsAfter s.pads s.acts = t.pads := by rw [← leads, ha]; rfl
      refine ⟨inv, ?_, ?_, ?_, ?_, ?_⟩ <;> rw [e] <;> simp
      · exact fun _ => reached ▸ (h.leads hc).1
      · exact fun _ => reached ▸ (h.leads hc).2
    · refine ⟨inv, ?_, ?_, ?_, ?_, ?_⟩ <;> rw [e] <;> simp [cur, hc, kp]
      · exact fun ready => (h.configured ready).of_at (pads hc)
      · exact fun ready => (h.high ready hk).of_at (pads hc)
  · rw [e] at inv ⊢
    refine ⟨inv, ?_, ?_, ?_, ?_, ?_⟩ <;> try rw [cur]
    · intro ready
      rw [kp] at ready
      exact (h.configured ready).of_at (pads fun hc => by simp [unready hc] at ready)
    · intro ready hk
      rw [kp] at ready
      exact (h.high ready hk).of_at (pads fun hc => by simp [unready hc] at ready)
    · intro hc k hk
      rw [pads (by simp [hc]) _ rfl]
      exact h.others hc k (scan ▸ hk)
    · intro hc
      rw [pads (by simp [hc]) _ rfl, scan]
      exact h.current hc
    · rw [leads]
      exact h.leads

/-- A turn of a pass: the current column is low from its drive to its restore, and every other is high. -/
theorem ColumnInv.afterScan {s : State} (h : ColumnInv s) (a : Answer) (hc : s.cur = some .kpScan)
    (inv : SequencerInv (s.afterScan a)) : ColumnInv (s.afterScan a) := by
  have configured := (h.configured (h.scanning hc).2).see_scanEvent a
  by_cases hp : s.scan.phase = .restore
  · have event : scanEvent a s = .write (.col s.scan.j) true := by rw [scanEvent, hp]
    have high : ColumnsHigh (s.pads.see (scanEvent a s)) := by
      intro k
      by_cases hk : k = s.scan.j
      · simp [event, Pads.see, at_setOut_eq, hk]
      · simp [event, Pads.see, at_setOut_eq, hk, h.others hc k hk]
    refine ⟨inv, fun _ => configured, fun _ _ => high, fun _ k _ => high k, fun running => ?_, fun init => ?_⟩
    · have drive : (scanNext a s).phase = .drive := by
        have goesOn : scanEnds s = false := by simpa using running
        simp [scanNext, hp, goesOn]
      rw [State.afterScan_scan, drive]
      exact high _
    · simp [ite_eq_iff] at init
  · obtain ⟨column, driven⟩ := scanNext_column a hp
    have low : ((s.pads.see (scanEvent a s)).at (.col s.scan.j)).out = false := by
      have current := h.current hc
      cases h : s.scan.phase <;> simp_all [scanEvent, Pads.see, at_setOut_eq]
    have goesOn : scanEnds s = false := by simp [scanEnds, hp]
    refine ⟨inv, fun _ => configured, fun _ no => ?_, fun _ k hk => ?_, fun _ => ?_, fun init => ?_⟩
    · simp [goesOn] at no
    · rw [State.afterScan_scan, column] at hk
      have other := h.others hc k hk
      cases h : s.scan.phase <;> simp [scanEvent, h, Pads.see, at_setOut_eq, hk, other]
    · simp [column, driven, low]
    · simp [goesOn] at init

/-- A command with a list is KP_INIT or one of the display's. -/
theorem lcdCommand_of_runs {c : Instr} (hr : Runs c) (hk : c ≠ .kpScan) (hi : c ≠ .kpInit) : LcdCommand c := by
  cases c <;> simp_all [Runs, LcdCommand]

/-- The list of any command but KP_INIT holds display primitives alone (R75). -/
theorem SequencerInv.onLcd_of_mem {s : State} (h : SequencerInv s) {c : Instr} (hc : s.cur = some c) (hk : c ≠ .kpScan)
    (hi : c ≠ .kpInit) {x : Prim} (hx : x ∈ s.acts) : onLcd x = true :=
  List.all_eq_true.1 (h.lcdList c hc (lcdCommand_of_runs (h.runs c hc) hk hi)) x hx

/-- SEQ's turn keeps the column discipline. -/
theorem ColumnInv.seqStep {s : State} (h : ColumnInv s) (a : Answer) : ColumnInv (seqStep a s) := by
  have inv := h.toSequencerInv.seqStep a
  rcases seqStep_turns a s with ⟨_, e⟩ | ⟨c, hc, _, e⟩ | ⟨hc, hw, e⟩ | ⟨c, x, rest, hc, hk, hw, hl, _, e⟩ |
      ⟨c, x, rest, hc, hk, _, hl, accepted, e⟩ | ⟨c, hc, hk, hw, hl, _⟩ <;> try rw [e] at inv ⊢
  · exact h
  · exact h.completeIfDone inv rfl rfl rfl (fun _ _ _ => rfl) rfl
  · exact h.afterScan a hc inv
  · refine ⟨inv, h.configured, fun ready _ => h.high ready (by simp [hc, hk]), ?_, ?_, ?_⟩ <;> simp
  · refine h.completeIfDone inv rfl rfl rfl (fun hi p hp => ?_) ?_
    · have display : onLcd x = true := h.onLcd_of_mem hc hk (fun e => hi (hc.trans (congrArg some e))) (by simp [hl])
      exact at_see_onLcd s.pads a display hp
    · rw [State.afterTurn_pads, see_event_of_accepted _ accepted, hl]
      rfl
  · have := h.working c hc hk
    simp_all

/-- A display command starts: the keypad is as it was. -/
theorem ColumnInv.start_display {s t : State} (h : ColumnInv s) (hc : s.cur = none) (inv : SequencerInv t) {i : Instr}
    (hi : LcdCommand i) (cur : t.cur = some i) (kp : t.kpReady = s.kpReady) (pads : t.pads = s.pads) : ColumnInv t := by
  have init : i ≠ .kpInit := by rintro rfl; exact hi
  have scan : i ≠ .kpScan := by rintro rfl; exact hi
  have high : s.kpReady = true → ColumnsHigh s.pads := fun ready => h.high ready (by simp [hc])
  refine ⟨inv, ?_, ?_, ?_, ?_, ?_⟩ <;> simp only [cur, kp, pads, Option.some.injEq, init, scan, false_implies]
  · exact h.configured
  · exact fun ready _ => high ready

/-- Acceptance keeps the column discipline. -/
theorem ColumnInv.accepted {s : State} (h : ColumnInv s) {i : Instr} (hc : s.cur = none)
    (hr : unitReady i s = true) : ColumnInv (accepted i s) := by
  have inv := h.toSequencerInv.accepted hc hr
  have high : s.kpReady = true → ColumnsHigh s.pads := fun ready => h.high ready (by simp [hc])
  cases i with
  | nop => exact h
  | lbBegin => exact h.of_eq rfl rfl rfl rfl rfl rfl rfl
  | lbPut c =>
    exact h.of_eq (s.linePut_cur c) (s.linePut_acts c) (s.linePut_waitLeft c) (s.linePut_kpReady c) (s.linePut_lcdReady c)
      (s.linePut_pads c) (s.linePut_scan c)
  | kpInit =>
    refine ⟨inv, ?_, ?_, ?_, ?_, fun _ => padsAfter_kpInit s.pads⟩ <;> simp [Machine.accepted]
  | kpScan =>
    refine ⟨inv, h.configured, fun ready _ => high ready, fun _ k _ => high hr k, fun _ => high hr 0, ?_⟩
    simp [Machine.accepted]
  | lcdInit => exact h.start_display hc inv (i := .lcdInit) trivial rfl rfl rfl
  | lcdCmd v => exact h.start_display hc inv (i := .lcdCmd v) trivial rfl rfl rfl
  | lcdData v => exact h.start_display hc inv (i := .lcdData v) trivial rfl rfl rfl
  | lcdWriteLine l => exact h.start_display hc inv (i := .lcdWriteLine l) trivial rfl rfl rfl

/-- HOST's accesses keep the column discipline. -/
theorem ColumnInv.hostStep {s t : State} (h : ColumnInv s) {a : HostAccess} (e : hostStep a s = .next t) : ColumnInv t :=
  hostStep_keeps (fun _ _ hu _ => hu.of_eq rfl rfl rfl rfl rfl rfl rfl) (fun _ _ hu hc hr => hu.accepted hc hr)
    (fun _ _ _ hu => hu.of_eq rfl rfl rfl rfl rfl rfl rfl) (fun _ _ hu => hu.of_eq rfl rfl rfl rfl rfl rfl rfl) a s t h e

/-- A reset block meets the column discipline: its keypad is not ready. -/
theorem columnInv_resetNow (s : State) : ColumnInv s.resetNow := by
  refine ⟨sequencerInv_resetNow s, ?_, ?_, ?_, ?_, ?_⟩ <;> simp

/-- Settles O48: HOST's accesses, SEQ's turns and reset each keep the discipline. -/
theorem stepKeepsColumnDiscipline : Obligations.StepKeepsColumnDiscipline :=
  step_keeps (fun _ _ _ hs => hs.of_eq rfl rfl rfl rfl rfl rfl rfl) (fun _ _ _ hs e => hs.hostStep e)
    (fun a _ hs => hs.seqStep a) (fun s _ => columnInv_resetNow s)

end Sys2Proof.Safety
end

section
/-! The display timing contract is kept by every step (R159, R160). -/

namespace Sys2Proof.Safety

open Sys2Proof.Machine

/-! ### The timing observer at rest -/

theorem lcdWatch_snoc (p : Params) (t : List PinEvent) (ev : PinEvent) :
    lcdWatch p (t ++ [ev]) = (lcdWatch p t).see p ev := by
  simp [lcdWatch, List.foldl_append]

/-- More time elapsed is still enough. -/
theorem elapsed_add {since : Option Nat} {us : Nat} (h : elapsed since us = true) (more : Nat) :
    elapsed (since.map (· + more)) us = true := by
  cases since with
  | none => rfl
  | some t => simp [elapsed] at h ⊢; omega

/-- What has elapsed after a wait is at least the wait. -/
theorem elapsed_wait (since : Option Nat) (us : Nat) : elapsed (since.map (· + us)) us = true := by
  cases since <;> simp [elapsed]

/-- At rest, a second `T_SETTLE` makes `2 * T_SETTLE` since the last pulse. -/
theorem elapsed_double {since : Option Nat} {us : Nat} (h : elapsed since us = true) :
    elapsed (since.map (· + us)) (2 * us) = true := by
  cases since with
  | none => rfl
  | some t => simp [elapsed] at h ⊢; omega

variable {p : Params} {m : LcdMonitor}

/-- A wait leaves the observer at rest. -/
theorem LcdMonitor.atRest.wait (h : m.atRest p) (us : Nat) : (m.see p (.wait us)).atRest p :=
  ⟨h.1, h.2.1, elapsed_add h.2.2 us⟩

/-- At rest RS and the data lines may change (R159 b, R160). -/
theorem LcdMonitor.atRest.data (h : m.atRest p) : (m.data p).atRest p := by
  obtain ⟨ok, low, fall⟩ := h
  exact ⟨by simp [LcdMonitor.data, ok, low, fall], low, fall⟩

/-- At rest E may be written low again (R159 b). -/
theorem LcdMonitor.atRest.enable_low (h : m.atRest p) : (m.see p (.write .e false)).atRest p := by
  obtain ⟨ok, low, fall⟩ := h
  have e : m.see p (.write .e false) = { m with ok := m.ok && elapsed m.sinceFall p.tSettle } := by
    simp [LcdMonitor.see, LcdMonitor.enable, low]
  rw [e]
  exact ⟨by simp [ok, fall], low, fall⟩

/-- The observer does not look at the keypad's pins. -/
theorem LcdMonitor.atRest.see_keypad {x : Prim} (h : m.atRest p) (a : Answer) (hx : onKeypad x = true) :
    (m.see p (x.event a)).atRest p := by
  cases x with
  | write q lvl => cases q <;> simp [onKeypad, primPin, keypadPin] at hx <;> exact h
  | wait us => exact h.wait us
  | _ => exact h

/-- A turn of a pass leaves the observer at rest. -/
theorem LcdMonitor.atRest.see_scanEvent (h : m.atRest p) (a : Answer) (s : State) :
    (m.see p (scanEvent a s)).atRest p := by
  cases hp : s.scan.phase <;> simp only [scanEvent, hp]
  · exact h
  · exact h.wait _
  · exact h
  · exact h
  · exact h

/-- A reset leaves the observer at rest (log 12). -/
theorem LcdMonitor.atRest_see_reset (ok : m.ok = true) : (m.see p .reset).atRest p := ⟨ok, rfl, rfl⟩

/-! ### Lists that keep the contract -/

/-- A list that keeps the contract has not broken it yet. -/
theorem keepsContract.ok {l : List Prim} (h : keepsContract p m l) : m.ok = true := by
  cases l with
  | nil => exact h.1
  | cons x l =>
    cases x with
    | cfg q d => exact h.1.1
    | pullUp q => exact h.1.1
    | write q lvl => exact h.1
    | read q => exact h.1
    | wait us => exact h.1

/-- From any rest, the list keeps the contract and ends at rest. -/
def FromRest (p : Params) (l : List Prim) : Prop := ∀ m, m.atRest p → keepsContract p m l

theorem fromRest_nil : FromRest p [] := fun _ h => h

theorem FromRest.cfg {l : List Prim} (hl : FromRest p l) (q : Pin) (d : Dir) : FromRest p (.cfg q d :: l) :=
  fun m h => ⟨h, hl m h⟩

theorem FromRest.wait {l : List Prim} (hl : FromRest p l) (us : Nat) : FromRest p (.wait us :: l) :=
  fun _ h => ⟨h.1, hl _ (h.wait us)⟩

theorem FromRest.enable_low {l : List Prim} (hl : FromRest p l) : FromRest p (.write .e false :: l) :=
  fun _ h => ⟨h.1, hl _ h.enable_low⟩

theorem FromRest.data {l : List Prim} (hl : FromRest p l) {q : Pin} (hq : q ∈ [Pin.rs, .d4, .d5, .d6, .d7]) (lvl : Level) :
    FromRest p (.write q lvl :: l) := by
  intro m h
  simp only [List.mem_cons, List.not_mem_nil, or_false] at hq
  rcases hq with rfl | rfl | rfl | rfl | rfl <;> exact ⟨h.1, hl _ h.data⟩

/-- A TOGGLE from rest: both edges of its pulse are in time, and its last wait is the settle wait (R151, R159). -/
theorem FromRest.toggle {l : List Prim} (hl : FromRest p l) : FromRest p (toggleActs p ++ l) := by
  intro m h
  obtain ⟨ok, low, fall⟩ := h
  have double := elapsed_double fall
  have data := elapsed_wait m.sinceData p.tSettle
  have pulse := elapsed_wait (some 0) p.tPulse
  simp only [toggleActs, List.cons_append, List.nil_append, keepsContract, LcdMonitor.see, LcdMonitor.enable, low]
  simp only [ok, data, double, pulse, Bool.and_self, true_and]
  exact hl _ ⟨rfl, rfl, elapsed_wait (some 0) p.tSettle⟩

theorem FromRest.nib {l : List Prim} (hl : FromRest p l) (n : Nibble) : FromRest p (nibActs n ++ l) := by
  have set : ∀ {l}, FromRest p l → ∀ b, ∀ q ∈ [Pin.rs, .d4, .d5, .d6, .d7], FromRest p (nibSet b q ++ l) := by
    intro l hl b q hq
    cases b
    · exact hl
    · exact hl.data hq true
  simp only [nibActs, List.append_assoc]
  have ones := set (set (set (set hl (n.getLsbD 3) .d7 (by simp)) (n.getLsbD 2) .d6 (by simp)) (n.getLsbD 1) .d5 (by simp))
    (n.getLsbD 0) .d4 (by simp)
  exact (((ones.data (q := .d7) (by simp) false).data (q := .d6) (by simp) false).data (q := .d5) (by simp) false).data
    (q := .d4) (by simp) false

/-- SEND keeps the contract from rest (R159, R160). -/
theorem FromRest.send {l : List Prim} (hl : FromRest p l) (v : Byte) (rs : Level) : FromRest p (sendActs p v rs ++ l) := by
  simp only [sendActs, List.append_assoc]
  exact ((hl.toggle.nib (lowNibble v)).toggle.nib (highNibble v)).data (by simp) rs

theorem FromRest.sends {l : List Prim} (hl : FromRest p l) (bytes : List Byte) (rs : Level) :
    FromRest p (bytes.flatMap (fun v => sendActs p v rs) ++ l) := by
  induction bytes with
  | nil => exact hl
  | cons v bytes ih =>
    rw [List.flatMap_cons, List.append_assoc]
    exact ih.send v rs

theorem fromRest_sendActs (p : Params) (v : Byte) (rs : Level) : FromRest p (sendActs p v rs) := by
  simpa using fromRest_nil.send v rs

theorem fromRest_lineActs (p : Params) (l : DisplayLine) (lb : Vector Byte 16) : FromRest p (lineActs p l lb) := by
  simpa [lineActs] using (fromRest_nil.sends lb.toList true).send (lineAddr l) false

theorem fromRest_lcdInitActs (p : Params) : FromRest p (lcdInitActs p) := by
  have sends := (((fromRest_nil (p := p)).wait p.tSettle).sends lcdInitBytes false).enable_low
  simp only [lcdInitActs, List.append_assoc]
  exact (((((sends.cfg .d7 .output).cfg .d6 .output).cfg .d5 .output).cfg .d4 .output).cfg .e .output).cfg .rs .output

/-! ### The invariant -/

/-- The contract so far follows from what the observer is at rest for or what the list keeps. -/
theorem LcdTimingInv.of_watch {s : State} (inv : SequencerInv s)
    (resting : (∀ i, s.cur = some i → ¬ LcdCommand i) → (lcdWatch s.params s.obs.pins).atRest s.params)
    (leads : ∀ i, s.cur = some i → LcdCommand i → keepsContract s.params (lcdWatch s.params s.obs.pins) s.acts) :
    LcdTimingInv s := by
  refine ⟨inv, ?_, resting, leads⟩
  by_cases h : ∃ i, s.cur = some i ∧ LcdCommand i
  · obtain ⟨i, hc, hi⟩ := h
    exact (leads i hc hi).ok
  · exact (resting fun i hc hi => h ⟨i, hc, hi⟩).1

theorem LcdTimingInv.of_eq {s t : State} (h : LcdTimingInv s) (cur : t.cur = s.cur) (acts : t.acts = s.acts)
    (wait : t.waitLeft = s.waitLeft) (kp : t.kpReady = s.kpReady) (lcd : t.lcdReady = s.lcdReady)
    (params : t.params = s.params) (pins : t.obs.pins = s.obs.pins) : LcdTimingInv t := by
  obtain ⟨h0, h1, h2, h3⟩ := h
  refine ⟨h0.of_eq cur acts wait kp lcd, ?_, ?_, ?_⟩ <;> simp only [cur, acts, params, pins] <;> assumption

/-- The running command further on: where a display command is running, what is left keeps the contract. -/
theorem LcdTimingInv.completeIfDone {t : State} (inv : SequencerInv t.completeIfDone)
    (resting : (∀ i, t.cur = some i → ¬ LcdCommand i) → (lcdWatch t.params t.obs.pins).atRest t.params)
    (leads : ∀ i, t.cur = some i → LcdCommand i → keepsContract t.params (lcdWatch t.params t.obs.pins) t.acts) :
    LcdTimingInv t.completeIfDone := by
  rcases completeIfDone_cases t with ⟨_, ha, _, e⟩ | ⟨_, e⟩
  · rw [e] at inv ⊢
    refine .of_watch inv (fun _ => ?_) (by simp)
    simp only [State.complete_params, State.complete_obs]
    by_cases h : ∃ i, t.cur = some i ∧ LcdCommand i
    · obtain ⟨i, hc, hi⟩ := h
      have := leads i hc hi
      rwa [ha] at this
    · exact resting fun i hc hi => h ⟨i, hc, hi⟩
  · rw [e] at inv ⊢
    exact .of_watch inv resting leads

/-- A primitive that keeps the contract leaves a list that does; a rejected one finds the observer at rest. -/
theorem keepsContract.see {x : Prim} {l : List Prim} (h : keepsContract p m (x :: l)) (a : Answer) :
    keepsContract p (m.see p (x.event a)) l ∧ (x.rejected a = true → (m.see p (x.event a)).atRest p) := by
  cases x with
  | cfg q d => exact ⟨h.2, fun _ => h.1⟩
  | pullUp q => exact ⟨h.2, fun _ => h.1⟩
  | write q lvl => exact ⟨h.2, by simp [Prim.rejected]⟩
  | read q => exact ⟨h.2, by simp [Prim.rejected]⟩
  | wait us => exact ⟨h.2, by simp [Prim.rejected]⟩

/-- SEQ's turn keeps the contract. -/
theorem LcdTimingInv.seqStep {s : State} (h : LcdTimingInv s) (a : Answer) : LcdTimingInv (seqStep a s) := by
  have inv := h.toSequencerInv.seqStep a
  have kpInitHead : ∀ c x rest, s.cur = some c → c ≠ .kpScan → s.acts = x :: rest →
      (∀ i, s.cur = some i → ¬ LcdCommand i) →
      ((lcdWatch s.params s.obs.pins).see s.params (x.event a)).atRest s.params := by
    intro c x rest hc hk hl other
    have init : c = .kpInit := by
      by_contra hi
      exact other c hc (lcdCommand_of_runs (h.runs c hc) hk hi)
    subst init
    have keypad := List.all_eq_true.1 (h.kpInit hc).2 x (by simp [hl])
    exact (h.resting other).see_keypad a keypad
  rcases seqStep_turns a s with ⟨_, e⟩ | ⟨c, hc, _, e⟩ | ⟨hc, hw, e⟩ | ⟨c, x, rest, hc, hk, hw, hl, rejected, e⟩ |
      ⟨c, x, rest, hc, hk, _, hl, accepted, e⟩ | ⟨c, hc, hk, hw, hl, _⟩ <;> try rw [e] at inv ⊢
  · exact h
  · exact .completeIfDone inv h.resting h.leads
  · refine .of_watch inv (fun _ => ?_) (fun i hi hl => ?_)
    · rw [State.afterScan_pins, lcdWatch_snoc]
      exact (h.resting (by simp [hc, LcdCommand])).see_scanEvent a s
    · have scan : i = .kpScan := by
        simp [ite_eq_iff] at hi
        exact hi.2.symm
      subst scan
      exact absurd hl id
  · refine .of_watch inv (fun _ => ?_) (by simp)
    simp only [State.configRejected_params, State.configRejected_obs, State.record_obs, State.record_params, lcdWatch_snoc]
    by_cases display : LcdCommand c
    · have := h.leads c hc display
      rw [hl] at this
      exact (this.see a).2 rejected
    · exact kpInitHead c x rest hc hk hl (by simpa [hc] using display)
  · refine .completeIfDone inv (fun other => ?_) (fun i hi display => ?_) <;>
      simp only [State.afterTurn_params, State.afterTurn_obs, State.afterTurn_acts, lcdWatch_snoc]
    · exact kpInitHead c x rest hc hk hl other
    · have := h.leads i hi display
      rw [hl] at this
      exact (this.see a).1
  · have := h.working c hc hk
    simp_all

/-- Acceptance keeps the contract: every list of the display keeps it from rest. -/
theorem LcdTimingInv.accepted {s : State} (h : LcdTimingInv s) {i : Instr} (hc : s.cur = none)
    (hr : unitReady i s = true) : LcdTimingInv (accepted i s) := by
  have inv := h.toSequencerInv.accepted hc hr
  have rest : (lcdWatch s.params s.obs.pins).atRest s.params := h.resting (by simp [hc])
  refine .of_watch inv ?_ ?_
  · intro _
    rw [accepted_params, accepted_obs]
    exact rest
  · rw [accepted_params, accepted_obs]
    cases i with
    | lcdInit => exact fun _ _ _ => fromRest_lcdInitActs _ _ rest
    | lcdCmd v => exact fun _ _ _ => fromRest_sendActs _ _ _ _ rest
    | lcdData v => exact fun _ _ _ => fromRest_sendActs _ _ _ _ rest
    | lcdWriteLine l => exact fun _ _ _ => fromRest_lineActs _ _ _ _ rest
    | _ => simp [Machine.accepted, hc, LcdCommand]

/-- HOST's accesses keep the contract. -/
theorem LcdTimingInv.hostStep {s t : State} (h : LcdTimingInv s) {a : HostAccess} (e : hostStep a s = .next t) :
    LcdTimingInv t :=
  hostStep_keeps (fun _ _ hu _ => hu.of_eq rfl rfl rfl rfl rfl rfl rfl) (fun _ _ hu hc hr => hu.accepted hc hr)
    (fun _ _ _ hu => hu.of_eq rfl rfl rfl rfl rfl rfl rfl) (fun _ _ hu => hu.of_eq rfl rfl rfl rfl rfl rfl rfl) a s t h e

/-- A reset block keeps the contract: the observer starts again, at rest. -/
theorem LcdTimingInv.resetNow {s : State} (h : LcdTimingInv s) : LcdTimingInv s.resetNow := by
  refine .of_watch (sequencerInv_resetNow s) (fun _ => ?_) (by simp)
  rw [State.resetNow_params, State.resetNow_obs, lcdWatch_snoc]
  exact LcdMonitor.atRest_see_reset h.contract

/-- Settles O49: HOST's accesses, SEQ's turns and reset each keep the contract. -/
theorem stepKeepsLcdTiming : Obligations.StepKeepsLcdTiming :=
  step_keeps (fun _ _ _ hs => hs.of_eq rfl rfl rfl rfl rfl rfl rfl) (fun _ _ _ hs e => hs.hostStep e)
    (fun a _ hs => hs.seqStep a) (fun _ hs => hs.resetNow)

end Sys2Proof.Safety
end

section
/-! Acceptance and HOST's accesses: what a legal word does (R200), which accesses have no effect (R28, R29, R63, R64), which
stop the model (R61, R228), and that none of them touches a running command (R135). -/

namespace Sys2Proof.Machine

/-! ### Acceptance -/

/-- Settles O16: each of the three ways to answer a command is a next state. -/
theorem everyCommandAnswersNext : Obligations.EveryCommandAnswersNext := by
  intro i s
  rcases exec_cases (i := i) (s := s) rfl with ⟨_, e⟩ | ⟨_, _, e⟩ | ⟨_, _, e⟩ <;> exact ⟨_, e⟩

/-- A legal word does what its command does: `exec` makes the BUSY check that acceptance makes before decoding. -/
theorem acceptWord_legal {w : Word} {i : Instr} (h : decode w = .ok i) (s : State) : acceptWord w s = exec i s := by
  by_cases hc : s.cur = none
  · simp [acceptWord, hc, h]
  · rw [acceptWord_busy w hc, exec_busy i hc]

/-- HOST's write of a legal word to CMD, alone. -/
theorem step_host_write_legal {s : State} {w : Word} {i : Instr} {rest : List Input} (h : decode w = .ok i)
    (hi : s.inputs = .host (.write 0x0 4 w) :: rest) : step s = exec i { s with inputs := rest } := by
  rw [step_host hi, hostStep_write_cmd, acceptWord_legal h]

/-- Settles O8: alone the write is `exec`, in common with SEQ's turn on an idle block SEQ has none, and the fetched word is
such a write. -/
theorem stepRunsTheDecodedCommand : Obligations.StepRunsTheDecodedCommand := by
  intro s w i h
  refine ⟨fun rest => step_host_write_legal h, ?both, ?fetched⟩
  case both =>
    rintro rest idle (alone | ⟨ans, common⟩)
    · exact step_host_write_legal h alone
    · obtain ⟨t, answer⟩ := everyCommandAnswersNext i { s with inputs := rest }
      rw [step_both common, answer]
      exact bothStep_idle idle (by rw [hostStep_write_cmd, acceptWord_legal h, answer])
  case fetched =>
    have word : BitVec.ofNat 32 (w.toNat % 2 ^ 32) = w := by
      rw [Nat.mod_eq_of_lt w.isLt, BitVec.ofNat_toNat, BitVec.setWidth_eq]
    rw [State.withFetchWord, word]
    exact step_host_write_legal h (s.submitNext_inputs w)

/-- Settles O15: an idle block whose unit is ready accepts, and the lists are those of the definitions. -/
theorem runningCommandsAreAccepted : Obligations.RunningCommandsAreAccepted := by
  intro s idle
  refine ⟨exec_ready idle rfl, ?lcdInit, fun ready => exec_ready idle ready, fun ready =>
    ⟨fun v => exec_ready idle ready, fun v => exec_ready idle ready, fun l => ?line⟩⟩
  case lcdInit =>
    rw [exec_ready idle rfl]
    simp [accepted, State.start, lcdInitActs, lcdPinCfgActs, lcdInitBytes]
  case line => cases l <;> exact exec_ready idle ready

/-! ### HOST's accesses -/

theorem hostStep_read {off : Offset} (h : off.toNat % 4 = 0) (s : State) :
    hostStep (.read off 4) s = .next (hostRead off s) := by
  rw [hostStep, if_pos ((accessAdmitted_iff off 4).2 ⟨rfl, h⟩)]

theorem hostStep_write {off : Offset} (h : off.toNat % 4 = 0) (v : Word) (s : State) :
    hostStep (.write off 4 v) s = hostWrite off v s := by
  rw [hostStep, if_pos ((accessAdmitted_iff off 4).2 ⟨rfl, h⟩)]

/-- A read joins the observation, and consumes the event if it is of KEY (R27, R63). -/
theorem hostRead_eq (off : Offset) (s : State) :
    hostRead off s = { s with
      key := if off = 0x8 then s.key.consumed else s.key
      obs := { s.obs with reads := s.obs.reads ++ [⟨off, peek s off⟩] } } := by
  unfold hostRead
  split <;> rfl

/-- What HOST's access does, whole: a read; a CMD write that is an OVR, an ILL or a NOTINIT, or an accepted command; a
STATUS write; or an ignored write. -/
theorem hostStep_effects {a : HostAccess} {s t : State} (h : hostStep a s = .next t) :
    (∃ off, a = .read off 4 ∧ t = hostRead off s) ∨
    (∃ w, a = .write 0x0 4 w ∧ s.cur ≠ none ∧ t = s.raise .ovr) ∨
    (∃ w, a = .write 0x0 4 w ∧ s.cur = none ∧ (t = s.raise .ill ∨ t = s.raise .notinit)) ∨
    (∃ w i, a = .write 0x0 4 w ∧ s.cur = none ∧ decode w = .ok i ∧ unitReady i s = true ∧ t = accepted i s) ∨
    (∃ v, a = .write 0x4 4 v ∧ t = { s with flags := s.flags.clearedBy v }) ∨
    (∃ off v, a = .write off 4 v ∧ off ≠ 0x0 ∧ off ≠ 0x4 ∧ t = s) := by
  rcases hostStep_cases h with ⟨off, ha, e⟩ | ⟨w, ha, e⟩ | ⟨v, ha, e⟩ | ⟨off, v, ha, h0, h4, e⟩ | ⟨_, _, _, _, e⟩
  · exact .inl ⟨off, ha, by injection e⟩
  · rcases acceptWord_cases e.symm with ⟨hc, e⟩ | ⟨hc, _, e⟩ | ⟨i, hc, hd, hr, e⟩ | ⟨_, hc, _, _, e⟩ <;> injection e with e
    · exact .inr (.inl ⟨w, ha, hc, e⟩)
    · exact .inr (.inr (.inl ⟨w, ha, hc, .inl e⟩))
    · exact .inr (.inr (.inr (.inl ⟨w, i, ha, hc, hd, hr, e⟩)))
    · exact .inr (.inr (.inl ⟨w, ha, hc, .inr e⟩))
  · exact .inr (.inr (.inr (.inr (.inl ⟨v, ha, by injection e⟩))))
  · exact .inr (.inr (.inr (.inr (.inr ⟨off, v, ha, h0, h4, by injection e⟩))))
  · cases e

/-- Settles O41: none of the reads is KEY's, and none of the writes CMD's or STATUS's. -/
theorem otherAccessesHaveNoEffect : Obligations.OtherAccessesHaveNoEffect := by
  have read : ∀ (s : State) (rest : List Input) (off : Offset), off.toNat % 4 = 0 → off ≠ 0x8 →
      s.inputs = .host (.read off 4) :: rest → step s = .next { s with
        inputs := rest, obs := { s.obs with reads := s.obs.reads ++ [⟨off, peek { s with inputs := rest } off⟩] } } := by
    intro s rest off aligned notKey hi
    rw [step_host hi, hostStep_read aligned, hostRead_of_ne _ notKey]
  intro s rest
  refine ⟨read s rest 0x0 (by decide) (by decide), read s rest 0xC (by decide) (by decide),
    read s rest 0x4 (by decide) (by decide), ?_⟩
  rintro v (hi | hi)
  · rw [step_host hi, hostStep_write (by decide)]
    rfl
  · rw [step_host hi, hostStep_write (by decide)]
    rfl

/-- An access that has no meaning: of another width than 4 bytes, or at no multiple of 4 (R61). -/
def Inadmissible (a : HostAccess) : Prop :=
  ∃ off bytes, (a = .read off bytes ∨ ∃ v, a = .write off bytes v) ∧ (bytes ≠ 4 ∨ off.toNat % 4 ≠ 0)

/-- A CMD write answers a next state. -/
theorem acceptWord_next (w : Word) (s : State) : ∃ t, acceptWord w s = .next t := by
  rcases acceptWord_cases (w := w) (s := s) rfl with ⟨_, e⟩ | ⟨_, _, e⟩ | ⟨_, _, _, _, e⟩ | ⟨_, _, _, _, e⟩ <;> exact ⟨_, e⟩

/-- So does every admitted write. -/
theorem hostWrite_next (off : Offset) (v : Word) (s : State) : ∃ t, hostWrite off v s = .next t := by
  unfold hostWrite
  split
  · exact acceptWord_next v s
  · exact ⟨_, rfl⟩
  · exact ⟨_, rfl⟩

/-- An access is refused when it is not admitted, and else answers a next state. -/
theorem hostStep_answers (a : HostAccess) (s : State) :
    (Inadmissible a ∧ ∃ r, hostStep a s = .refused r) ∨ (¬ Inadmissible a ∧ ∃ t, hostStep a s = .next t) := by
  have refused : ∀ off bytes, ¬ accessAdmitted off bytes = true ↔ (bytes ≠ 4 ∨ off.toNat % 4 ≠ 0) := by
    intro off bytes
    rw [accessAdmitted_iff]
    tauto
  cases a with
  | read off bytes =>
    by_cases h : accessAdmitted off bytes = true
    · exact .inr ⟨by simpa [Inadmissible, ← refused] using h, _, if_pos h⟩
    · exact .inl ⟨⟨off, bytes, .inl rfl, (refused off bytes).1 h⟩, _, if_neg h⟩
  | write off bytes v =>
    by_cases h : accessAdmitted off bytes = true
    · obtain ⟨t, e⟩ := hostWrite_next off v s
      exact .inr ⟨by simpa [Inadmissible, ← refused] using h, t, (if_pos h).trans e⟩
    · exact .inl ⟨⟨off, bytes, .inr ⟨v, rfl⟩, (refused off bytes).1 h⟩, _, if_neg h⟩

/-- A common step answers as its access does. -/
theorem bothStep_answers (a : HostAccess) (ans : Answer) (s : State) :
    (Inadmissible a ∧ ∃ r, bothStep a ans s = .refused r) ∨ (¬ Inadmissible a ∧ ∃ t, bothStep a ans s = .next t) := by
  rcases hostStep_answers a s with ⟨h, r, e⟩ | ⟨h, t, e⟩
  · exact .inl ⟨h, r, by rw [bothStep, e]⟩
  · exact .inr ⟨h, _, by rw [bothStep, e]⟩

/-- HOST's access in this step, alone or in common with SEQ's turn, is not admitted. -/
def NextAccessInadmissible (s : State) : Prop :=
  ∃ a rest, (s.inputs = .host a :: rest ∨ ∃ ans, s.inputs = .both a ans :: rest) ∧ Inadmissible a

/-- A step answers as HOST's access in it does; with no access it answers a next state. -/
theorem step_answers (s : State) :
    (NextAccessInadmissible s ∧ ∃ r, step s = .refused r) ∨ (¬ NextAccessInadmissible s ∧ ∃ t, step s = .next t) := by
  cases hi : s.inputs with
  | nil => exact .inr ⟨by simp [NextAccessInadmissible, hi], _, step_nil hi⟩
  | cons inp rest =>
    cases inp with
    | host a =>
      have access : NextAccessInadmissible s ↔ Inadmissible a := by simp [NextAccessInadmissible, hi]
      rw [access, step_host hi]
      exact hostStep_answers a _
    | seq ans => exact .inr ⟨by simp [NextAccessInadmissible, hi], _, step_seq hi⟩
    | both a ans =>
      have access : NextAccessInadmissible s ↔ Inadmissible a := by simp [NextAccessInadmissible, hi]
      rw [access, step_both hi]
      exact bothStep_answers a ans _
    | reset => exact .inr ⟨by simp [NextAccessInadmissible, hi], _, step_reset hi⟩

/-- Settles O42: a step is refused with its access and else answers a next state, so it never faults. -/
theorem onlyInadmissibleAccessesStop : Obligations.OnlyInadmissibleAccessesStop := by
  intro s
  change (∀ f, step s ≠ .fault f) ∧ ((∃ r, step s = .refused r) ↔ NextAccessInadmissible s)
  rcases step_answers s with ⟨access, r, e⟩ | ⟨access, t, e⟩ <;> simp [e, access]

/-! ### A running command (R135) -/

/-- Two states have the same command in the same place, the same pins, ready flags, line and pin trace. -/
def SameRun (s t : State) : Prop :=
  t.cur = s.cur ∧ t.acts = s.acts ∧ t.scan = s.scan ∧ t.waitLeft = s.waitLeft ∧ t.pads = s.pads ∧
  t.kpReady = s.kpReady ∧ t.lcdReady = s.lcdReady ∧ t.lb = s.lb ∧ t.lbIdx = s.lbIdx ∧ t.obs.pins = s.obs.pins

/-- While a command is running HOST's access leaves it and the pins alone: it can do no more than raise a flag, clear one,
or read. -/
theorem hostStep_sameRun {a : HostAccess} {s t : State} (busy : s.cur ≠ none) (h : hostStep a s = .next t) :
    SameRun s t := by
  refine hostStep_keeps (P := SameRun s) (fun _ _ hu _ => hu) (fun i u hu idle _ => ?_) (fun _ _ _ hu => hu)
    (fun _ _ hu => hu) a s t ⟨rfl, rfl, rfl, rfl, rfl, rfl, rfl, rfl, rfl, rfl⟩ h
  exact absurd (hu.1.symm.trans idle) busy

/-- Settles O52: HOST's access alone is `hostStep_sameRun`; a CMD write in common is an OVR, and then SEQ has its turn. -/
theorem hostNeverDisturbsTheCommand : Obligations.HostNeverDisturbsTheCommand := by
  constructor
  · intro s t a rest busy hi h
    rw [step_host hi] at h
    exact hostStep_sameRun (s := { s with inputs := rest }) busy h
  · intro s w ans rest busy hi
    rw [step_both hi]
    exact bothStep_busy busy ((hostStep_write_cmd w _).trans (acceptWord_busy w busy))

/-! ### The line buffer -/

/-- HOST changes the line buffer by LB_BEGIN or LB_PUT on an idle block, and not otherwise (R31). -/
theorem hostStep_writes_line {a : HostAccess} {s t : State} (h : hostStep a s = .next t) (changed : t.lb ≠ s.lb) :
    ∃ w, a = .write 0x0 4 w ∧ s.cur = none ∧ (decode w = .ok .lbBegin ∨ ∃ c, decode w = .ok (.lbPut c)) := by
  rcases hostStep_effects h with ⟨off, _, rfl⟩ | ⟨_, _, _, rfl⟩ | ⟨_, _, _, rfl | rfl⟩ | ⟨w, i, ha, idle, hd, _, rfl⟩ |
      ⟨_, _, rfl⟩ | ⟨_, _, _, _, _, rfl⟩
  case inr.inr.inr.inl =>
    refine ⟨w, ha, idle, ?_⟩
    cases i with
    | lbBegin => exact .inl hd
    | lbPut c => exact .inr ⟨c, hd⟩
    | _ => exact absurd rfl changed
  case inl => rw [hostRead_eq] at changed; exact absurd rfl changed
  all_goals exact absurd rfl changed

/-- Settles O54: SEQ leaves the line alone, so HOST's access wrote it; and that access is the line command, accepted. -/
theorem onlyLbCommandsWriteTheLine : Obligations.OnlyLbCommandsWriteTheLine := by
  intro s t h changed
  rcases step_cases h with ⟨_, _, rfl⟩ | ⟨ans, _, _, rfl⟩ | ⟨ans, rest, _, rfl⟩ | ⟨a, rest, hi, ha⟩ |
      ⟨a, ans, rest, u, hi, ha, turn⟩ | ⟨rest, hi, _⟩
  · exact absurd rfl changed
  · exact absurd (seqStep_leaves ans _).1 changed
  · exact absurd (seqStep_leaves ans _).1 changed
  · obtain ⟨w, rfl, idle, command⟩ := hostStep_writes_line ha changed
    exact .inr ⟨w, rest, idle, .inl hi, command⟩
  · have byHost : u.lb ≠ s.lb := by
      rcases turn with ⟨_, rfl⟩ | ⟨_, rfl⟩
      · rwa [(seqStep_leaves ans u).1] at changed
      · exact changed
    obtain ⟨w, rfl, idle, command⟩ := hostStep_writes_line ha byHost
    exact .inr ⟨w, rest, idle, .inr ⟨ans, hi⟩, command⟩
  · exact .inl ⟨rest, hi⟩

end Sys2Proof.Machine
end

section
/-! The sticky flags (R24, R219), the ready flags (R25, R30) and KEY (R26): who sets them and who clears them. -/

namespace Sys2Proof.Machine

/-! ### The sticky flags -/

/-- The flag of a cause. -/
def Flags.has (f : Flags) : ErrCause → Bool
  | .ill => f.ill
  | .ovr => f.ovr
  | .notinit => f.notinit
  | .cfgerr => f.cfgerr
  | .kovr => f.kovr

/-- The STATUS bit of a cause's flag (R23, R210). -/
def ErrCause.statusBit : ErrCause → Nat
  | .ill => 8
  | .ovr => 9
  | .notinit => 10
  | .cfgerr => 11
  | .kovr => 12

/-- Setting a flag sets it and no other. -/
theorem Flags.has_set (f : Flags) (c k : ErrCause) : (f.set c).has k = (decide (k = c) || f.has k) := by
  cases c <;> cases k <;> simp [Flags.set, Flags.has]

/-- A STATUS write clears a flag when the flag's own bit is 1 (R24). -/
theorem Flags.has_clearedBy (f : Flags) (v : Word) (k : ErrCause) :
    (f.clearedBy v).has k = (f.has k && !v.getLsbD k.statusBit) := by
  cases k <;> rfl

/-- HOST's access clears no flag but by a STATUS write with the flag's bit 1 (R24, R219). -/
theorem hostStep_keeps_flag {a : HostAccess} {s t : State} (h : hostStep a s = .next t) {k : ErrCause}
    (set : s.flags.has k = true) (kept : ∀ v, a = .write 0x4 4 v → v.getLsbD k.statusBit = false) :
    t.flags.has k = true := by
  rcases hostStep_effects h with ⟨off, _, rfl⟩ | ⟨_, _, _, rfl⟩ | ⟨_, _, _, rfl | rfl⟩ | ⟨w, i, _, _, _, _, rfl⟩ |
      ⟨v, ha, rfl⟩ | ⟨_, _, _, _, _, rfl⟩
  · rw [hostRead_eq]
    exact set
  · simp [Flags.has_set, set, -Flags.set_ovr]
  · simp [Flags.has_set, set, -Flags.set_ill]
  · simp [Flags.has_set, set, -Flags.set_notinit]
  · simpa using set
  · simp [Flags.has_clearedBy, set, kept v ha]
  · exact set

/-- SEQ clears no flag. -/
theorem seqStep_keeps_flag (a : Answer) {s : State} {k : ErrCause} (set : s.flags.has k = true) :
    (seqStep a s).flags.has k = true := by
  rcases seqStep_turns a s with ⟨_, e⟩ | ⟨_, _, _, e⟩ | ⟨_, _, e⟩ | ⟨_, _, _, _, _, _, _, _, e⟩ |
      ⟨_, _, _, _, _, _, _, _, e⟩ | ⟨_, _, _, _, _, e⟩ <;> rw [e]
  · exact set
  · simpa using set
  · cases k <;> simp_all [State.afterScan, Flags.has]
  · rw [State.configRejected_flags, Flags.has_set, State.record_flags, set, Bool.or_true]
  · simpa using set
  · simpa using set

/-- A flag that is set stays set but for its own STATUS bit and reset (R24, R219). -/
theorem step_keeps_flag {s t : State} (h : step s = .next t) (noReset : ∀ rest, s.inputs ≠ .reset :: rest) {k : ErrCause}
    (set : s.flags.has k = true) (kept : ¬ Safety.ClearsBit s k.statusBit) : t.flags.has k = true := by
  have bit : ∀ v : Word, ((∃ rest, s.inputs = .host (.write 0x4 4 v) :: rest) ∨
      ∃ ans rest, s.inputs = .both (.write 0x4 4 v) ans :: rest) → v.getLsbD k.statusBit = false := by
    intro v hi
    by_contra hv
    exact kept ⟨v, by simpa using hv, hi⟩
  rcases step_cases h with ⟨_, _, rfl⟩ | ⟨ans, _, _, rfl⟩ | ⟨ans, rest, _, rfl⟩ | ⟨a, rest, hi, ha⟩ |
      ⟨a, ans, rest, u, hi, ha, turn⟩ | ⟨rest, hi, _⟩
  · exact set
  · exact seqStep_keeps_flag ans (s := { s with draws := s.draws + 1 }) set
  · exact seqStep_keeps_flag ans (s := { s with inputs := rest }) set
  · exact hostStep_keeps_flag ha set (fun v e => bit v (.inl ⟨rest, e ▸ hi⟩))
  · have := hostStep_keeps_flag ha set (fun v e => bit v (.inr ⟨ans, rest, e ▸ hi⟩))
    rcases turn with ⟨_, rfl⟩ | ⟨_, rfl⟩
    · exact seqStep_keeps_flag ans this
    · exact this
  · exact absurd hi (noReset rest)

/-- Settles O39, a flag at a time. -/
theorem stickyFlagsStayUntilCleared : Obligations.StickyFlagsStayUntilCleared := fun _ _ h noReset =>
  ⟨step_keeps_flag h noReset (k := .ill), step_keeps_flag h noReset (k := .ovr), step_keeps_flag h noReset (k := .notinit),
    step_keeps_flag h noReset (k := .cfgerr), step_keeps_flag h noReset (k := .kovr)⟩

theorem hostStep_write_status (v : Word) (s : State) :
    hostStep (.write 0x4 4 v) s = .next { s with flags := s.flags.clearedBy v } :=
  hostStep_write (by decide) v s

/-- Settles O38: the write alone clears by its own bits; in common with SEQ's turn it comes first, so a flag that turn sets
is set at the end. -/
theorem statusWriteClearsItsOnes : Obligations.StatusWriteClearsItsOnes := by
  constructor
  · intro s v rest hi
    exact (step_host hi).trans (hostStep_write_status v _)
  · intro s v ans rest hi hw
    have common : s.cur ≠ none →
        step s = .next (seqStep ans { s with inputs := rest, flags := s.flags.clearedBy v }) := fun busy =>
      (step_both hi).trans (bothStep_busy busy (hostStep_write_status v _))
    constructor
    · intro hc hp hl valid
      refine ⟨_, common (by simp [hc]), ?_⟩
      rw [seqStep_low_read (s := { s with inputs := rest, flags := s.flags.clearedBy v }) hc hw hp hl]
      simp [valid]
    · intro c x more hc hk hl nack configuration
      have rejected : x.rejected ans = true := by
        rcases configuration with ⟨p, d, rfl⟩ | ⟨p, rfl⟩ <;> simp [Prim.rejected, nack]
      refine ⟨_, common (by simp [hc]), ?_⟩
      rw [seqStep_list ans (s := { s with inputs := rest, flags := s.flags.clearedBy v }) hc hk hw hl,
        perform_eq x ans (s := { s with inputs := rest, flags := s.flags.clearedBy v }) more hw, if_pos rejected]
      simp

/-! ### The ready flags -/

/-- A ready flag that `t` has and `s` has not was set by the end of its unit's INIT, with no configuration rejected
(R30). -/
def ReadyByInit (s t : State) : Prop :=
  (s.kpReady = false → t.kpReady = true → s.cur = some .kpInit ∧ t.cur = none ∧
    (s.flags.cfgerr = false → t.flags.cfgerr = false)) ∧
  (s.lcdReady = false → t.lcdReady = true → s.cur = some .lcdInit ∧ t.cur = none ∧
    (s.flags.cfgerr = false → t.flags.cfgerr = false))

/-- No ready flag is set where both stay as they were. -/
theorem readyByInit_of_eq {s t : State} (kp : t.kpReady = s.kpReady) (lcd : t.lcdReady = s.lcdReady) :
    ReadyByInit s t := by
  constructor <;> intro unready set <;> simp_all

theorem readyByInit_complete (s : State) : ReadyByInit s s.complete := by
  constructor <;> intro unready set <;> simp_all

theorem readyByInit_completeIfDone (s : State) : ReadyByInit s s.completeIfDone := by
  rcases completeIfDone_cases s with ⟨_, _, _, e⟩ | ⟨_, e⟩ <;> rw [e]
  · exact readyByInit_complete s
  · exact readyByInit_of_eq rfl rfl

/-- SEQ's turn sets a ready flag only as it ends the unit's INIT; a rejected configuration sets none. -/
theorem readyByInit_seqStep (a : Answer) (s : State) : ReadyByInit s (seqStep a s) := by
  rcases seqStep_turns a s with ⟨_, e⟩ | ⟨_, _, _, e⟩ | ⟨_, _, e⟩ | ⟨_, _, _, _, _, _, _, _, e⟩ |
      ⟨_, x, rest, _, _, _, _, _, e⟩ | ⟨_, _, _, _, _, e⟩ <;> rw [e]
  · exact readyByInit_of_eq rfl rfl
  · exact readyByInit_completeIfDone { s with waitLeft := s.waitLeft - 1 }
  · exact readyByInit_of_eq rfl rfl
  · exact readyByInit_of_eq rfl rfl
  · exact readyByInit_completeIfDone (s.afterTurn x a rest)
  · exact readyByInit_complete s

/-- HOST's access sets no ready flag: acceptance only clears one (R120, R156). -/
theorem hostStep_unready {a : HostAccess} {s t : State} (h : hostStep a s = .next t) :
    (s.kpReady = false → t.kpReady = false) ∧ (s.lcdReady = false → t.lcdReady = false) := by
  refine hostStep_keeps (P := fun u => (s.kpReady = false → u.kpReady = false) ∧ (s.lcdReady = false → u.lcdReady = false))
    (fun _ _ hu _ => hu) (fun i u hu _ _ => ?_) (fun _ _ _ hu => hu) (fun _ _ hu => hu) a s t ⟨id, id⟩ h
  cases i <;> simp_all [accepted]

/-- While a command is running HOST's access sets no CFGERR. -/
theorem hostStep_cfgerr {a : HostAccess} {s t : State} (h : hostStep a s = .next t) (clear : s.flags.cfgerr = false) :
    t.flags.cfgerr = false := by
  rcases hostStep_effects h with ⟨off, _, rfl⟩ | ⟨_, _, _, rfl⟩ | ⟨_, _, _, rfl | rfl⟩ | ⟨w, i, _, _, _, _, rfl⟩ |
      ⟨v, ha, rfl⟩ | ⟨_, _, _, _, _, rfl⟩
  · rw [hostRead_eq]
    exact clear
  · exact clear
  · exact clear
  · exact clear
  · simpa using clear
  · simp [Flags.clearedBy, clear]
  · exact clear

/-- What comes before SEQ's turn in a step touches neither the command nor the ready flags, and sets no CFGERR. -/
theorem ReadyByInit.of_eq {s u t : State} (h : ReadyByInit u t) (cur : u.cur = s.cur) (kp : u.kpReady = s.kpReady)
    (lcd : u.lcdReady = s.lcdReady) (cfgerr : s.flags.cfgerr = false → u.flags.cfgerr = false) : ReadyByInit s t := by
  obtain ⟨keypad, display⟩ := h
  rw [kp, cur] at keypad
  rw [lcd, cur] at display
  constructor <;> intro unready set
  · obtain ⟨init, idle, clear⟩ := keypad unready set
    exact ⟨init, idle, clear ∘ cfgerr⟩
  · obtain ⟨init, idle, clear⟩ := display unready set
    exact ⟨init, idle, clear ∘ cfgerr⟩

/-- Settles O55: only SEQ's turn sets a ready flag; reset and HOST's accesses set none. -/
theorem readyOnlyByASuccessfulInit : Obligations.ReadyOnlyByASuccessfulInit := by
  intro s t h
  change ReadyByInit s t
  have byHost : ∀ {a rest u}, hostStep a { s with inputs := rest } = .next u → ReadyByInit s u := by
    intro a rest u ha
    obtain ⟨keypad, display⟩ := hostStep_unready ha
    constructor <;> intro unready set
    · simp [keypad unready] at set
    · simp [display unready] at set
  rcases step_cases h with ⟨_, _, rfl⟩ | ⟨ans, _, _, rfl⟩ | ⟨ans, rest, _, rfl⟩ | ⟨a, rest, hi, ha⟩ |
      ⟨a, ans, rest, u, hi, ha, ⟨busy, rfl⟩ | ⟨_, rfl⟩⟩ | ⟨rest, hi, rfl⟩
  · exact readyByInit_of_eq rfl rfl
  · exact (readyByInit_seqStep ans _).of_eq rfl rfl rfl id
  · exact (readyByInit_seqStep ans _).of_eq rfl rfl rfl id
  · exact byHost ha
  · obtain ⟨cur, _, _, _, _, kp, lcd, _⟩ := hostStep_sameRun (s := { s with inputs := rest }) busy ha
    exact (readyByInit_seqStep ans u).of_eq cur kp lcd (hostStep_cfgerr (s := { s with inputs := rest }) ha)
  · exact byHost ha
  · constructor <;> intro _ set <;> simp at set

/-! ### KEY -/

/-- HOST writes KEY by its read of it alone, which clears VALID (R26, R27). -/
theorem hostStep_key {a : HostAccess} {s t : State} (h : hostStep a s = .next t) :
    t.key = s.key ∨ (a = .read 0x8 4 ∧ t.key = { s.key with valid := false }) := by
  rcases hostStep_effects h with ⟨off, ha, rfl⟩ | ⟨_, _, _, rfl⟩ | ⟨_, _, _, rfl | rfl⟩ | ⟨_, _, _, _, _, _, rfl⟩ |
      ⟨_, _, rfl⟩ | ⟨_, _, _, _, _, rfl⟩
  · rw [hostRead_eq]
    by_cases key : off = 0x8
    · subst key
      exact .inr ⟨ha, rfl⟩
    · exact .inl (if_neg key)
  · exact .inl rfl
  · exact .inl rfl
  · exact .inl rfl
  · exact .inl (by simp)
  · exact .inl rfl
  · exact .inl rfl

/-- SEQ writes KEY by a key event alone, in a pass's READ phase (R125). -/
theorem seqStep_key (a : Answer) (s : State) :
    (seqStep a s).key = s.key ∨
    (s.cur = some .kpScan ∧ s.scan.phase = .read ∧ (seqStep a s).key = KeyReg.ofEvent s.params s.scan.i s.scan.j) := by
  rcases seqStep_turns a s with ⟨_, e⟩ | ⟨_, _, _, e⟩ | ⟨hc, _, e⟩ | ⟨_, _, _, _, _, _, _, _, e⟩ |
      ⟨_, _, _, _, _, _, _, _, e⟩ | ⟨_, _, _, _, _, e⟩ <;> rw [e]
  · exact .inl rfl
  · exact .inl (by simp)
  · by_cases hit : scanHits a s = true
    · exact .inr ⟨hc, ((scanHits_iff a s).1 hit).1, if_pos hit⟩
    · exact .inl (if_neg hit)
  · exact .inl (by simp)
  · exact .inl (by simp)
  · exact .inl (by simp)

/-- Settles O56: in a common step an event comes after the read, so where there is one it has the last word. -/
theorem keyHasThreeWriters : Obligations.KeyHasThreeWriters := by
  intro s t h changed
  rcases step_cases h with ⟨_, _, rfl⟩ | ⟨ans, _, _, rfl⟩ | ⟨ans, rest, _, rfl⟩ | ⟨a, rest, hi, ha⟩ |
      ⟨a, ans, rest, u, hi, ha, turn⟩ | ⟨rest, hi, rfl⟩
  · exact absurd rfl changed
  · exact .inr (.inr ((seqStep_key ans _).resolve_left changed))
  · exact .inr (.inr ((seqStep_key ans _).resolve_left changed))
  · obtain ⟨rfl, key⟩ := (hostStep_key ha).resolve_left changed
    exact .inr (.inl ⟨key, rest, .inl hi⟩)
  · have read : t.key = u.key →
        t.key = { s.key with valid := false } ∧
          ∃ rest, s.inputs = .host (.read 0x8 4) :: rest ∨ ∃ ans, s.inputs = .both (.read 0x8 4) ans :: rest := by
      intro byHost
      rw [byHost] at changed ⊢
      obtain ⟨rfl, key⟩ := (hostStep_key ha).resolve_left changed
      exact ⟨key, rest, .inr ⟨ans, hi⟩⟩
    rcases turn with ⟨busy, rfl⟩ | ⟨_, rfl⟩
    · rcases seqStep_key ans u with same | event
      · exact .inr (.inl (read same))
      · obtain ⟨cur, _, scan, _⟩ := hostStep_sameRun (s := { s with inputs := rest }) busy ha
        rw [cur, scan, hostStep_params ha] at event
        exact .inr (.inr event)
    · exact .inr (.inl (read rfl))
  · exact .inl ⟨rest, hi⟩

end Sys2Proof.Machine
end

section
/-! What the whole machine keeps apart: the two units (R162) and the observation (R19), which no rule reads; and the reset
state, which meets every invariant. -/

namespace Sys2Proof.Safety

open Sys2Proof.Machine

/-! ### The two units (R162) -/

/-- A list's end leaves the ready flag of a unit whose INIT is not running. -/
theorem completeIfDone_kpReady_of_ne {s : State} (h : s.cur ≠ some .kpInit) : s.completeIfDone.kpReady = s.kpReady := by
  rcases completeIfDone_cases s with ⟨_, _, _, e⟩ | ⟨_, e⟩ <;> simp [e, h]

theorem completeIfDone_lcdReady_of_ne {s : State} (h : s.cur ≠ some .lcdInit) :
    s.completeIfDone.lcdReady = s.lcdReady := by
  rcases completeIfDone_cases s with ⟨_, _, _, e⟩ | ⟨_, e⟩ <;> simp [e, h]

/-- A turn of a pass leaves the display's pads alone (R122). -/
theorem at_see_scanEvent (v : Pads) (a : Answer) (s : State) {p : Pin} (hp : keypadPin p = false) :
    (v.see (scanEvent a s)).at p = v.at p := by
  have column : p ≠ .col s.scan.j := by
    rintro rfl
    cases hp
  cases h : s.scan.phase <;> simp [scanEvent, h, Pads.see, Pads.at_setOut, column]

/-- A display command's turn leaves the keypad alone, and of the flags sets CFGERR at most. -/
theorem seqStep_of_lcdCommand {s : State} {c : Instr} (inv : SequencerInv s) (hc : s.cur = some c) (display : LcdCommand c)
    (a : Answer) :
    (∀ p, keypadPin p = true → (seqStep a s).pads.at p = s.pads.at p) ∧ (seqStep a s).key = s.key ∧
    (seqStep a s).kpReady = s.kpReady ∧ (seqStep a s).scan = s.scan ∧
    (seqStep a s).flags = { s.flags with cfgerr := (seqStep a s).flags.cfgerr } := by
  have init : s.cur ≠ some .kpInit := by rw [hc]; rintro ⟨⟩; exact display
  have pins : ∀ {x rest}, s.acts = x :: rest → onLcd x = true := fun hl =>
    List.all_eq_true.1 (inv.lcdList c hc display) _ (by simp [hl])
  rcases seqStep_turns a s with ⟨hn, _⟩ | ⟨_, _, _, e⟩ | ⟨hk, _, e⟩ | ⟨_, x, rest, _, _, _, hl, _, e⟩ |
      ⟨_, x, rest, _, _, _, hl, _, e⟩ | ⟨_, _, _, _, _, e⟩ <;> try rw [e]
  · simp [hc] at hn
  · refine ⟨by simp, by simp, completeIfDone_kpReady_of_ne (s := { s with waitLeft := s.waitLeft - 1 }) init, by simp, by simp⟩
  · rw [hc] at hk
    cases hk
    exact absurd display id
  · exact ⟨fun _ _ => rfl, rfl, rfl, rfl, rfl⟩
  · exact ⟨fun p hp => by simpa using at_see_onLcd s.pads a (pins hl) hp, by simp,
      completeIfDone_kpReady_of_ne (s := s.afterTurn x a rest) init, by simp, by simp⟩
  · simp [init]

/-- A keypad command's turn leaves the display alone. -/
theorem seqStep_of_not_lcdCommand {s : State} {c : Instr} (inv : SequencerInv s) (hc : s.cur = some c)
    (keypad : ¬ LcdCommand c) (a : Answer) :
    (∀ p, keypadPin p = false → (seqStep a s).pads.at p = s.pads.at p) ∧ (seqStep a s).lcdReady = s.lcdReady := by
  have init : s.cur ≠ some .lcdInit := by rw [hc]; rintro ⟨⟩; exact keypad trivial
  have pins : c ≠ .kpScan → ∀ {x rest}, s.acts = x :: rest → onKeypad x = true := by
    intro hk x rest hl
    have kpInit : c = .kpInit := by
      by_contra hi
      exact keypad (lcdCommand_of_runs (inv.runs c hc) hk hi)
    exact List.all_eq_true.1 (inv.kpInit (kpInit ▸ hc)).2 _ (by simp [hl])
  rcases seqStep_turns a s with ⟨hn, _⟩ | ⟨_, _, _, e⟩ | ⟨hk, _, e⟩ | ⟨_, x, rest, _, _, _, hl, _, e⟩ |
      ⟨c', x, rest, hc', hk, _, hl, _, e⟩ | ⟨_, _, _, _, _, e⟩ <;> try rw [e]
  · simp [hc] at hn
  · exact ⟨by simp, completeIfDone_lcdReady_of_ne (s := { s with waitLeft := s.waitLeft - 1 }) init⟩
  · exact ⟨fun p hp => at_see_scanEvent s.pads a s hp, rfl⟩
  · exact ⟨fun _ _ => rfl, rfl⟩
  · have same : c' = c := by simpa [hc] using hc'.symm
    exact ⟨fun p hp => by simpa using at_see_onKeypad s.pads a (pins (same ▸ hk) hl) hp,
      completeIfDone_lcdReady_of_ne (s := s.afterTurn x a rest) init⟩
  · simp [init]

/-- Settles O53: the running command's list holds its own unit's pins alone, and a pass drives columns and reads rows. -/
theorem unitsDoNotTouchEachOther : Obligations.UnitsDoNotTouchEachOther := by
  intro s t ans rest c inv hc hi h
  rw [step_seq hi] at h
  injection h with h
  subst h
  have inv' : SequencerInv { s with inputs := rest } := inv.of_eq rfl rfl rfl rfl rfl
  obtain ⟨line, index, _⟩ := seqStep_leaves ans { s with inputs := rest }
  exact ⟨line, index, fun display => seqStep_of_lcdCommand inv' hc display ans,
    fun keypad => seqStep_of_not_lcdCommand inv' hc keypad ans⟩

/-! ### The observation (R19) -/

theorem forget_complete (s : State) : forget s.complete = (forget s).complete := by
  unfold State.complete
  cases hc : s.cur with
  | none => simp [forget, hc]
  | some c => cases c <;> simp [forget, hc]

theorem forget_completeIfDone (s : State) : forget s.completeIfDone = (forget s).completeIfDone := by
  have same : (forget s).listDone = s.listDone := rfl
  unfold State.completeIfDone
  rw [same]
  split
  · exact forget_complete s
  · rfl

/-- SEQ's turn does not read the observation. -/
theorem forget_seqStep (a : Answer) (s : State) : forget (seqStep a s) = forget (seqStep a (forget s)) := by
  have list : ∀ t t' : State, forget t = forget t' → forget t.completeIfDone = forget t'.completeIfDone := by
    intro t t' h
    rw [forget_completeIfDone, forget_completeIfDone, h]
  rcases seqStep_cases a s with ⟨hc, e⟩ | ⟨c, hc, hw, e⟩ | ⟨hc, hw, e⟩ | ⟨c, x, rest, hc, hk, hw, hl, e⟩ |
      ⟨c, hc, hk, hw, hl, e⟩ <;> rw [e]
  · rw [seqStep_idle a (s := forget s) hc]
    rfl
  · rw [seqStep_wait a (s := forget s) hc hw]
    exact list _ _ rfl
  · rw [seqStep_scan a (s := forget s) hc hw, scanStep_eq a hc hw, scanStep_eq a (s := forget s) hc hw]
    rfl
  · rw [seqStep_list a (s := forget s) hc hk hw hl, perform_eq x a rest hw, perform_eq x a (s := forget s) rest hw]
    split
    · rfl
    · exact list _ _ rfl
  · rw [seqStep_empty a (s := forget s) hc hk hw hl, ← forget_complete]
    rfl

/-- An accepted command does not read the observation. -/
theorem forget_accepted (i : Instr) (s : State) : forget (accepted i s) = forget (accepted i (forget s)) := by
  cases i with
  | lbPut c =>
    by_cases room : s.lbIdx.val < 16
    · rw [accepted, accepted, s.linePut_of_lt c room, (forget s).linePut_of_lt c room]
      rfl
    · rw [accepted, accepted, s.linePut_of_full c room, (forget s).linePut_of_full c room]
      rfl
  | _ => rfl

/-- Acceptance does not read the observation. -/
theorem forget_acceptWord (w : Word) (s : State) :
    forgetOutcome (acceptWord w s) = forgetOutcome (acceptWord w (forget s)) := by
  have busy : (forget s).busy = s.busy := rfl
  have ready : ∀ i, unitReady i (forget s) = unitReady i s := fun i => by cases i <;> rfl
  unfold acceptWord
  rw [busy]
  split
  · rfl
  · split
    · rfl
    · rename_i i _
      rw [exec_eq_submit, exec_eq_submit, submit, submit, busy, ready]
      split
      · rfl
      · split
        · exact congrArg Host.Outcome.next (forget_accepted i s)
        · rfl

/-- HOST's access does not read the observation. -/
theorem forget_hostStep (a : HostAccess) (s : State) :
    forgetOutcome (hostStep a s) = forgetOutcome (hostStep a (forget s)) := by
  cases a with
  | read off bytes =>
    unfold hostStep
    dsimp only
    split
    · rw [hostRead_eq, hostRead_eq]
      rfl
    · rfl
  | write off bytes v =>
    unfold hostStep hostWrite
    dsimp only
    split
    · split
      · exact forget_acceptWord v s
      · rfl
      · rfl
    · rfl

/-- Nor does a common step: SEQ's turn follows on states that differ in the observation alone. -/
theorem forget_bothStep (a : HostAccess) (ans : Answer) (s : State) :
    forgetOutcome (bothStep a ans s) = forgetOutcome (bothStep a ans (forget s)) := by
  have busy : (forget s).busy = s.busy := rfl
  have host := forget_hostStep a s
  unfold bothStep
  rw [busy]
  cases h : hostStep a s <;> cases h' : hostStep a (forget s) <;> rw [h, h'] at host <;>
    simp only [forgetOutcome, Host.Outcome.next.injEq, Host.Outcome.fault.injEq, Host.Outcome.refused.injEq,
      reduceCtorEq] at host ⊢
  case next.next u u' =>
    split
    · rw [forget_seqStep, host, ← forget_seqStep]
    · exact host
  all_goals exact host

/-- A step does not read the observation. -/
theorem forget_step (s : State) : forgetOutcome (step s) = forgetOutcome (step (forget s)) := by
  cases hi : s.inputs with
  | nil =>
    have busy : (forget s).busy = s.busy := rfl
    rw [step_nil hi, step_nil (s := forget s) hi, freeStep, freeStep, busy]
    split
    · exact congrArg Host.Outcome.next (forget_seqStep _ { s with draws := s.draws + 1 })
    · rfl
  | cons inp rest =>
    cases inp with
    | host a =>
      rw [step_host hi, step_host (s := forget s) hi]
      exact forget_hostStep a _
    | seq ans =>
      rw [step_seq hi, step_seq (s := forget s) hi]
      exact congrArg Host.Outcome.next (forget_seqStep ans { s with inputs := rest })
    | both a ans =>
      rw [step_both hi, step_both (s := forget s) hi]
      exact forget_bothStep a ans _
    | reset =>
      rw [step_reset hi, step_reset (s := forget s) hi]
      rfl

/-- Settles O59: a step of a state is, but for the observation, the step of the state without one. -/
theorem observationIsNeverRead : Obligations.ObservationIsNeverRead := by
  intro s s' h
  rw [forget_step s, h, ← forget_step s']

/-! ### The reset state -/

/-- The legend of a permutation lists its symbols in order. -/
theorem legendOf_toList (order : Equiv.Perm (Fin 16)) :
    (Config.legendOf order).toList = (List.finRange 16).map (Symbol.ofIndex ∘ order) := rfl

/-- No symbol stands twice in the legend of a permutation (R11). -/
theorem legendOf_nodup (order : Equiv.Perm (Fin 16)) : (Config.legendOf order).toList.Nodup := by
  have symbols : ∀ k k', Symbol.ofIndex k = Symbol.ofIndex k' → k = k' := by decide
  rw [legendOf_toList]
  exact (List.nodup_finRange 16).map fun k k' h => order.injective (symbols _ _ h)

/-- The reset state's build meets R8, R10 and R11. -/
theorem build_valid : Config.build.valid = true := by
  have legend : Config.build.keymap.toList.Nodup := legendOf_nodup Config.keyOrder
  simp only [Params.valid, legend, decide_true, Bool.and_true, Bool.and_eq_true, decide_eq_true_eq]
  exact ⟨⟨by decide, by decide⟩, Nat.le_add_left 1 Config.clockBelow⟩

/-- Settles O46: the reset state is idle with neither unit ready, and its trace is empty. -/
theorem resetMeetsTheInvariants : Obligations.ResetMeetsTheInvariants := by
  have idle : State.reset.cur = none := rfl
  have unready : State.reset.kpReady = false := rfl
  have inv : SequencerInv State.reset := sequencerInv_of_idle rfl rfl rfl
  refine ⟨build_valid, ?columns, ?display, rfl⟩
  case columns => refine ⟨inv, ?_, ?_, ?_, ?_, ?_⟩ <;> simp [idle, unready]
  case display => exact .of_watch inv (fun _ => ⟨rfl, rfl, rfl⟩) (by simp [idle])

end Sys2Proof.Safety
end

section
/-! The display: SEND's list (R150 to R153, R267), and the display's commands run to their end (R154 to R156, R182). -/

namespace Sys2Proof.Safety

open Sys2Proof.Machine

/-! ### SEND's list -/

/-- The high nibble's bits are bits 4 to 7 of the byte, the low nibble's bits 0 to 3 (R16). -/
theorem highNibble_getLsbD (v : Byte) {k : Nat} (h : k < 4) : (highNibble v).getLsbD k = v.getLsbD (4 + k) := by
  simp [highNibble, h]

theorem lowNibble_getLsbD (v : Byte) {k : Nat} (h : k < 4) : (lowNibble v).getLsbD k = v.getLsbD k := by
  simp [lowNibble, h]

/-- NIB of each nibble of a byte, by the byte's bits (R150). -/
theorem nibActs_highNibble (v : Byte) :
    nibActs (highNibble v) = nibClears ++ nibSet (v.getLsbD 4) .d4 ++ nibSet (v.getLsbD 5) .d5
      ++ nibSet (v.getLsbD 6) .d6 ++ nibSet (v.getLsbD 7) .d7 := by
  simp only [nibActs, highNibble_getLsbD, Nat.reduceLT, Nat.reduceAdd]

theorem nibActs_lowNibble (v : Byte) :
    nibActs (lowNibble v) = nibClears ++ nibSet (v.getLsbD 0) .d4 ++ nibSet (v.getLsbD 1) .d5
      ++ nibSet (v.getLsbD 2) .d6 ++ nibSet (v.getLsbD 3) .d7 := by
  simp only [nibActs, lowNibble_getLsbD, Nat.reduceLT]

/-- Settles O17: NIB's optional writes are the statement's, nibble by nibble. -/
theorem sendIsTwoClearedAndLatchedNibbles : Obligations.SendIsTwoClearedAndLatchedNibbles := by
  intro p v rs clears ones toggle
  have one : ∀ l rest, ones (l :: rest) = nibSet (v.getLsbD l.2) l.1 ++ ones rest := by
    intro l rest
    cases h : v.getLsbD l.2 <;> simp [ones, nibSet, h]
  have none : ones [] = [] := rfl
  simp only [one, none, List.append_nil, sendActs, nibActs_highNibble, nibActs_lowNibble, List.append_assoc]
  rfl

/-- SEND has 19 actions and one per 1 bit (R152). -/
theorem length_sendActs (p : Params) (v : Byte) (rs : Level) : (sendActs p v rs).length = 19 + popcount v := by
  have one : ∀ b q, (nibSet b q).length = b.toNat := fun b q => by cases b <;> rfl
  have clears : nibClears.length = 4 := rfl
  have toggle : (toggleActs p).length = 5 := rfl
  simp only [sendActs, List.length_append, nibActs_highNibble, nibActs_lowNibble, one, clears, toggle,
    List.length_singleton, popcount]
  omega

theorem actsDuration_append (a b : List Prim) : actsDuration (a ++ b) = actsDuration a + actsDuration b := by
  simp [actsDuration]

theorem actsDuration_nibActs (n : Nibble) : actsDuration (nibActs n) = 0 := by
  have one : ∀ b q, actsDuration (nibSet b q) = 0 := fun b q => by cases b <;> rfl
  have clears : actsDuration nibClears = 0 := rfl
  simp only [nibActs, actsDuration_append, one, clears]

/-- SEND takes at least two pulses and four settle waits (R267). -/
theorem actsDuration_sendActs (p : Params) (v : Byte) (rs : Level) :
    actsDuration (sendActs p v rs) = 4 * p.tSettle + 2 * p.tPulse := by
  have toggle : actsDuration (toggleActs p) = p.tSettle + p.tPulse + p.tSettle := by
    simp [toggleActs, actsDuration, Nat.add_assoc]
  have first : actsDuration [.write .rs rs] = 0 := rfl
  simp only [sendActs, actsDuration_append, actsDuration_nibActs, toggle, first]
  omega

/-- Settles O18. -/
theorem sendCountAndDuration : Obligations.SendCountAndDuration := fun p v rs =>
  ⟨length_sendActs p v rs, actsDuration_sendActs p v rs⟩

/-- The SENDs of several bytes. -/
theorem length_sends (p : Params) (bytes : List Byte) (rs : Level) :
    (bytes.flatMap fun v => sendActs p v rs).length = 19 * bytes.length + (bytes.map popcount).sum := by
  induction bytes with
  | nil => rfl
  | cons v bytes ih =>
    simp only [List.flatMap_cons, List.length_append, length_sendActs, ih, List.length_cons, List.map_cons, List.sum_cons]
    omega

theorem actsDuration_sends (p : Params) (bytes : List Byte) (rs : Level) :
    actsDuration (bytes.flatMap fun v => sendActs p v rs) = bytes.length * (4 * p.tSettle + 2 * p.tPulse) := by
  induction bytes with
  | nil => simp [actsDuration]
  | cons v bytes ih =>
    rw [List.flatMap_cons, actsDuration_append, actsDuration_sendActs, ih, List.length_cons, Nat.add_mul]
    omega

/-- The latch trace of several SENDs: each byte's two nibbles, in order (R158). -/
theorem latchTrace_append_sends (p : Params) (t : List PinEvent) (bytes : List Byte) (rs : Level) :
    latchTrace (t ++ (bytes.flatMap fun v => sendActs p v rs).map acceptedEvent) =
      latchTrace t ++ bytes.flatMap fun v => [⟨rs, highNibble v⟩, ⟨rs, lowNibble v⟩] := by
  induction bytes generalizing t with
  | nil => simp
  | cons v bytes ih =>
    rw [List.flatMap_cons, List.map_append, ← List.append_assoc, ih, latchTrace_append_send, List.flatMap_cons,
      List.append_assoc]

/-- The level SEND leaves on a pin that had the level `l` (R152). -/
def sentLevel (v : Byte) (rs : Level) (q : Pin) (l : Level) : Level :=
  match q with
  | .rs => rs
  | .e => false
  | .d4 => v.getLsbD 0
  | .d5 => v.getLsbD 1
  | .d6 => v.getLsbD 2
  | .d7 => v.getLsbD 3
  | .row _ => l
  | .col _ => l

/-- SEND changes levels alone. -/
theorem at_padsAfter_send (p : Params) (v : Byte) (rs : Level) (w : Pads) (q : Pin) :
    (padsAfter w (sendActs p v rs)).at q = { w.at q with out := sentLevel v rs q (w.at q).out } := by
  rw [padsAfter_send]
  cases q <;> simp [Pads.at_setOut, sentLevel]

/-! ### A list command from its start to its end -/

/-- From an idle block a command's list, all of it accepted, runs to an idle block: the pads are as the list leaves them,
an INIT's unit is ready, and nothing else has changed but the trace. -/
theorem seqRun_start {s : State} {i : Instr} {l : List Prim} {as : List Answer} (inv : SequencerInv s)
    (idle : s.cur = none) (hk : i ≠ .kpScan) (hl : l ≠ []) (hf : Follows s.params as (l.map acceptedEvent)) :
    seqRun as (s.start i l) = .next { s with
      inputs := []
      pads := padsAfter s.pads l
      kpReady := decide (i = .kpInit) || s.kpReady
      lcdReady := decide (i = .lcdInit) || s.lcdReady
      obs := { s.obs with pins := s.obs.pins ++ l.map acceptedEvent } } := by
  obtain ⟨noList, noWait⟩ := inv.idle idle
  rw [seqRun_eq, seqFold_list (s := s.start i l) rfl hk noWait hl hf]
  cases i <;> simp [State.complete, State.start, idle, noList]

/-- The steps of a list that holds no configuration are enough, whatever ENV answers. -/
theorem follows_workLeft {s : State} {i : Instr} {l : List Prim} {as : List Answer} (inv : SequencerInv s)
    (idle : s.cur = none) (hl : ∀ x ∈ l, (∃ q lvl, x = .write q lvl) ∨ ∃ us, x = .wait us)
    (h : as.length = workLeft (s.start i l)) : Follows s.params as (l.map acceptedEvent) := by
  refine follows_of_length hl (h.trans ?_)
  simp [workLeft, (inv.idle idle).2]

/-- Settles O20: the command is its SEND. -/
theorem byteCommandsRunToTheEnd : Obligations.ByteCommandsRunToTheEnd := by
  intro s v isData inv idle ready
  refine ⟨s.start (if isData then .lcdData v else .lcdCmd v) (sendActs s.params v isData), ?_, fun as has => ?_⟩
  · cases isData <;> exact exec_ready idle ready
  · have follows := follows_workLeft inv idle (send_writes_waits s.params v isData) has
    rw [seqRun_start inv idle (by cases isData <;> simp) (sendActs_ne_nil _ _ _) follows, padsAfter_send]
    cases isData <;> simp

/-! ### LCD_WRITE_LINE (R182) -/

theorem length_lineActs (p : Params) (l : DisplayLine) (lb : Vector Byte 16) :
    (lineActs p l lb).length = 323 + popcount (lineAddr l) + (lb.toList.map popcount).sum := by
  rw [lineActs, List.length_append, length_sendActs, length_sends, Vector.length_toList]
  omega

theorem actsDuration_lineActs (p : Params) (l : DisplayLine) (lb : Vector Byte 16) :
    actsDuration (lineActs p l lb) = 68 * p.tSettle + 34 * p.tPulse := by
  rw [lineActs, actsDuration_append, actsDuration_sendActs, actsDuration_sends, Vector.length_toList]
  omega

theorem lineActs_writes_waits (p : Params) (l : DisplayLine) (lb : Vector Byte 16) :
    ∀ x ∈ lineActs p l lb, (∃ q lvl, x = .write q lvl) ∨ ∃ us, x = .wait us := by
  intro x hx
  rcases List.mem_append.1 hx with hx | hx
  · exact send_writes_waits _ _ _ x hx
  · obtain ⟨c, _, hx⟩ := List.mem_flatMap.1 hx
    exact send_writes_waits _ _ _ x hx

/-- The latch trace of a line write: its address with RS low, then its bytes with RS high. -/
theorem latchTrace_append_lineActs (p : Params) (t : List PinEvent) (l : DisplayLine) (lb : Vector Byte 16) :
    latchTrace (t ++ (lineActs p l lb).map acceptedEvent) =
      latchTrace t ++ [⟨false, highNibble (lineAddr l)⟩, ⟨false, lowNibble (lineAddr l)⟩]
        ++ lb.toList.flatMap fun c => [⟨true, highNibble c⟩, ⟨true, lowNibble c⟩] := by
  rw [lineActs, List.map_append, ← List.append_assoc, latchTrace_append_sends, latchTrace_append_send]

/-- The pads `w'` differ from `w` at most in the levels of the display's pins. -/
def OnlyDisplayLevels (w w' : Pads) : Prop :=
  ∀ q, (keypadPin q = true → w'.at q = w.at q) ∧ (w'.at q).dir = (w.at q).dir ∧ (w'.at q).pu = (w.at q).pu

theorem OnlyDisplayLevels.trans {u v w : Pads} (h : OnlyDisplayLevels u v) (h' : OnlyDisplayLevels v w) :
    OnlyDisplayLevels u w := fun q =>
  ⟨fun hq => ((h' q).1 hq).trans ((h q).1 hq), (h' q).2.1.trans (h q).2.1, (h' q).2.2.trans (h q).2.2⟩

theorem onlyDisplayLevels_send (p : Params) (v : Byte) (rs : Level) (w : Pads) :
    OnlyDisplayLevels w (padsAfter w (sendActs p v rs)) := by
  intro q
  rw [at_padsAfter_send]
  refine ⟨fun hq => ?_, rfl, rfl⟩
  cases q with
  | row i => rfl
  | col j => rfl
  | _ => cases hq

theorem onlyDisplayLevels_sends (p : Params) (bytes : List Byte) (rs : Level) (w : Pads) :
    OnlyDisplayLevels w (padsAfter w (bytes.flatMap fun v => sendActs p v rs)) := by
  induction bytes generalizing w with
  | nil => exact fun _ => ⟨fun _ => rfl, rfl, rfl⟩
  | cons v bytes ih =>
    rw [List.flatMap_cons, padsAfter_append]
    exact (onlyDisplayLevels_send p v rs w).trans (ih _)

/-- Settles O22: the line's list is seventeen SENDs. -/
theorem writeLineRunsToTheEnd : Obligations.WriteLineRunsToTheEnd := by
  intro s l inv idle ready
  refine ⟨s.start (.lcdWriteLine l) (lineActs s.params l s.lb), exec_ready idle ready, actsDuration_lineActs _ _ _,
    length_lineActs _ _ _, fun as has => ?_⟩
  have work : lineActs s.params l s.lb ≠ [] := List.append_ne_nil_of_left_ne_nil (sendActs_ne_nil _ _ _) _
  have follows := follows_workLeft inv idle (lineActs_writes_waits s.params l s.lb) has
  have levels : OnlyDisplayLevels s.pads (padsAfter s.pads (lineActs s.params l s.lb)) := by
    rw [lineActs, padsAfter_append]
    exact (onlyDisplayLevels_send _ _ _ _).trans (onlyDisplayLevels_sends _ _ _ _)
  refine ⟨_, seqRun_start inv idle (by simp) work follows, latchTrace_append_lineActs _ _ _ _, fun q => (levels q).1,
    fun q => (levels q).2, ?_⟩
  simp

/-! ### LCD_INIT (R156) -/

theorem length_lcdInitActs (p : Params) : (lcdInitActs p).length = 136 := by
  have bits : (lcdInitBytes.map popcount).sum = 14 := by decide
  rw [lcdInitActs, List.length_append, List.length_append, length_sends, bits]
  rfl

theorem actsDuration_lcdInitActs (p : Params) : actsDuration (lcdInitActs p) = 25 * p.tSettle + 12 * p.tPulse := by
  have configuration : actsDuration lcdPinCfgActs = 0 := rfl
  have last : actsDuration [.wait p.tSettle] = p.tSettle := rfl
  have bytes : lcdInitBytes.length = 6 := rfl
  rw [lcdInitActs, actsDuration_append, actsDuration_append, configuration, actsDuration_sends, last, bytes]
  omega

/-- E is high for the timing observer exactly while the latch observer has a pulse open. -/
theorem lcdWatch_eHigh (p : Params) (t : List PinEvent) :
    (lcdWatch p t).eHigh = (t.foldl LatchView.see LatchView.start).pulse := by
  induction t using List.reverseRecOn with
  | nil => rfl
  | append_singleton t ev ih =>
    rw [lcdWatch_snoc, List.foldl_append, List.foldl_cons, List.foldl_nil]
    generalize lcdWatch p t = m at ih ⊢
    generalize t.foldl LatchView.see LatchView.start = v at ih ⊢
    cases ev with
    | write q lvl =>
      cases q with
      | e =>
        cases lvl <;> cases hm : m.eHigh <;> cases hv : v.pulse <;>
          simp_all [LcdMonitor.see, LcdMonitor.enable, LatchView.see]
      | _ => exact ih
    | reset => rfl
    | _ => exact ih

/-- With no pulse open the configuration of the display's pins latches nothing. -/
theorem latchTrace_append_lcdPinCfg {t : List PinEvent} (h : (t.foldl LatchView.see LatchView.start).pulse = false) :
    latchTrace (t ++ lcdPinCfgActs.map acceptedEvent) = latchTrace t := by
  simp [latchTrace, lcdPinCfgActs, acceptedEvent, LatchView.see, h]

/-- A wait latches nothing. -/
theorem latchTrace_append_wait (t : List PinEvent) (us : Nat) : latchTrace (t ++ [.wait us]) = latchTrace t := by
  simp [latchTrace, LatchView.see]

theorem latchTrace_append_lcdInit (p : Params) {t : List PinEvent}
    (h : (t.foldl LatchView.see LatchView.start).pulse = false) :
    latchTrace (t ++ (lcdInitActs p).map acceptedEvent) =
      latchTrace t ++ lcdInitBytes.flatMap fun v => [⟨false, highNibble v⟩, ⟨false, lowNibble v⟩] := by
  have last : [Prim.wait p.tSettle].map acceptedEvent = [.wait p.tSettle] := rfl
  rw [lcdInitActs, List.map_append, List.map_append, last, ← List.append_assoc, ← List.append_assoc,
    latchTrace_append_wait, latchTrace_append_sends, latchTrace_append_lcdPinCfg h]

/-- A pad after the configuration of the display's pins (R157). -/
theorem at_padsAfter_lcdPinCfg (w : Pads) (q : Pin) :
    (padsAfter w lcdPinCfgActs).at q =
      if keypadPin q then w.at q else ⟨.output, if q = .e then false else (w.at q).out, (w.at q).pu⟩ := by
  simp only [lcdPinCfgActs, padsAfter, List.foldl, padsAfterPrim]
  cases q <;> simp [keypadPin, Pads.at_setDir, Pads.at_setOut]

/-- A pad after LCD_INIT's list (R156): the last byte sent, 0x01, has only its lowest bit. -/
theorem at_padsAfter_lcdInit (p : Params) (w : Pads) (q : Pin) :
    (padsAfter w (lcdInitActs p)).at q =
      if keypadPin q then w.at q else ⟨.output, decide (q = .d4), (w.at q).pu⟩ := by
  have split : lcdInitActs p = lcdPinCfgActs ++ ([0x33, 0x32, 0x06, 0x0C, 0x28].flatMap fun v => sendActs p v false)
      ++ sendActs p 0x01 false ++ [.wait p.tSettle] := by
    simp [lcdInitActs, lcdInitBytes]
  have last : ∀ v : Pads, padsAfter v [.wait p.tSettle] = v := fun _ => rfl
  have sends := onlyDisplayLevels_sends p [0x33, 0x32, 0x06, 0x0C, 0x28] false (padsAfter w lcdPinCfgActs) q
  rw [split, padsAfter_append, padsAfter_append, padsAfter_append, last, at_padsAfter_send]
  generalize (padsAfter (padsAfter w lcdPinCfgActs) _).at q = x at sends ⊢
  obtain ⟨keypad, dir, pu⟩ := sends
  rw [at_padsAfter_lcdPinCfg] at keypad dir pu
  cases q with
  | row i => exact keypad rfl
  | col j => exact keypad rfl
  | _ => simp [dir, pu, keypadPin, sentLevel]

/-- Settles O21: the list configures the pins, sends six bytes and waits; `LcdTimingInv` says that no pulse is open before. -/
theorem lcdInitRunsToReady : Obligations.LcdInitRunsToReady := by
  intro s inv idle
  let s' : State := { s with lcdReady := false }
  have inv' : SequencerInv s' := by
    obtain ⟨noList, noWait⟩ := inv.idle idle
    exact sequencerInv_of_idle idle noList noWait
  have noPulse : (s.obs.pins.foldl LatchView.see LatchView.start).pulse = false := by
    rw [← lcdWatch_eHigh s.params]
    exact (inv.resting (by simp [idle])).2.1
  refine ⟨s'.start .lcdInit (lcdInitActs s.params), exec_ready idle rfl, length_lcdInitActs _, actsDuration_lcdInitActs _,
    fun as follows => ⟨_, seqRun_start inv' idle (by simp) (by simp [lcdInitActs]) follows, ?_, ?_, ?_, ?_⟩⟩
  · intro p hp
    simp [at_padsAfter_lcdInit, hp, s']
  · intro p hp
    simp [at_padsAfter_lcdInit, hp, s']
  · exact latchTrace_append_lcdInit s.params noPulse
  · simp [s']

end Sys2Proof.Safety
end

section
/-! The line buffer: a text put character by character (R183), and two writes of one text to one line (R185). -/

namespace Sys2Proof.Safety

open Sys2Proof.Machine

/-! ### Commands back to back -/

theorem accepted_withInputs (i : Instr) (s : State) (l : List Input) :
    accepted i { s with inputs := l } = { accepted i s with inputs := l } := by
  cases i with
  | lbPut c =>
    by_cases room : s.lbIdx.val < 16
    · rw [accepted, accepted, s.linePut_of_lt c room, State.linePut_of_lt { s with inputs := l } c room]
    · rw [accepted, accepted, s.linePut_of_full c room, State.linePut_of_full { s with inputs := l } c room]
  | _ => rfl

/-- A run of CMD writes goes on from the state its first command, accepted, leaves. -/
theorem submitRun_cons {i : Instr} {s : State} (is : List Instr) (idle : s.cur = none) (ready : unitReady i s = true) :
    submitRun (i :: is) s = submitRun is (accepted i s) := by
  have word : decode (encode i) = .ok i := decode_encode i
  have ready' : ∀ l : List Input, unitReady i { s with inputs := l } = true := fun l => by
    rw [← ready]
    cases i <;> rfl
  have h : step { s with inputs := (i :: is).map fun i => Input.host (.write 0x0 4 (encode i)) }
      = .next { accepted i s with inputs := is.map fun i => Input.host (.write 0x0 4 (encode i)) } := by
    rw [step_host_write_legal word rfl, ← accepted_withInputs]
    exact exec_ready idle (ready' _)
  exact core_run_succ is.length h

/-! ### Putting a text (R183) -/

/-- The state after an LB_PUT of each character. -/
def putText (s : State) (text : List Byte) : State := text.foldl State.linePut s

@[simp] theorem putText_cons (s : State) (c : Byte) (text : List Byte) :
    putText s (c :: text) = putText (s.linePut c) text := rfl

/-- Putting a text changes the line and its index alone. -/
theorem putText_frame (s : State) (text : List Byte) :
    putText s text = { s with lb := (putText s text).lb, lbIdx := (putText s text).lbIdx } := by
  induction text generalizing s with
  | nil => rfl
  | cons c text ih =>
    rw [putText_cons, ih]
    by_cases room : s.lbIdx.val < 16
    · rw [s.linePut_of_lt c room]
    · rw [s.linePut_of_full c room]

/-- LB_PUT counts its character, up to 16 (R181). -/
theorem linePut_lbIdx (s : State) (c : Byte) : (s.linePut c).lbIdx.val = min (s.lbIdx.val + 1) 16 := by
  by_cases room : s.lbIdx.val < 16
  · rw [s.linePut_of_lt c room]
    exact (Nat.min_eq_left room).symm
  · rw [s.linePut_of_full c room]
    omega

/-- LB_PUT writes the character at the index, if there is one (R181). -/
theorem linePut_getElem (s : State) (c : Byte) (k : Fin 16) :
    (s.linePut c).lb[k] = if s.lbIdx.val = k.val then c else s.lb[k] := by
  by_cases room : s.lbIdx.val < 16
  · rw [s.linePut_of_lt c room]
    exact Vector.getElem_set room k.isLt
  · rw [s.linePut_of_full c room, if_neg (by omega)]

/-- The index counts the characters put, up to 16 (R181, R183). -/
theorem putText_lbIdx (s : State) (text : List Byte) :
    (putText s text).lbIdx.val = min (s.lbIdx.val + text.length) 16 := by
  induction text generalizing s with
  | nil => exact (Nat.min_eq_left (Nat.le_of_lt_succ s.lbIdx.isLt)).symm
  | cons c text ih =>
    rw [putText_cons, ih, linePut_lbIdx, List.length_cons]
    omega

/-- The characters of the line from the index on are those put, as long as there are any (R181, R183). -/
theorem putText_getElem (s : State) (text : List Byte) (k : Fin 16) :
    (putText s text).lb[k] = if k.val < s.lbIdx.val then s.lb[k] else text.getD (k.val - s.lbIdx.val) s.lb[k] := by
  induction text generalizing s with
  | nil => simp [putText]
  | cons c text ih =>
    rw [putText_cons, ih, linePut_lbIdx, linePut_getElem]
    rcases Nat.lt_trichotomy k.val s.lbIdx.val with before | here | after
    · have counted : k.val < min (s.lbIdx.val + 1) 16 := by omega
      rw [if_pos counted, if_pos before, if_neg (Nat.ne_of_gt before)]
    · have counted : k.val < min (s.lbIdx.val + 1) 16 := by omega
      have first : k.val - s.lbIdx.val = 0 := by omega
      rw [if_pos counted, if_pos here.symm, if_neg (Nat.not_lt.2 (Nat.le_of_eq here.symm)), first]
      rfl
    · have later : ¬ k.val < min (s.lbIdx.val + 1) 16 := by omega
      have next : k.val - s.lbIdx.val = (k.val - min (s.lbIdx.val + 1) 16) + 1 := by omega
      rw [if_neg later, if_neg (Nat.ne_of_lt after), if_neg (Nat.not_lt_of_gt after), next, List.getD_cons_succ]

/-- Putting a text is a run of LB_PUTs on an idle block. -/
theorem submitRun_puts (text : List Byte) (is : List Instr) {s : State} (idle : s.cur = none) :
    submitRun (text.map Instr.lbPut ++ is) s = submitRun is (putText s text) := by
  induction text generalizing s with
  | nil => rfl
  | cons c text ih =>
    rw [List.map_cons, List.cons_append, submitRun_cons _ idle rfl]
    exact ih ((s.linePut_cur c).trans idle)

/-- LB_BEGIN and the puts of a text leave a state that differs from the one before in the line and its index alone: the
line holds the text, padded or cut (R183). -/
theorem putText_lineBegin (s : State) (text : List Byte) :
    (∀ k : Fin 16, (putText s.lineBegin text).lb[k] = text.getD k.val 0x20) ∧
    (putText s.lineBegin text).lbIdx.val = min text.length 16 ∧
    putText s.lineBegin text =
      { s with lb := (putText s.lineBegin text).lb, lbIdx := (putText s.lineBegin text).lbIdx } := by
  refine ⟨fun k => ?_, ?_, ?_⟩
  · rw [putText_getElem, s.lineBegin_getElem]
    rfl
  · rw [putText_lbIdx, State.lineBegin_lbIdx, Fin.val_zero, Nat.zero_add]
  · conv_lhs => rw [putText_frame]
    rfl

/-- Settles O14: the run is `putText` on the line LB_BEGIN leaves. -/
theorem lineIsPaddedOrTruncated : Obligations.LineIsPaddedOrTruncated := by
  intro s text idle
  obtain ⟨line, index, frame⟩ := putText_lineBegin s text
  refine ⟨{ putText s.lineBegin text with inputs := [] }, ?_, line, index, ?_⟩
  · rw [submitRun_cons _ idle rfl, ← List.append_nil (text.map Instr.lbPut)]
    exact submitRun_puts text [] idle
  · rw [frame]

/-- LB_BEGIN, the puts of a text and LCD_WRITE_LINE, back to back: the line write starts on the text's line. -/
theorem submitRun_writeText {s : State} (text : List Byte) (l : DisplayLine) (idle : s.cur = none)
    (ready : s.lcdReady = true) :
    ∃ t, submitRun (.lbBegin :: text.map Instr.lbPut ++ [.lcdWriteLine l]) s = .next t ∧
      t.cur = some (.lcdWriteLine l) ∧ t.acts = lineActs s.params l t.lb ∧
      ∀ k : Fin 16, t.lb[k] = text.getD k.val 0x20 := by
  obtain ⟨line, _, frame⟩ := putText_lineBegin s text
  refine ⟨{ accepted (.lcdWriteLine l) (putText s.lineBegin text) with inputs := [] }, ?_, rfl, ?_, line⟩
  · rw [List.cons_append, submitRun_cons _ idle rfl]
    refine (submitRun_puts (s := s.lineBegin) text [.lcdWriteLine l] idle).trans ?_
    rw [submitRun_cons]
    · rfl
    · rw [frame]; exact idle
    · rw [frame]; exact ready
  · rw [frame]; rfl

/-- Settles O23: both lists are those of the same line, which is the text's, in the same build. -/
theorem lineWriteIsIdempotent : Obligations.LineWriteIsIdempotent := by
  intro s s' text l idle idle' ready ready' params
  obtain ⟨t, run, cur, acts, line⟩ := submitRun_writeText text l idle ready
  obtain ⟨t', run', cur', acts', line'⟩ := submitRun_writeText text l idle' ready'
  have same : t.lb = t'.lb := Vector.ext fun k hk => (line ⟨k, hk⟩).trans (line' ⟨k, hk⟩).symm
  exact ⟨t, t', run, run', cur, cur', by rw [acts, acts', same, params], same⟩

end Sys2Proof.Safety
end

section
/-! Action lists, a turn at a time: accepted and rejected primitives (R67, R70 to R72, R214), waits (R74), KP_INIT to its end
(R120), and that every list ends (R228). -/

namespace Sys2Proof.Safety

open Sys2Proof.Machine

/-! ### The head of a list -/

/-- A step that performs the head of a list and leaves more to do. -/
theorem step_list_more {s : State} {c : Instr} {x : Prim} {rest : List Prim} {ans : Answer} {later : List Input}
    (hc : s.cur = some c) (hk : c ≠ .kpScan) (hw : s.waitLeft = 0) (hl : s.acts = x :: rest) (more : rest ≠ [])
    (hi : s.inputs = .seq ans :: later) (accepted : x.rejected ans = false) :
    step s = .next (({ s with inputs := later } : State).afterTurn x ans rest) := by
  rw [step_seq hi, seqStep_list ans (s := { s with inputs := later }) hc hk hw hl,
    perform_eq x ans (s := { s with inputs := later }) rest hw, accepted, if_neg Bool.false_ne_true,
    completeIfDone_of_more (.inr (.inl more))]

/-- Settles O25: the pad changes as the primitive's event says, and every other pad stays. -/
theorem listActionsChangeTheirPadBit : Obligations.ListActionsChangeTheirPadBit := by
  intro s c x rest ans later hc hk hw hl more hi
  have head := step_list_more hc hk hw hl more hi
  have other : ∀ p, primPin x = some p → ∀ q, q ≠ p → (s.pads.see (x.event ans)).at q = s.pads.at q := by
    intro p hp q hq
    exact at_see_event_of_ne s.pads ans (by rw [hp]; simpa using hq.symm)
  refine ⟨?_, ?_, ?_⟩
  · rintro p d rfl ack
    refine ⟨_, ?_, other p rfl, ?_⟩
    · simp [Prim.event, ack, Pads.see, Pads.at_setDir]
    · rw [head (by simp [Prim.rejected, ack])]
      simp [State.afterTurn, Prim.event, Prim.cyclesLeft, ack, hw]
  · rintro p rfl ack
    refine ⟨_, ?_, other p rfl, ?_⟩
    · simp [Prim.event, ack, Pads.see, Pads.at_pullUp]
    · rw [head (by simp [Prim.rejected, ack])]
      simp [State.afterTurn, Prim.event, Prim.cyclesLeft, ack, hw]
  · rintro p lvl rfl
    refine ⟨_, ?_, other p rfl, ?_⟩
    · simp [Prim.event, Pads.see, Pads.at_setOut]
    · rw [head rfl]
      simp [State.afterTurn, Prim.event, Prim.cyclesLeft, hw]

/-- Settles O26: the rejected configuration joins the trace and ends the command. -/
theorem rejectedConfigurationEndsTheCommand : Obligations.RejectedConfigurationEndsTheCommand := by
  intro s c x rest ans later ev hc hk hw hl nack configuration hi
  have rejected : x.rejected ans = true ∧ x.event ans = ev := by
    rcases configuration with ⟨p, d, rfl, rfl⟩ | ⟨p, rfl, rfl⟩ <;> simp [Prim.rejected, Prim.event, nack]
  rw [step_seq hi, seqStep_list ans (s := { s with inputs := later }) hc hk hw hl,
    perform_eq x ans (s := { s with inputs := later }) rest hw, if_pos rejected.1, rejected.2]
  rfl

/-! ### Waits (R74) -/

/-- Settles O58: the cycles are the microseconds at the clock, rounded up; a wait that begins loads them; and a cycle that is
not the last only counts down. -/
theorem waitsLastTheirCycles : Obligations.WaitsLastTheirCycles := by
  refine ⟨fun p us => ?rounded, ?begins, ?cycle⟩
  case rounded =>
    unfold cycles
    generalize us * p.clkHz = n
    omega
  case begins =>
    intro s c us rest ans later hc hk hw hl hi more
    rw [step_list_more hc hk hw hl more hi rfl]
    rfl
  case cycle =>
    intro s c ans later hc two hi
    have running : s.waitLeft ≠ 0 := by omega
    have more : s.waitLeft - 1 ≠ 0 := by omega
    rw [step_seq hi, seqStep_wait ans (s := { s with inputs := later }) hc running, waitCycle,
      completeIfDone_of_more (.inr (.inr more))]

/-! ### Every list ends (R228) -/

/-- A primitive takes a step, and one more for each cycle it leaves. -/
theorem primSteps_eq (x : Prim) (p : Params) : primSteps p x = x.cyclesLeft p + 1 := by
  cases x <;> simp [primSteps, Prim.cyclesLeft, Nat.add_comm]

/-- A turn of a list command leaves an idle block, or the same command with one step less to go. -/
theorem seqStep_workLeft (a : Answer) {s : State} {c : Instr} (inv : SequencerInv s) (hc : s.cur = some c)
    (hk : c ≠ .kpScan) :
    (seqStep a s).cur = none ∨ ((seqStep a s).cur = some c ∧ workLeft (seqStep a s) + 1 = workLeft s) := by
  have list : ∀ t : State, t.cur = some c → workLeft t + 1 = workLeft s →
      t.completeIfDone.cur = none ∨ (t.completeIfDone.cur = some c ∧ workLeft t.completeIfDone + 1 = workLeft s) := by
    intro t cur work
    rcases completeIfDone_cases t with ⟨_, _, _, e⟩ | ⟨_, e⟩ <;> rw [e]
    · exact .inl (by simp)
    · exact .inr ⟨cur, work⟩
  rcases seqStep_turns a s with ⟨hn, _⟩ | ⟨_, _, hw, e⟩ | ⟨hs, _, e⟩ | ⟨_, _, _, _, _, _, _, _, e⟩ |
      ⟨_, x, rest, _, _, hw, hl, _, e⟩ | ⟨_, _, _, hw, hl, _⟩
  · simp [hc] at hn
  · rw [e]
    refine list _ hc ?_
    simp only [workLeft]
    omega
  · exact absurd (Option.some.inj (hc.symm.trans hs)) hk
  · exact .inl (by rw [e]; rfl)
  · rw [e]
    refine list _ hc ?_
    simp only [workLeft, State.afterTurn_waitLeft, State.afterTurn_acts, State.afterTurn_params, hw, hl, List.map_cons,
      List.sum_cons, primSteps_eq]
    omega
  · have := inv.working c hc hk
    simp_all

/-- The steps a list command has left leave the block idle, whatever ENV answers. -/
theorem seqFold_workLeft (as : List Answer) {s : State} {c : Instr} (inv : SequencerInv s) (hc : s.cur = some c)
    (hk : c ≠ .kpScan) (h : as.length = workLeft s) : (seqFold as s).cur = none := by
  induction as generalizing s with
  | nil =>
    exfalso
    rw [workLeft, List.length_nil] at h
    rcases inv.working c hc hk with work | work
    · obtain ⟨x, rest, hl⟩ := List.exists_cons_of_ne_nil work
      rw [hl, List.map_cons, List.sum_cons, primSteps_eq] at h
      omega
    · omega
  | cons a as ih =>
    rw [seqFold_cons]
    rcases seqStep_workLeft a inv hc hk with idle | ⟨running, work⟩
    · rw [seqFold_idle as idle, idle]
    · refine ih (inv.seqStep a) running ?_
      rw [List.length_cons] at h
      omega

/-- Settles O57: each turn takes one from the work left or ends the command. -/
theorem listCommandsEnd : Obligations.ListCommandsEnd := fun s _ as inv hc hk h =>
  ⟨_, seqRun_eq as s, seqFold_workLeft as inv hc hk h⟩

/-! ### KP_INIT (R120) -/

/-- A list of configurations and writes is performed whole when every configuration is accepted, a step for each. -/
theorem follows_of_accepted {p : Params} {l : List Prim} {as : List Answer}
    (hl : ∀ x ∈ l, (∃ q d, x = .cfg q d) ∨ (∃ q, x = .pullUp q) ∨ ∃ q lvl, x = .write q lvl) (len : as.length = l.length)
    (ack : ∀ a ∈ as, a.ack = true) : Follows p as (l.map acceptedEvent) := by
  induction l generalizing as with
  | nil => exact List.length_eq_zero_iff.1 len
  | cons x l ih =>
    obtain ⟨a, as, rfl⟩ := List.exists_cons_of_length_eq_add_one len
    have rest := ih (fun y hy => hl y (by simp [hy])) (by simpa using len) (fun b hb => ack b (by simp [hb]))
    rcases hl x (by simp) with ⟨q, d, rfl⟩ | ⟨q, rfl⟩ | ⟨q, lvl, rfl⟩
    · exact ⟨ack a (by simp), rest⟩
    · exact ⟨ack a (by simp), rest⟩
    · exact rest

/-- Settles O24: the list is performed whole, and `at_padsAfter_kpInit` says where it leads. -/
theorem kpInitRunsToReady : Obligations.KpInitRunsToReady := by
  intro s inv idle
  let s' : State := { s with kpReady := false }
  have inv' : SequencerInv s' := sequencerInv_of_idle idle (inv.idle idle).1 (inv.idle idle).2
  refine ⟨s'.start .kpInit kpInitActs, exec_ready idle rfl, rfl, fun as len acks => ?_⟩
  have follows : Follows s.params as (kpInitActs.map acceptedEvent) :=
    follows_of_accepted (by simp [kpInitActs, kpInitColumn, kpInitRow]) len acks
  refine ⟨_, seqRun_start inv' idle (by simp) (by decide) follows, fun j => at_padsAfter_kpInit s.pads (.col j),
    fun i => at_padsAfter_kpInit s.pads (.row i), fun p hp => ?_, by simp [s']⟩
  rw [at_padsAfter_kpInit]
  cases p <;> simp_all [keypadPin, s']

end Sys2Proof.Safety
end

section
/-! The scan pass: its lines (R122), the release-wait (R126, R127), a pass in which no row reads low (R128) and one that
finds a key (R129). -/

namespace Sys2Proof.Safety

open Sys2Proof.Machine

/-! ### A turn of a pass -/

/-- A step that is SEQ's turn in a pass. -/
theorem step_scan {s : State} {ans : Answer} {later : List Input} (hc : s.cur = some .kpScan) (hw : s.waitLeft = 0)
    (hi : s.inputs = .seq ans :: later) : step s = .next (({ s with inputs := later } : State).afterScan ans) := by
  rw [step_seq hi, seqStep_scan ans (s := { s with inputs := later }) hc hw,
    scanStep_eq ans (s := { s with inputs := later }) hc hw]

/-- The row after row 3 is the column's restore, and after any other the next one (R122). -/
theorem nextRow_of_last {c : Scan} (h : c.i = 3) : c.nextRow = { c with phase := .restore } := by
  simp [Scan.nextRow, h]

theorem nextRow_of_ne {c : Scan} (h : c.i ≠ 3) : c.nextRow.phase = .read ∧ c.nextRow.i.val = c.i.val + 1 := by
  have more : c.i.val + 1 < 4 := by omega
  simp [Scan.nextRow, more]

theorem nextRow_keeps (c : Scan) : c.nextRow.j = c.j ∧ c.nextRow.hit = c.hit := by
  unfold Scan.nextRow
  split <;> simp

/-- Settles O27: each line is `afterScan` at its phase. -/
theorem scanFollowsItsLoop : Obligations.ScanFollowsItsLoop := by
  intro s ans later hc hw hi
  rw [step_scan hc hw hi]
  refine ⟨fun hp => ?drive, fun hp => ?settle, fun hp high => ?read, fun hp => ?restore⟩
  case drive =>
    refine ⟨s.scan.driven s.params, rfl, rfl, rfl, rfl, ?_⟩
    simp [State.afterScan, scanEvent, scanHits, scanEnds, scanNext, scanCyclesLeft, hp, hc, hw, Pads.see]
  case settle => simp [State.afterScan, scanEvent, scanHits, scanEnds, scanNext, scanCyclesLeft, hp, hc, Pads.see]
  case read =>
    refine ⟨s.scan.nextRow, (nextRow_keeps _).1, (nextRow_keeps _).2, fun last => by rw [nextRow_of_last last],
      fun more => nextRow_of_ne more, ?_⟩
    simp [State.afterScan, scanEvent, scanHits, scanEnds, scanNext, scanCyclesLeft, hp, high, hc, hw, Pads.see]
  case restore =>
    refine ⟨scanNext ans s, fun more goesOn => ?_, ?_⟩
    · have ends : scanEnds s = false := by simp [scanEnds, more, goesOn]
      have column : (s.scan.j + 1).val = s.scan.j.val + 1 := Fin.val_add_one_of_lt' (by omega)
      simp [scanNext, hp, ends, column]
    · simp [State.afterScan, scanEvent, scanHits, scanEnds, scanNext, scanCyclesLeft, hp, hw, Pads.see]

/-! ### The release-wait (R126, R127) -/

/-- A low read of the release-wait changes nothing but the trace. -/
theorem seqStep_release_low {s : State} {a : Answer} (hc : s.cur = some .kpScan) (hw : s.waitLeft = 0)
    (hp : s.scan.phase = .release) (low : a.level = false) :
    seqStep a s = s.record (.read (.row s.scan.i) false) := by
  rw [seqStep_scan a hc hw, scanStep_eq a hc hw]
  simp [State.afterScan, scanEvent, scanHits, scanEnds, scanNext, scanCyclesLeft, hp, low, hc, hw, Pads.see, State.record]

/-- So do any number of them. -/
theorem seqFold_release_low {s : State} {as : List Answer} (hc : s.cur = some .kpScan) (hw : s.waitLeft = 0)
    (hp : s.scan.phase = .release) (low : ∀ a ∈ as, a.level = false) :
    seqFold as s = { s with
      obs := { s.obs with pins := s.obs.pins ++ List.replicate as.length (.read (.row s.scan.i) false) } } := by
  induction as generalizing s with
  | nil => simp
  | cons a as ih =>
    rw [seqFold_cons, seqStep_release_low hc hw hp (low a (by simp)),
      ih (s := s.record _) hc hw hp (fun b hb => low b (by simp [hb]))]
    simp [State.record, List.replicate_succ]

/-- Settles O29: the run is the fold of its turns, each of them a low read. -/
theorem releaseWaitLastsWhileTheRowIsLow : Obligations.ReleaseWaitLastsWhileTheRowIsLow := by
  intro s as hc hw hp low
  rw [seqRun_eq, seqFold_release_low hc hw hp low]

/-- Settles O30: the high read leaves `scanNext`, by the parameter and the row. -/
theorem releaseEndsTheWait : Obligations.ReleaseEndsTheWait := by
  intro s ans later hc hw hp high hi
  have next : scanNext ans s =
      if s.params.passEndOnEvent then { s.scan with phase := .restore } else s.scan.nextRow := by
    simp [scanNext, hp, high]
  have turn : step s = .next { s with
      inputs := later
      scan := scanNext ans s
      obs := { s.obs with pins := s.obs.pins ++ [.read (.row s.scan.i) true] } } := by
    rw [step_scan hc hw hi]
    simp [State.afterScan, scanEvent, scanHits, scanEnds, scanNext, scanCyclesLeft, hp, high, hc, hw, Pads.see]
  refine ⟨scanNext ans s, ?_, ?_, fun ends => ?_, fun goesOn last => ?_, fun goesOn more => ?_, turn⟩
  · rw [next]; split
    · rfl
    · exact (nextRow_keeps _).1
  · rw [next]; split
    · rfl
    · exact (nextRow_keeps _).2
  · simp [next, ends]
  · simp [next, goesOn, nextRow_of_last last, last]
  · simpa [next, goesOn] using nextRow_of_ne more

/-! ### Columns in which every row reads high -/

/-- The columns driven high again, one after the other. -/
def raiseColumns (v : Pads) (cols : List (Fin 4)) : Pads := cols.foldl (fun v j => v.setOut (.col j) true) v

theorem at_raiseColumns (v : Pads) (cols : List (Fin 4)) (q : Pin) :
    (raiseColumns v cols).at q = { v.at q with out := decide (q ∈ cols.map Pin.col) || (v.at q).out } := by
  induction cols generalizing v with
  | nil => simp [raiseColumns]
  | cons j cols ih =>
    refine (ih (v.setOut (.col j) true)).trans ?_
    rw [at_setOut_eq]
    by_cases h : q = .col j <;> simp [h]

theorem at_raiseColumns_of_mem (v : Pads) {cols : List (Fin 4)} {j : Fin 4} (h : j ∈ cols) :
    (raiseColumns v cols).at (.col j) = { v.at (.col j) with out := true } := by
  simp [at_raiseColumns, h]

theorem at_raiseColumns_of_ne (v : Pads) {cols : List (Fin 4)} {q : Pin} (h : ∀ j ∈ cols, q ≠ .col j) :
    (raiseColumns v cols).at q = v.at q := by
  have other : q ∉ cols.map Pin.col := by
    rw [List.mem_map]
    rintro ⟨j, hj, rfl⟩
    exact h j hj rfl
  simp [at_raiseColumns, other]

/-- The columns, or rows, before the `n`-th are followed by it. -/
theorem take_succ_fin (n : Nat) (h : n < 4) : [0, 1, 2, 3].take (n + 1) = [0, 1, 2, 3].take n ++ [(⟨n, h⟩ : Fin 4)] := by
  interval_cases n <;> rfl

theorem filter_lt_eq_take (j : Fin 4) : [0, 1, 2, 3].filter (· < j) = [0, 1, 2, 3].take j.val := by
  revert j
  decide

theorem mem_columnsUpTo (k j : Fin 4) : k ∈ [0, 1, 2, 3].take j.val ++ [j] ↔ k ≤ j := by
  revert k j
  decide

section

variable {s : State} {as : List Answer} {i j : Fin 4} {hit : Bool} {evs : List PinEvent} {v : Pads}

/-- The first `n` columns of a pass, with every row high: the next column follows. -/
theorem pass_quiet_columns (hc : s.cur = some .kpScan) (hw : s.waitLeft = 0) {n : Nat} (hn : n < 4)
    (hf : Follows s.params as (([0, 1, 2, 3].take n).flatMap (quietColumn s.params))) :
    seqFold as (scanAt s evs ⟨.drive, 0, 0, false⟩ v) =
      scanAt s (evs ++ ([0, 1, 2, 3].take n).flatMap (quietColumn s.params)) ⟨.drive, ⟨n, hn⟩, 0, false⟩
        (raiseColumns v ([0, 1, 2, 3].take n)) := by
  induction n generalizing as with
  | zero =>
    have none : as = [] := hf
    subst none
    simp [raiseColumns]
  | succ n ih =>
    have before : n < 4 := by omega
    rw [take_succ_fin n before, List.flatMap_append, List.flatMap_singleton] at hf ⊢
    obtain ⟨bs, cs, rfl, first, column⟩ := follows_append hf
    rw [seqFold_append, ih before first, pass_quiet hc hw column, dif_pos hn, List.append_assoc]
    simp [raiseColumns]

/-- The first `n` rows of a column read high: the next row is read. -/
theorem pass_high_rows (hc : s.cur = some .kpScan) (hw : s.waitLeft = 0) {n : Nat} (hn : n < 4)
    (hf : Follows s.params as (([0, 1, 2, 3].take n).map fun r => .read (.row r) true)) :
    seqFold as (scanAt s evs ⟨.read, j, 0, hit⟩ v) =
      scanAt s (evs ++ ([0, 1, 2, 3].take n).map fun r => .read (.row r) true) ⟨.read, j, ⟨n, hn⟩, hit⟩ v := by
  induction n generalizing as with
  | zero =>
    have none : as = [] := hf
    subst none
    simp
  | succ n ih =>
    have before : n < 4 := by omega
    rw [take_succ_fin n before, List.map_append, List.map_singleton] at hf ⊢
    obtain ⟨bs, cs, rfl, first, row⟩ := follows_append hf
    rw [seqFold_append, ih before first, pass_high hc hw row, List.append_assoc]
    simp [Scan.nextRow, hn]

/-! ### A column in which a row reads low -/

/-- The state a key event leaves, but for the scan, the pads and the pin trace (R125). -/
def withEvent (s : State) (i j : Fin 4) : State :=
  { s with
    key := KeyReg.ofEvent s.params i j
    flags := { s.flags with kovr := s.flags.kovr || s.key.valid }
    obs := { s.obs with keys := s.obs.keys ++ [⟨i, j, symbolCode (keyAt s.params i j)⟩] } }

/-- A row reads low. -/
theorem pass_hit (hc : s.cur = some .kpScan) (hw : s.waitLeft = 0) (hf : Follows s.params as [.read (.row i) false]) :
    seqFold as (scanAt s evs ⟨.read, j, i, hit⟩ v) =
      scanAt (withEvent s i j) (evs ++ [.read (.row i) false]) ⟨.release, j, i, true⟩ v := by
  obtain ⟨a, rfl, low⟩ := follows_read hf
  rw [seqFold_cons, seqFold_nil, seqStep_low_read (s := scanAt _ _ _ _) hc hw rfl low]
  simp [scanAt, withEvent]

/-- The row is released, under `PASS_END_ON_EVENT`. -/
theorem pass_released (hc : s.cur = some .kpScan) (hw : s.waitLeft = 0) (ends : s.params.passEndOnEvent = true)
    (hf : Follows s.params as [.read (.row i) true]) :
    seqFold as (scanAt s evs ⟨.release, j, i, true⟩ v) =
      scanAt s (evs ++ [.read (.row i) true]) ⟨.restore, j, i, true⟩ v := by
  obtain ⟨a, rfl, high⟩ := follows_read hf
  rw [seqFold_cons, seqFold_nil, seqStep_scan (s := scanAt _ _ _ _) a hc hw, scanStep]
  simp [scanAt, scanRelease, high, ends, State.record]

/-- A column whose first low row is `i`, held for `n` further reads, ends the pass with its event, under
`PASS_END_ON_EVENT` (R122, R126, R127). -/
theorem pass_hit_column {n : Nat} (hc : s.cur = some .kpScan) (hw : s.waitLeft = 0)
    (ends : s.params.passEndOnEvent = true) (hf : Follows s.params as (hitColumn s.params j i n)) :
    seqFold as (scanAt s evs ⟨.drive, j, 0, false⟩ v) =
      { scanAt (withEvent s i j) (evs ++ hitColumn s.params j i n) ⟨.restore, j, i, false⟩ (v.setOut (.col j) true) with
        cur := none } := by
  unfold hitColumn at hf ⊢
  rw [filter_lt_eq_take] at hf ⊢
  obtain ⟨as, a6, rfl, hf, h6⟩ := follows_append hf
  obtain ⟨as, a5, rfl, hf, h5⟩ := follows_append hf
  obtain ⟨as, a4, rfl, hf, h4⟩ := follows_append hf
  obtain ⟨as, a3, rfl, hf, h3⟩ := follows_append hf
  obtain ⟨a1, a2, rfl, h1, h2⟩ := follows_append hf
  simp only [seqFold_append]
  rw [pass_drive hc hw h1, pass_high_rows hc hw i.isLt h2, pass_hit hc hw h3,
    pass_lows (s := withEvent s i j) hc hw h4, pass_released (s := withEvent s i j) hc hw ends h5,
    pass_restore (s := withEvent s i j) hc hw h6, if_pos (by simpa [withEvent] using ends), setOut_setOut]
  simp only [List.append_assoc]

/-! ### Whole passes -/

/-- A pass in which no row reads low: three quiet columns lead to the fourth, whose restore ends the pass (R128). -/
theorem seqFold_quietPass (hc : s.cur = some .kpScan) (hw : s.waitLeft = 0)
    (hf : Follows s.params as (quietPass s.params)) :
    seqFold as (scanAt s [] ⟨.drive, 0, 0, false⟩ v) =
      { scanAt s (quietPass s.params) ⟨.restore, 3, 3, false⟩ (raiseColumns v [0, 1, 2, 3]) with cur := none } := by
  have columns : quietPass s.params = ([0, 1, 2, 3].take 3).flatMap (quietColumn s.params) ++ quietColumn s.params 3 := by
    simp [quietPass]
  rw [columns] at hf ⊢
  obtain ⟨bs, cs, rfl, first, last⟩ := follows_append hf
  rw [seqFold_append, pass_quiet_columns hc hw (by decide) first]
  exact pass_quiet hc hw last

/-- A pass whose first low row is row `i` of column `j`: the columns before it are quiet (R129). -/
theorem seqFold_hitPass {n : Nat} (hc : s.cur = some .kpScan) (hw : s.waitLeft = 0)
    (ends : s.params.passEndOnEvent = true) (hf : Follows s.params as (hitPass s.params j i n)) :
    seqFold as (scanAt s [] ⟨.drive, 0, 0, false⟩ v) =
      { scanAt (withEvent s i j) (hitPass s.params j i n) ⟨.restore, j, i, false⟩
          (raiseColumns v ([0, 1, 2, 3].take j.val ++ [j])) with cur := none } := by
  rw [hitPass, filter_lt_eq_take] at hf ⊢
  obtain ⟨bs, cs, rfl, first, last⟩ := follows_append hf
  rw [seqFold_append, pass_quiet_columns hc hw j.isLt first]
  refine (pass_hit_column hc hw ends last).trans ?_
  simp [raiseColumns]

end

/-- The start of a pass on an idle block with the keypad ready (R122). -/
theorem accepted_kpScan (s : State) :
    accepted .kpScan s = scanAt { s with cur := some .kpScan } [] ⟨.drive, 0, 0, false⟩ s.pads :=
  eq_scanAt (s := accepted .kpScan s) rfl

theorem length_quietPass (p : Params) : (quietPass p).length = if p.tScanSettle = 0 then 24 else 28 := by
  by_cases h : p.tScanSettle = 0 <;> simp [quietPass, quietColumn, settleEvents, h]

/-- Settles O31: the pass drives and restores every column. -/
theorem quietPassFindsNoKey : Obligations.QuietPassFindsNoKey := by
  intro s inv idle ready
  refine ⟨accepted .kpScan s, exec_ready idle ready, length_quietPass _, fun as hf => ?_⟩
  have run := seqFold_quietPass (s := { s with cur := some .kpScan }) (v := s.pads) rfl (inv.idle idle).2 hf
  have every : ∀ j : Fin 4, j ∈ [0, 1, 2, 3] := by decide
  rw [← accepted_kpScan] at run
  refine ⟨_, seqRun_eq _ _, fun j => ?_, fun p hp => ?_, ?_⟩ <;> rw [run]
  · exact at_raiseColumns_of_mem _ (every j)
  · exact at_raiseColumns_of_ne _ fun j _ => hp j
  · simp [scanAt, idle]

/-- Settles O32: the pass drives and restores the columns up to `j`. -/
theorem passReportsTheFirstKey : Obligations.PassReportsTheFirstKey := by
  intro s i j n inv idle ready ends
  refine ⟨accepted .kpScan s, exec_ready idle ready, fun as hf => ?_⟩
  have run := seqFold_hitPass (s := { s with cur := some .kpScan }) (v := s.pads) rfl (inv.idle idle).2 ends hf
  rw [← accepted_kpScan] at run
  refine ⟨_, seqRun_eq _ _, fun k hk => ?_, fun p hp => ?_, ?_⟩ <;> rw [run]
  · exact at_raiseColumns_of_mem _ ((mem_columnsUpTo k j).2 hk)
  · exact at_raiseColumns_of_ne _ fun k hk => hp k ((mem_columnsUpTo k j).1 hk)
  · simp [scanAt, withEvent, idle, KeyReg.ofEvent]

end Sys2Proof.Safety
end

section
/-! The reference contact environment (R77): what a row reads with every column high (R121), and with one key pressed
(R132); and passes over real contacts, with one key held (R131) and with none pressed (R128). -/

namespace Sys2Proof.Safety

open Sys2Proof.Machine

/-- A column that is an output drives its level and no other (R77). -/
theorem drives_eq {v : Pads} {j : Fin 4} (configured : (v.at (.col j)).dir = .output) (lvl : Level) :
    v.drives j lvl = ((v.at (.col j)).out == lvl) := by
  simp [Pads.drives, configured]

/-- With no low column in its component a pulled-up row reads high (R77). -/
theorem contactLevel_of_no_low {k : Pressed} {v : Pads} {i : Fin 4} (pulledUp : (v.at (.row i)).pu = true)
    (noLow : ∀ j ∈ componentCols k i, v.drives j false = false) : contactLevel k v i = some true := by
  have low : ((componentCols k i).any fun j => v.drives j false) = false := by
    rw [List.any_eq_false]
    simpa using noLow
  simp [contactLevel, low, pulledUp]

/-- Settles O35: no component holds a low column. -/
theorem rowsReadHighBetweenPasses : Obligations.RowsReadHighBetweenPasses := by
  intro k v configured high i
  refine contactLevel_of_no_low (configured.2 i).2 fun j _ => ?_
  rw [drives_eq (configured.1 j), high j]
  rfl

/-- With no key pressed every row reads high, whatever the columns (R77). -/
theorem contactLevel_released {v : Pads} (configured : KeypadConfigured v) (i : Fin 4) :
    contactLevel [] v i = some true := by
  have alone : ∀ i, componentCols [] i = [] := by decide
  exact contactLevel_of_no_low (configured.2 i).2 (by simp [alone i])

/-- One key joins its row to its column, and nothing else (R77). -/
theorem componentCols_one_key (i j r : Fin 4) : componentCols [(i, j)] r = if r = i then [j] else [] := by
  revert i j r
  decide

/-- With one key pressed its row reads its column's level, and every other row high (R77). -/
theorem contactLevel_one_key {v : Pads} (configured : KeypadConfigured v) (i j r : Fin 4) :
    contactLevel [(i, j)] v r = some (decide (r ≠ i) || (v.at (.col j)).out) := by
  by_cases row : r = i
  · subst row
    cases level : (v.at (.col j)).out <;>
      simp [contactLevel, componentCols_one_key, drives_eq (configured.1 j), level, (configured.2 r).2]
  · rw [contactLevel_of_no_low (configured.2 r).2 (by simp [componentCols_one_key, row])]
    simp [row]

/-- Settles O36: the key's column is low exactly when it is the low column. -/
theorem oneKeyPullsOnlyItsRowInItsColumn : Obligations.OneKeyPullsOnlyItsRowInItsColumn := by
  intro v i j c configured low r
  rw [contactLevel_one_key configured, low j]
  by_cases row : r = i <;> by_cases column : j = c <;> simp [row, column, eq_comm]

/-! ### Where a pass stands -/

/-- The answers of real contacts, in two parts. -/
theorem answersContacts_append {ks ks' : List Pressed} {as : List Answer} {s : State}
    (h : AnswersContacts (ks ++ ks') as s) :
    ∃ bs cs, as = bs ++ cs ∧ AnswersContacts ks bs s ∧ AnswersContacts ks' cs (seqFold bs s) := by
  induction ks generalizing as s with
  | nil => exact ⟨[], as, rfl, rfl, h⟩
  | cons k ks ih =>
    cases as with
    | nil => exact absurd h id
    | cons a as =>
      obtain ⟨bs, cs, rfl, first, last⟩ := ih h.2
      exact ⟨a :: bs, cs, rfl, ⟨h.1, first⟩, last⟩

/-- A pass that has found no key stands at step `x` of its current column: its drive, its settle wait, its four reads and
its restore (R122). -/
def InColumn (s : State) (x : Nat) : Prop :=
  match s.scan.phase with
  | .drive => s.waitLeft = 0 ∧ x = 0
  | .settle => s.waitLeft = 0 ∧ s.scan.i = 0 ∧ s.params.tScanSettle ≠ 0 ∧ x = 1
  | .read => x + s.waitLeft = 1 + settleSteps s.params + s.scan.i.val ∧
      (s.waitLeft ≠ 0 → s.scan.i = 0 ∧ s.waitLeft < settleSteps s.params)
  | .release => False
  | .restore => s.waitLeft = 0 ∧ x = 5 + settleSteps s.params

/-- A pass that has found no key stands at its `n`-th step. -/
def QuietAt (s : State) (n : Nat) : Prop :=
  s.cur = some .kpScan ∧ s.scan.hit = false ∧ ∃ x, n = s.scan.j.val * columnSteps s.params + x ∧ InColumn s x

theorem InColumn.lt {s : State} {x : Nat} (h : InColumn s x) : x < columnSteps s.params := by
  have row := s.scan.i.isLt
  unfold columnSteps
  cases hp : s.scan.phase <;> simp only [InColumn, hp] at h
  case drive => omega
  case settle => omega
  case read =>
    have := h.1
    omega
  case restore => omega

theorem QuietAt.lt {s : State} {n : Nat} (h : QuietAt s n) : n < 4 * columnSteps s.params := by
  obtain ⟨_, _, x, rfl, column⟩ := h
  have within := column.lt
  have last : s.scan.j.val ≤ 3 := by omega
  calc s.scan.j.val * columnSteps s.params + x < (s.scan.j.val + 1) * columnSteps s.params := by
        rw [Nat.add_mul, Nat.one_mul]
        omega
    _ ≤ 4 * columnSteps s.params := Nat.mul_le_mul_right _ (by omega)

/-- Nothing a key event changes has changed: KEY, the flags and the event sequence; nor the build or the keypad's ready
flag. -/
def NoEvent (s t : State) : Prop :=
  t.key = s.key ∧ t.flags = s.flags ∧ t.obs.keys = s.obs.keys ∧ t.params = s.params ∧ t.kpReady = s.kpReady

theorem NoEvent.trans {s t u : State} (h : NoEvent s t) (h' : NoEvent t u) : NoEvent s u := by
  obtain ⟨h1, h2, h3, h4, h5⟩ := h
  obtain ⟨g1, g2, g3, g4, g5⟩ := h'
  exact ⟨g1.trans h1, g2.trans h2, g3.trans h3, g4.trans h4, g5.trans h5⟩

/-- A turn of a pass that is no low read of phase READ makes no event. -/
theorem noEvent_afterScan {s : State} {a : Answer} (h : scanHits a s = false) : NoEvent s (s.afterScan a) := by
  simp [NoEvent, State.afterScan, h]

/-- A wait is left only between the settle wait and row 0 (R122). -/
theorem InColumn.waiting {s : State} {x : Nat} (h : InColumn s x) (hw : s.waitLeft ≠ 0) : s.scan.phase = .read := by
  cases hp : s.scan.phase <;> simp only [InColumn, hp] at h
  case drive => exact absurd h.1 hw
  case settle => exact absurd h.1 hw
  case read => rfl
  case restore => exact absurd h.1 hw

/-- A cycle of the settle wait is a step in the column. -/
theorem InColumn.wait {s : State} {x : Nat} (h : InColumn s x) (hw : s.waitLeft ≠ 0) :
    InColumn { s with waitLeft := s.waitLeft - 1 } (x + 1) := by
  have hp := h.waiting hw
  simp only [InColumn, hp] at h ⊢
  obtain ⟨place, row, within⟩ := h.1, h.2 hw
  exact ⟨by omega, fun _ => ⟨row, by omega⟩⟩

/-- A turn before the column's restore is a step in the column. -/
theorem InColumn.turn {s : State} {x : Nat} {a : Answer} (h : InColumn s x) (hw : s.waitLeft = 0)
    (hp : s.scan.phase ≠ .restore) (high : s.scan.phase = .read → a.level = true) :
    InColumn (s.afterScan a) (x + 1) ∧ (scanNext a s).hit = s.scan.hit := by
  cases hp' : s.scan.phase <;> simp only [InColumn, hp'] at h
  case drive =>
    by_cases none : s.params.tScanSettle = 0
    · simp [InColumn, scanNext, Scan.driven, scanCyclesLeft, settleSteps, hp', none, h]
    · simp [InColumn, scanNext, Scan.driven, scanCyclesLeft, hp', none, h]
  case settle =>
    obtain ⟨_, row, wait, rfl⟩ := h
    simp [InColumn, scanNext, scanCyclesLeft, settleSteps, hp', row, wait]
    omega
  case read =>
    have place := h.1
    have level := high hp'
    by_cases last : s.scan.i = 3
    · simp [InColumn, scanNext, scanCyclesLeft, hp', level, nextRow_of_last last]
      rw [last] at place
      simp at place
      omega
    · obtain ⟨phase, row⟩ := nextRow_of_ne last
      simp [InColumn, scanNext, scanCyclesLeft, hp', level, phase, row, (nextRow_keeps s.scan).2]
      omega
  case restore => exact absurd hp' hp

/-- A turn of a pass whose read, if it is one, is high takes the pass one step on, or ends it. -/
theorem QuietAt.seqStep {s : State} {n : Nat} {a : Answer} (h : QuietAt s n)
    (high : s.waitLeft = 0 → s.scan.phase = .read → a.level = true) :
    NoEvent s (seqStep a s) ∧
    (QuietAt (seqStep a s) (n + 1) ∨ ((seqStep a s).cur = none ∧ n + 1 = 4 * columnSteps s.params)) := by
  obtain ⟨hc, hit, x, rfl, column⟩ := h
  by_cases hw : s.waitLeft = 0
  case neg =>
    have e : Machine.seqStep a s = { s with waitLeft := s.waitLeft - 1 } :=
      (seqStep_wait a hc hw).trans (completeIfDone_of_more (.inl hc))
    rw [e]
    exact ⟨⟨rfl, rfl, rfl, rfl, rfl⟩, .inl ⟨hc, hit, x + 1, rfl, column.wait hw⟩⟩
  case pos =>
    have e : Machine.seqStep a s = s.afterScan a := (seqStep_scan a hc hw).trans (scanStep_eq a hc hw)
    have noHit : scanHits a s = false := by
      by_contra h
      obtain ⟨read, low⟩ := (scanHits_iff a s).1 (by simpa using h)
      simp [high hw read] at low
    rw [e]
    refine ⟨noEvent_afterScan noHit, ?_⟩
    by_cases hp : s.scan.phase = .restore
    case neg =>
      obtain ⟨column', hit'⟩ := column.turn hw hp (high hw)
      have goesOn : scanEnds s = false := by simp [scanEnds, hp]
      refine .inl ⟨by simp [goesOn], hit'.trans hit, x + 1, ?_, column'⟩
      rw [State.afterScan_scan, (scanNext_column a hp).1, State.afterScan_params, Nat.add_assoc]
    case pos =>
      simp only [InColumn, hp] at column
      obtain ⟨_, rfl⟩ := column
      by_cases last : s.scan.j = 3
      · have ends : scanEnds s = true := by simp [scanEnds, hp, last]
        refine .inr ⟨by simp [ends], ?_⟩
        simp [last, columnSteps]
        omega
      · have goesOn : scanEnds s = false := by simp [scanEnds, hp, last, hit]
        have next : (s.scan.j + 1).val = s.scan.j.val + 1 := Fin.val_add_one_of_lt' (by omega)
        refine .inl ⟨by simp [goesOn], by simp [scanNext, hp, goesOn], 0, ?_, ?_⟩
        · simp [scanNext, hp, goesOn, next, Nat.add_mul, columnSteps]
          omega
        · simp [InColumn, scanNext, hp, goesOn, scanCyclesLeft]

/-- A pass over real contacts, up to its `N`-th step, when every read before that finds its row high: it makes no event,
and stands at its next step or has ended. -/
theorem quiet_contacts {k : Pressed} {N m n : Nat} {as : List Answer} {s : State} (inv : ColumnInv s) (quiet : QuietAt s n)
    (within : n + m ≤ N) (passEnd : N ≤ 4 * columnSteps s.params)
    (high : ∀ u n, ColumnInv u → u.params = s.params → QuietAt u n → n < N → u.waitLeft = 0 → u.scan.phase = .read →
      contactLevel k u.pads u.scan.i = some true)
    (contacts : AnswersContacts (List.replicate m k) as s) :
    ColumnInv (seqFold as s) ∧ NoEvent s (seqFold as s) ∧
    (QuietAt (seqFold as s) (n + m) ∨ ((seqFold as s).cur = none ∧ n + m = 4 * columnSteps s.params)) := by
  induction m generalizing as s n with
  | zero =>
    have none : as = [] := contacts
    subst none
    exact ⟨inv, ⟨rfl, rfl, rfl, rfl, rfl⟩, .inl quiet⟩
  | succ m ih =>
    cases as with
    | nil => exact absurd contacts id
    | cons a as =>
      obtain ⟨allowed, rest⟩ := contacts
      have level : s.waitLeft = 0 → s.scan.phase = .read → a.level = true := by
        intro hw hp
        have := allowed hw (.inl hp)
        rw [contactAllows, high s n inv rfl quiet (by omega) hw hp] at this
        simpa using this
      obtain ⟨same, turn⟩ := quiet.seqStep level
      have inv' := inv.seqStep a
      have ⟨_, _, _, params, _⟩ := same
      rw [seqFold_cons]
      rcases turn with on | ⟨idle, last⟩
      · obtain ⟨inv'', same', place⟩ := ih inv' on (by omega) (params ▸ passEnd) (params ▸ high) rest
        rw [params, show n + 1 + m = n + (m + 1) by omega] at place
        exact ⟨inv'', same.trans same', place⟩
      · have noMore : m = 0 := by omega
        subst noMore
        have none : as = [] := rest
        subst none
        exact ⟨inv', same, .inr ⟨idle, last⟩⟩

/-- A pass that has just begun stands at its first step. -/
theorem quietAt_accepted {s : State} (noWait : s.waitLeft = 0) : QuietAt (accepted .kpScan s) 0 :=
  ⟨rfl, rfl, 0, by simp [accepted, Scan.start], noWait, rfl⟩

/-- An idle block whose keypad is ready has every column high. -/
theorem ColumnInv.columnsHigh_of_idle {s : State} (inv : ColumnInv s) (ready : s.kpReady = true) (idle : s.cur = none) :
    ColumnsHigh s.pads := inv.high ready (by simp [idle])

/-- Settles O34: no read is low, so the pass goes through its steps to its end, and an idle block stays as it is. -/
theorem releasedKeypadGivesNoEvent : Obligations.ReleasedKeypadGivesNoEvent := by
  intro s inv idle ready
  refine ⟨accepted .kpScan s, exec_ready idle ready, fun n as enough contacts => ?_⟩
  have inv' := inv.accepted (i := .kpScan) idle ready
  have start := quietAt_accepted (inv.idle idle).2
  rw [← Nat.add_sub_of_le enough, List.replicate_add] at contacts
  obtain ⟨bs, cs, rfl, pass, _⟩ := answersContacts_append contacts
  have high : ∀ u n, ColumnInv u → u.params = s.params → QuietAt u n → n < 4 * columnSteps s.params → u.waitLeft = 0 →
      u.scan.phase = .read → contactLevel [] u.pads u.scan.i = some true := by
    intro u _ inv _ ⟨running, _⟩ _ _ _
    exact contactLevel_released (inv.configured (inv.scanning running).2) _
  obtain ⟨inv'', ⟨key, flags, keys, params, kp⟩, place⟩ :=
    quiet_contacts inv' start (Nat.le_of_eq (Nat.zero_add _)) (Nat.le_refl _) high pass
  have ended : (seqFold bs (accepted .kpScan s)).cur = none := by
    rcases place with on | ⟨ended, _⟩
    · have := on.lt
      rw [params] at this
      exact absurd this (by omega)
    · exact ended
  refine ⟨_, seqRun_eq _ _, ?_⟩
  rw [seqFold_append, seqFold_idle cs ended]
  exact ⟨ended, inv''.columnsHigh_of_idle (kp.trans ready) ended, key, flags, keys⟩

/-! ### One key held, then released (R131) -/

/-- A number is one multiple of `c` and one remainder. -/
theorem mul_add_unique {a b x y c : Nat} (hx : x < c) (hy : y < c) (h : a * c + x = b * c + y) : a = b ∧ x = y := by
  have quotient : ∀ a x, x < c → (a * c + x) / c = a := by
    intro a x hx
    rw [Nat.mul_comm, Nat.mul_add_div (by omega), Nat.div_eq_of_lt hx, Nat.add_zero]
  have same : a = b := by rw [← quotient a x hx, h, quotient b y hy]
  subst same
  exact ⟨rfl, by omega⟩

/-- A pass that has found no key, at the step at which row `i` of column `j` is read. -/
theorem QuietAt.reads {s : State} {i j : Fin 4}
    (h : QuietAt s (j.val * columnSteps s.params + (1 + settleSteps s.params + i.val))) :
    s.cur = some .kpScan ∧ s.waitLeft = 0 ∧ s.scan.phase = .read ∧ s.scan.i = i ∧ s.scan.j = j := by
  obtain ⟨hc, _, x, place, column⟩ := h
  have row := i.isLt
  have within : 1 + settleSteps s.params + i.val < columnSteps s.params := by
    unfold columnSteps
    omega
  obtain ⟨hj, rfl⟩ := mul_add_unique within column.lt place
  cases hp : s.scan.phase <;> simp only [InColumn, hp] at column
  case drive => omega
  case settle =>
    obtain ⟨_, _, wait, first⟩ := column
    simp [settleSteps, wait] at first
    omega
  case read =>
    obtain ⟨place, waiting⟩ := column
    have hw : s.waitLeft = 0 := by
      by_contra hw
      have first := congrArg Fin.val (waiting hw).1
      simp only [Fin.val_zero] at first
      omega
    exact ⟨hc, hw, rfl, Fin.ext (by omega), Fin.ext hj.symm⟩
  case restore => omega

/-- With one key pressed a pass reads high at every cell before the key's: in another column the key's column is high, and
in its own column another row is not joined to it. -/
theorem QuietAt.reads_high {s : State} {n : Nat} {i j : Fin 4} (h : QuietAt s n) (inv : ColumnInv s)
    (before : n < j.val * columnSteps s.params + (1 + settleSteps s.params + i.val)) (hw : s.waitLeft = 0)
    (hp : s.scan.phase = .read) : contactLevel [(i, j)] s.pads s.scan.i = some true := by
  obtain ⟨hc, _, x, rfl, column⟩ := h
  rw [contactLevel_one_key (inv.configured (inv.scanning hc).2)]
  simp only [InColumn, hp, hw] at column
  by_cases other : j = s.scan.j
  · have row : s.scan.i ≠ i := by
      rintro rfl
      subst other
      omega
    simp [row]
  · rw [inv.others hc j other, Bool.or_true]

/-- In the read and the release-wait of the held key's cell its row reads low: the column is low from its drive to its
restore. -/
theorem level_of_held {s : State} {a : Answer} {i j : Fin 4} (inv : ColumnInv s) (hc : s.cur = some .kpScan)
    (hw : s.waitLeft = 0) (hp : s.scan.phase = .read ∨ s.scan.phase = .release) (hi : s.scan.i = i) (hj : s.scan.j = j)
    (allowed : s.waitLeft = 0 → s.scan.phase = .read ∨ s.scan.phase = .release →
      contactAllows [(i, j)] s.pads s.scan.i a.level = true) : a.level = false := by
  have low : (s.pads.at (.col j)).out = false := by
    rw [← hj, inv.current hc]
    rcases hp with hp | hp <;> simp [hp]
  have := allowed hw hp
  rw [contactAllows, contactLevel_one_key (inv.configured (inv.scanning hc).2), low, hi] at this
  simpa using this

/-- While the key is held the release-wait reads its row low (R126). -/
theorem levels_of_held {s : State} {as : List Answer} {i j : Fin 4} {m : Nat} (inv : ColumnInv s)
    (hc : s.cur = some .kpScan) (hw : s.waitLeft = 0) (hp : s.scan.phase = .release) (hi : s.scan.i = i) (hj : s.scan.j = j)
    (contacts : AnswersContacts (List.replicate m [(i, j)]) as s) : ∀ a ∈ as, a.level = false := by
  induction m generalizing as s with
  | zero =>
    have none : as = [] := contacts
    simp [none]
  | succ m ih =>
    cases as with
    | nil => exact absurd contacts id
    | cons a as =>
      obtain ⟨allowed, rest⟩ := contacts
      have low := level_of_held inv hc hw (.inr hp) hi hj allowed
      rw [seqStep_release_low hc hw hp low] at rest
      intro b hb
      rcases List.mem_cons.1 hb with rfl | hb
      · exact low
      · exact ih (s := s.record _) (inv.of_eq rfl rfl rfl rfl rfl rfl rfl) hc hw hp hi hj rest b hb

/-- Once the key is released the pass ends in two turns, under `PASS_END_ON_EVENT` (R126, R127). -/
theorem seqFold_released {s : State} {as : List Answer} (inv : ColumnInv s) (hc : s.cur = some .kpScan)
    (hw : s.waitLeft = 0) (hp : s.scan.phase = .release) (hit : s.scan.hit = true) (ends : s.params.passEndOnEvent = true)
    (contacts : AnswersContacts [[], []] as s) :
    (seqFold as s).cur = none ∧ ColumnInv (seqFold as s) ∧ NoEvent s (seqFold as s) := by
  match as, contacts with
  | [a, b], ⟨allowed, _, _⟩ =>
    have high : a.level = true := by
      have := allowed hw (.inr hp)
      rw [contactAllows, contactLevel_released (inv.configured (inv.scanning hc).2)] at this
      simpa using this
    have released : seqStep a s = s.afterScan a := (seqStep_scan a hc hw).trans (scanStep_eq a hc hw)
    have goesOn : scanEnds s = false := by simp [scanEnds, hp]
    have next : scanNext a s = { s.scan with phase := .restore } := by simp [scanNext, hp, high, ends]
    have hc' : (s.afterScan a).cur = some .kpScan := by simp [goesOn]
    have hw' : (s.afterScan a).waitLeft = 0 := by simp [scanCyclesLeft, hp]
    have restored : seqStep b (s.afterScan a) = (s.afterScan a).afterScan b :=
      (seqStep_scan b hc' hw').trans (scanStep_eq b hc' hw')
    have inv' := (inv.seqStep a).seqStep b
    rw [seqFold_cons, seqFold_cons, seqFold_nil]
    refine ⟨?_, inv', ?_⟩ <;> rw [released, restored]
    · have last : scanEnds (s.afterScan a) = true := by simp [scanEnds, next, hit, ends]
      simp [last]
    · exact (noEvent_afterScan (by simp [scanHits, hp])).trans (noEvent_afterScan (by simp [scanHits, next]))

/-- The release-wait of the held key, to the end of the pass. -/
theorem seqFold_held_released {s : State} {as : List Answer} {i j : Fin 4} {m : Nat} (inv : ColumnInv s)
    (hc : s.cur = some .kpScan) (hw : s.waitLeft = 0) (hp : s.scan.phase = .release) (hi : s.scan.i = i) (hj : s.scan.j = j)
    (hit : s.scan.hit = true) (ends : s.params.passEndOnEvent = true)
    (contacts : AnswersContacts (List.replicate m [(i, j)] ++ [[], []]) as s) :
    (seqFold as s).cur = none ∧ ColumnInv (seqFold as s) ∧ NoEvent s (seqFold as s) := by
  obtain ⟨bs, cs, rfl, held, released⟩ := answersContacts_append contacts
  have lows := levels_of_held inv hc hw hp hi hj held
  rw [seqFold_release_low hc hw hp lows] at released
  rw [seqFold_append, seqFold_release_low hc hw hp lows]
  exact seqFold_released (inv.of_eq rfl rfl rfl rfl rfl rfl rfl) hc hw hp hit ends released

/-- From the low read of the held key's cell: its event, and then the release-wait, under `PASS_END_ON_EVENT` (R125 to
R127). -/
theorem seqFold_held_key {s : State} {as : List Answer} {i j : Fin 4} {m : Nat} (inv : ColumnInv s)
    (hc : s.cur = some .kpScan) (hw : s.waitLeft = 0) (hp : s.scan.phase = .read) (hi : s.scan.i = i) (hj : s.scan.j = j)
    (ends : s.params.passEndOnEvent = true)
    (contacts : AnswersContacts ([(i, j)] :: (List.replicate m [(i, j)] ++ [[], []])) as s) :
    (seqFold as s).cur = none ∧ ColumnInv (seqFold as s) ∧ (seqFold as s).kpReady = s.kpReady ∧
    (seqFold as s).key = KeyReg.ofEvent s.params i j ∧
    (seqFold as s).obs.keys = s.obs.keys ++ [⟨i, j, symbolCode (keyAt s.params i j)⟩] := by
  cases as with
  | nil => exact absurd contacts id
  | cons a as =>
    obtain ⟨allowed, contacts⟩ := contacts
    have event := seqStep_low_read hc hw hp (level_of_held inv hc hw (.inl hp) hi hj allowed)
    have inv' := inv.seqStep a
    rw [event] at inv' contacts
    rw [seqFold_cons, event]
    subst hi hj
    obtain ⟨idle, inv'', key, _, keys, _, ready⟩ := seqFold_held_released inv' hc hw rfl rfl rfl rfl ends contacts
    exact ⟨idle, inv'', ready, key, keys⟩

/-- The read of a cell is one of a quiet pass's steps (R122). -/
theorem cell_within (p : Params) (i j : Fin 4) :
    j.val * columnSteps p + (1 + settleSteps p + i.val) < 4 * columnSteps p := by
  have row : 1 + settleSteps p + i.val < columnSteps p := by
    unfold columnSteps
    omega
  calc j.val * columnSteps p + (1 + settleSteps p + i.val) < (j.val + 1) * columnSteps p := by
        rw [Nat.add_mul, Nat.one_mul]
        omega
    _ ≤ 4 * columnSteps p := Nat.mul_le_mul_right _ (by omega)

/-- Settles O33: the pass is quiet up to the key's cell, and `seqFold_held_key` goes on from there. -/
theorem oneHeldKeyGivesOneEvent : Obligations.OneHeldKeyGivesOneEvent := by
  intro s i j inv idle ready ends
  refine ⟨accepted .kpScan s, exec_ready idle ready, fun n as enough contacts => ?_⟩
  have start := quietAt_accepted (inv.idle idle).2
  have within := cell_within s.params i j
  have split : ∀ N m, List.replicate (N + (m + 1)) [(i, j)] ++ [[], []] =
      List.replicate N [(i, j)] ++ ([(i, j)] :: (List.replicate m [(i, j)] ++ [[], []])) := fun N m => by
    rw [List.replicate_add, List.replicate_succ, List.append_assoc, List.cons_append]
  obtain ⟨m, rfl⟩ : ∃ m, n = (j.val * columnSteps s.params + (1 + settleSteps s.params + i.val)) + (m + 1) :=
    ⟨n - stepsToRead s.params i j, by unfold stepsToRead at enough ⊢; omega⟩
  rw [split] at contacts
  obtain ⟨as, bs, rfl, before, contacts⟩ := answersContacts_append contacts
  obtain ⟨inv', ⟨_, _, keys, params, kp⟩, place⟩ :=
    quiet_contacts (inv.accepted (i := .kpScan) idle ready) start (Nat.le_of_eq (Nat.zero_add _)) (Nat.le_of_lt within)
      (fun u n inv params quiet before hw hp => quiet.reads_high inv (params ▸ before) hw hp) before
  have build : (seqFold as (accepted .kpScan s)).params = s.params := params
  have quiet : QuietAt (seqFold as (accepted .kpScan s)) (j.val * columnSteps (seqFold as (accepted .kpScan s)).params +
      (1 + settleSteps (seqFold as (accepted .kpScan s)).params + i.val)) := by
    rw [build]
    rcases place with quiet | ⟨_, last⟩
    · rwa [Nat.zero_add] at quiet
    · rw [Nat.zero_add] at last
      exact absurd last (Nat.ne_of_lt within)
  obtain ⟨hc, hw, hp, hi, hj⟩ := quiet.reads
  obtain ⟨ended, inv'', ready', key, event⟩ := seqFold_held_key inv' hc hw hp hi hj (build ▸ ends) contacts
  refine ⟨_, seqRun_eq _ _, ?_⟩
  rw [seqFold_append]
  rw [build] at key event
  rw [keys] at event
  exact ⟨ended, inv''.columnsHigh_of_idle (ready'.trans (kp.trans ready)) ended, key, event⟩

end Sys2Proof.Safety
end

section
/-! The STATUS word, field by field (R23, R38). -/

namespace Sys2Proof.Machine

/-- Bit 0 of STATUS, BUSY, is set but in state IDLE (R23, R38). -/
theorem statusWord_busy (s : State) : (statusWord s).getLsbD 0 = decide (stateCode s ≠ 0) := by
  simp only [statusWord, BitVec.getLsbD_append]
  by_cases idle : stateCode s = 0#4 <;> simp [idle]

/-- Bits 1 to 3 of STATUS are KEY's VALID and the ready flags (R23). -/
theorem statusWord_ready (s : State) : (statusWord s).getLsbD 1 = s.key.valid ∧ (statusWord s).getLsbD 2 = s.kpReady ∧
    (statusWord s).getLsbD 3 = s.lcdReady := by
  simp only [statusWord, BitVec.getLsbD_append]
  simp

/-- Bits 7:4 of STATUS are the state code (R23). -/
theorem statusWord_state (s : State) : (statusWord s).extractLsb' 4 4 = stateCode s := by
  apply BitVec.eq_of_getLsbD_eq
  intro k hk
  simp only [statusWord, BitVec.getLsbD_extractLsb', BitVec.getLsbD_append]
  interval_cases k <;> simp

/-- A sticky flag stands at its own bit of STATUS (R23). -/
theorem statusWord_flag (s : State) (k : ErrCause) : (statusWord s).getLsbD k.statusBit = s.flags.has k := by
  simp only [statusWord, Flags.bits, BitVec.getLsbD_append]
  cases k <;> simp [ErrCause.statusBit, Flags.has]

/-- Bits 20:16 of STATUS are the line index (R23). -/
theorem statusWord_lbIdx (s : State) : ((statusWord s).extractLsb' 16 5).toNat = s.lbIdx.val := by
  have field : (statusWord s).extractLsb' 16 5 = BitVec.ofNat 5 s.lbIdx.val := by
    apply BitVec.eq_of_getLsbD_eq
    intro k hk
    simp only [statusWord, BitVec.getLsbD_extractLsb', BitVec.getLsbD_append]
    interval_cases k <;> simp
  rw [field, BitVec.toNat_ofNat]
  exact Nat.mod_eq_of_lt (by omega)

/-- The reserved bits of STATUS, 15:13 and 31:21, read 0 (R23). -/
theorem statusWord_reserved (s : State) :
    (statusWord s).extractLsb' 13 3 = 0 ∧ (statusWord s).extractLsb' 21 11 = 0 := by
  constructor <;>
  · apply BitVec.eq_of_getLsbD_eq
    intro k hk
    simp only [statusWord, BitVec.getLsbD_extractLsb', BitVec.getLsbD_append]
    interval_cases k <;> simp

/-- The greatest state code is 6, LCD_WRITE_LINE's (R38). -/
theorem stateCode_le (s : State) : (stateCode s).toNat ≤ 6 := by
  cases hc : s.cur with
  | none => simp [stateCode, hc]
  | some c =>
    cases c with
    | kpScan =>
      by_cases release : s.scan.phase = .release <;> simp [stateCode, hc, release]
    | _ => simp [stateCode, hc]

/-- Settles O37: the fields of the word by the lemmas above, and the state codes by the running command. -/
theorem statusWordHasItsFields : Obligations.StatusWordHasItsFields := by
  intro s w
  have state : w.extractLsb' 4 4 = stateCode s := statusWord_state s
  obtain ⟨valid, kp, lcd⟩ := statusWord_ready s
  obtain ⟨low, high⟩ := statusWord_reserved s
  rw [state]
  refine ⟨statusWord_busy s, valid, kp, lcd, statusWord_flag s .ill, statusWord_flag s .ovr, statusWord_flag s .notinit,
    statusWord_flag s .cfgerr, statusWord_flag s .kovr, stateCode_le s, low, statusWord_lbIdx s, high, stateCode_idle,
    ?kpInit, ?scan, ?release, ?lcdInit, ?byte, ?line⟩
  case byte => rintro v (hc | hc) <;> simp [stateCode, hc]
  case line => exact fun l hc => by simp [stateCode, hc]
  case scan => exact fun hc hp => by simp [stateCode, hc, hp]
  case release => exact fun hc hp => by simp [stateCode, hc, hp]
  case kpInit => exact fun hc => by simp [stateCode, hc]
  case lcdInit => exact fun hc => by simp [stateCode, hc]

/-- BUSY clear in STATUS means an idle block, when the running command is one SEQ runs (R38). -/
theorem idle_of_not_busy {s : State} (inv : Safety.SequencerInv s) (h : (statusWord s).getLsbD 0 = false) :
    s.cur = none := by
  rw [statusWord_busy, decide_eq_false_iff_not, not_not] at h
  by_contra busy
  obtain ⟨c, hc⟩ := Option.ne_none_iff_exists'.1 busy
  have runs := inv.runs c hc
  cases c with
  | kpScan => by_cases release : s.scan.phase = .release <;> simp [stateCode, hc, release] at h
  | nop | lbBegin | lbPut => exact runs.elim
  | _ => simp [stateCode, hc] at h

end Sys2Proof.Machine
end

section
/-! HOST's programs (log 21): command lines never overrun (R97), and `kp.getkey` takes the event (R99). -/

namespace Sys2Proof.Machine

/-! ### When OVR is set, and when an idle block stays idle -/

/-- The access of HOST's that an input holds. -/
def Input.access : Input → Option HostAccess
  | .host a | .both a _ => some a
  | .seq _ | .reset => none

/-- HOST starts a command by a CMD write alone. -/
theorem hostStep_cur {a : HostAccess} {s t : State} (h : hostStep a s = .next t)
    (noSubmit : ∀ w, a ≠ .write 0x0 4 w) : t.cur = s.cur := by
  rcases hostStep_effects h with ⟨off, _, rfl⟩ | ⟨w, ha, _⟩ | ⟨w, ha, _⟩ | ⟨w, _, ha, _⟩ | ⟨_, _, rfl⟩ | ⟨_, _, _, _, _, rfl⟩
  · rw [hostRead_eq]
  · exact absurd ha (noSubmit w)
  · exact absurd ha (noSubmit w)
  · exact absurd ha (noSubmit w)
  · rfl
  · rfl

/-- HOST sets OVR by a CMD write to a busy block alone (R212). -/
theorem hostStep_ovr {a : HostAccess} {s t : State} (h : hostStep a s = .next t)
    (onIdle : ∀ w, a = .write 0x0 4 w → s.cur = none) (clear : s.flags.ovr = false) : t.flags.ovr = false := by
  rcases hostStep_effects h with ⟨off, _, rfl⟩ | ⟨w, ha, busy, _⟩ | ⟨_, _, _, rfl | rfl⟩ | ⟨_, i, _, _, _, _, rfl⟩ |
      ⟨v, _, rfl⟩ | ⟨_, _, _, _, _, rfl⟩
  · rw [hostRead_eq]
    exact clear
  · exact absurd (onIdle w ha) busy
  · simpa using clear
  · simpa using clear
  · simpa using clear
  · simp [Flags.clearedBy, clear]
  · exact clear

/-- SEQ never touches OVR. -/
theorem seqStep_ovr (a : Answer) (s : State) : (seqStep a s).flags.ovr = s.flags.ovr := by
  rcases seqStep_turns a s with ⟨_, e⟩ | ⟨_, _, _, e⟩ | ⟨_, _, e⟩ | ⟨_, _, _, _, _, _, _, _, e⟩ |
      ⟨_, _, _, _, _, _, _, _, e⟩ | ⟨_, _, _, _, _, e⟩ <;> simp [e, State.afterScan]

/-- HOST's access in the next step, if it makes one. -/
def nextAccess (s : State) : Option HostAccess := s.inputs.head?.bind Input.access

/-- An idle block to which HOST writes no command stays idle. -/
theorem step_idle {s t : State} (h : step s = .next t) (noSubmit : ∀ w, nextAccess s ≠ some (.write 0x0 4 w))
    (idle : s.cur = none) : t.cur = none := by
  rcases step_cases h with ⟨_, _, rfl⟩ | ⟨_, _, busy, _⟩ | ⟨ans, _, _, rfl⟩ | ⟨a, rest, hi, ha⟩ |
      ⟨a, ans, rest, u, hi, ha, turn⟩ | ⟨_, _, rfl⟩
  · exact idle
  · exact absurd idle busy
  · rw [seqStep_idle ans (by exact idle)]
    exact idle
  · exact (hostStep_cur ha fun w e => noSubmit w (by simp [nextAccess, hi, Input.access, e])).trans idle
  · rcases turn with ⟨busy, _⟩ | ⟨_, rfl⟩
    · exact absurd idle busy
    · exact (hostStep_cur ha fun w e => noSubmit w (by simp [nextAccess, hi, Input.access, e])).trans idle
  · rfl

/-- No step sets OVR in which HOST writes a command to an idle block or none at all (R212). -/
theorem step_ovr {s t : State} (h : step s = .next t) (onIdle : ∀ w, nextAccess s = some (.write 0x0 4 w) → s.cur = none)
    (clear : s.flags.ovr = false) : t.flags.ovr = false := by
  rcases step_cases h with ⟨_, _, rfl⟩ | ⟨ans, _, _, rfl⟩ | ⟨ans, _, _, rfl⟩ | ⟨a, rest, hi, ha⟩ |
      ⟨a, ans, rest, u, hi, ha, turn⟩ | ⟨_, _, rfl⟩
  · exact clear
  · exact (seqStep_ovr ans _).trans clear
  · exact (seqStep_ovr ans _).trans clear
  · exact hostStep_ovr ha (fun w e => onIdle w (by simp [nextAccess, hi, Input.access, e])) clear
  · have byHost := hostStep_ovr ha (fun w e => onIdle w (by simp [nextAccess, hi, Input.access, e])) clear
    rcases turn with ⟨_, rfl⟩ | ⟨_, rfl⟩
    · exact (seqStep_ovr ans u).trans byHost
    · exact byHost
  · rfl

/-! ### HOST's side of a turn -/

theorem resume_prog (h : HostState) (reply : Word) : (h.resume reply).prog = h.prog := by
  unfold HostState.resume
  split <;> (try split) <;> rfl

/-- By its command lines alone HOST writes a command only after its poll, and the poll is then used up (R97). -/
theorem request_submits {h : HostState} (byLine : Safety.CommandsByLine h) {w : Word}
    (asked : h.request = some (.write 0x0 4 w)) : h.polled = true ∧ ∀ reply, (h.resume reply).polled = false := by
  cases line : h.prog[h.line]? with
  | none => simp [HostState.request, line] at asked
  | some op =>
    cases op with
    | command a =>
      cases polled : h.polled with
      | true => exact ⟨rfl, fun reply => by simp [HostState.resume, line, polled]⟩
      | false => simp [HostState.request, line, polled] at asked
    | write off v =>
      simp only [HostState.request, line, Option.some.injEq, HostAccess.write.injEq] at asked
      exact absurd asked.1 (byLine off v (List.mem_of_getElem? line))
    | _ => simp [HostState.request, line] at asked

/-- HOST's poll of a command line is done when it was, or when the STATUS word it has read has BUSY clear (R97). -/
theorem resume_polled {h : HostState} {reply : Word} (polled : (h.resume reply).polled = true) :
    h.polled = true ∨ (h.request = some (.read 0x4 4) ∧ reply.getLsbD 0 = false) := by
  cases already : h.polled with
  | true => exact .inl rfl
  | false =>
    cases line : h.prog[h.line]? with
    | none => simp [HostState.resume, line, already] at polled
    | some op =>
      cases op with
      | command a =>
        exact .inr ⟨by simp [HostState.request, line, already], by simpa [HostState.resume, line, already] using polled⟩
      | pollIdle =>
        simp only [HostState.resume, line] at polled
        split at polled <;> simp [already] at polled
      | _ => simp [HostState.resume, line, already] at polled

/-! ### A turn -/

/-- The value an access returns to HOST: a read the register's, a write none, for which 0 stands. -/
def accessReply (s : State) : HostAccess → Word
  | .read off _ => peek s off
  | .write _ _ _ => 0

/-- The block steps on an input, and HOST is then `g`. -/
def blockTurn (inp : Input) (g : HostState) (s : State) : Host.Outcome (HostState × State) Fault Refusal :=
  match step { s with inputs := inp :: s.inputs } with
  | .next s' => .next (g, s')
  | .fault r => .fault r
  | .refused r => .refused r

theorem blockTurn_eq_next {inp : Input} {g h' : HostState} {s s' : State} (turn : blockTurn inp g s = .next (h', s')) :
    h' = g ∧ step { s with inputs := inp :: s.inputs } = .next s' := by
  unfold blockTurn at turn
  split at turn <;> cases turn
  case h_1 e => exact ⟨rfl, e⟩

section
variable {h : HostState} (s : State)

theorem systemStep_seq (ans : Answer) : systemStep (.seq ans) h s = blockTurn (.seq ans) h s := rfl

theorem systemStep_reset : systemStep .reset h s = blockTurn .reset h s := rfl

theorem systemStep_host {a : HostAccess} (asked : h.request = some a) :
    systemStep .host h s = blockTurn (.host a) (h.resume (accessReply s a)) s := by
  cases a <;> simp only [systemStep, asked] <;> rfl

theorem systemStep_host_silent (asked : h.request = none) : systemStep .host h s = .next (h.resume 0, s) := by
  simp only [systemStep, asked]

theorem systemStep_both {a : HostAccess} (asked : h.request = some a) (ans : Answer) :
    systemStep (.both ans) h s = blockTurn (.both a ans) (h.resume (accessReply s a)) s := by
  cases a <;> simp only [systemStep, asked] <;> rfl

theorem systemStep_both_silent (asked : h.request = none) (ans : Answer) :
    systemStep (.both ans) h s = blockTurn (.seq ans) (h.resume 0) s := by
  simp only [systemStep, asked]
  rfl

end

/-- HOST's part in a turn: it waits, or goes on with the reply to what it asked for. -/
def HostMoves (h h' : HostState) (s : State) : Prop :=
  h' = h ∨ (h.request = none ∧ h' = h.resume 0) ∨ ∃ a, h.request = some a ∧ h' = h.resume (accessReply s a)

/-- A turn is HOST's part in it and at most one step of the block, whose access is what HOST asked for. -/
theorem systemStep_cases {t : Turn} {h h' : HostState} {s s' : State} (turn : systemStep t h s = .next (h', s')) :
    HostMoves h h' s ∧ (s' = s ∨ ∃ inp, step { s with inputs := inp :: s.inputs } = .next s' ∧
      ∀ a, inp.access = some a → h.request = some a ∧ h' = h.resume (accessReply s a)) := by
  cases t with
  | seq ans =>
    obtain ⟨rfl, stepped⟩ := blockTurn_eq_next (systemStep_seq s ans ▸ turn)
    exact ⟨.inl rfl, .inr ⟨_, stepped, nofun⟩⟩
  | reset =>
    obtain ⟨rfl, stepped⟩ := blockTurn_eq_next (systemStep_reset s ▸ turn)
    exact ⟨.inl rfl, .inr ⟨_, stepped, nofun⟩⟩
  | host =>
    cases asked : h.request with
    | none =>
      rw [systemStep_host_silent s asked] at turn
      cases turn
      exact ⟨.inr (.inl ⟨asked, rfl⟩), .inl rfl⟩
    | some a =>
      obtain ⟨rfl, stepped⟩ := blockTurn_eq_next (systemStep_host s asked ▸ turn)
      exact ⟨.inr (.inr ⟨a, asked, rfl⟩), .inr ⟨_, stepped, by rintro _ ⟨⟩; exact ⟨rfl, rfl⟩⟩⟩
  | both ans =>
    cases asked : h.request with
    | none =>
      obtain ⟨rfl, stepped⟩ := blockTurn_eq_next (systemStep_both_silent s asked ans ▸ turn)
      exact ⟨.inr (.inl ⟨asked, rfl⟩), .inr ⟨_, stepped, nofun⟩⟩
    | some a =>
      obtain ⟨rfl, stepped⟩ := blockTurn_eq_next (systemStep_both s asked ans ▸ turn)
      exact ⟨.inr (.inr ⟨a, asked, rfl⟩), .inr ⟨_, stepped, by rintro _ ⟨⟩; exact ⟨rfl, rfl⟩⟩⟩

end Sys2Proof.Machine

namespace Sys2Proof.Safety

open Sys2Proof.Machine

/-- When HOST's poll is done after a turn, the block was idle before the turn. -/
theorem PolledIdle.idle {h h' : HostState} {s : State} (promise : PolledIdle h s) (inv : SequencerInv s)
    (moves : HostMoves h h' s) (polled : h'.polled = true) : s.cur = none := by
  rcases moves with rfl | ⟨asked, rfl⟩ | ⟨a, asked, rfl⟩
  · exact promise polled
  · rcases resume_polled polled with already | ⟨poll, _⟩
    · exact promise already
    · simp [asked] at poll
  · rcases resume_polled polled with already | ⟨poll, clear⟩
    · exact promise already
    · obtain rfl : a = .read 0x4 4 := Option.some.inj (asked.symm.trans poll)
      exact idle_of_not_busy inv clear

/-- HOST keeps its program. -/
theorem prog_of_moves {h h' : HostState} {s : State} (moves : HostMoves h h' s) : h'.prog = h.prog := by
  rcases moves with rfl | ⟨_, rfl⟩ | ⟨_, _, rfl⟩
  · rfl
  · exact resume_prog h _
  · exact resume_prog h _

/-- Settles O43: HOST writes a command only after its poll, so to an idle block; and its poll is done only on one. -/
theorem commandLinesNeverOverrun : Obligations.CommandLinesNeverOverrun := by
  intro t h h' s s' byLine inv promise turn
  obtain ⟨moves, block⟩ := systemStep_cases turn
  refine ⟨by rwa [CommandsByLine, prog_of_moves moves], ?_⟩
  rcases block with rfl | ⟨inp, stepped, asked⟩
  · exact ⟨inv, fun polled => promise.idle inv moves polled, id⟩
  · have submit : ∀ w, inp.access = some (.write 0x0 4 w) → h.polled = true ∧ h'.polled = false := fun w e => by
      obtain ⟨request, rfl⟩ := asked _ e
      exact (request_submits byLine request).imp id (· _)
    refine ⟨stepKeepsSequencerInv { s with inputs := inp :: s.inputs } s' (inv.of_eq rfl rfl rfl rfl rfl) stepped,
      fun polled => ?_, fun clear => ?_⟩
    · refine step_idle stepped (fun w e => ?_) (promise.idle inv moves polled)
      exact Bool.noConfusion (polled.symm.trans (submit w e).2)
    · exact step_ovr stepped (fun w e => promise (submit w e).1) clear

end Sys2Proof.Safety

/-! ### kp.getkey -/

namespace Sys2Proof.Machine

/-- The field 31:31 of the KEY word is VALID (R16, R26). -/
theorem key_word_valid (k : KeyReg) : k.word.toNat / 2 ^ 31 % 2 ^ (31 + 1 - 31) = k.valid.toNat := by
  have bit : k.word.getLsbD 31 = k.valid := by
    simp only [KeyReg.word, BitVec.getLsbD_append]
    simp
  rw [← bit]
  exact (Nat.toNat_testBit _ _).symm

/-- HOST after a line that has read `w` into `x`. -/
def HostState.taken (h : HostState) (x : Nat) (w : Word) : HostState :=
  { h with line := h.line + 1, vars := (x, w) :: h.vars }

/-- The value just read is in its variable, and every other variable is as it was. -/
theorem taken_var (h : HostState) (x y : Nat) (w : Word) : (h.taken x w).var y = if y = x then w else h.var y := by
  by_cases same : y = x
  · simp [HostState.taken, HostState.var, same]
  · have other : (y == x) = false := beq_false_of_ne same
    simp [HostState.taken, HostState.var, List.lookup, same, other]

/-- The two lines of `kp.getkey` that take the event, at HOST's line (R99). -/
structure AtGetkeyRead (h : HostState) (at_ x : Nat) : Prop where
  line : h.line = at_ + 2
  read : h.prog[h.line]? = some (.read 0x8 x)
  branch : h.prog[h.line + 1]? = some (.ifGoto ⟨x, 31, 31, 0, true⟩ at_)

/-- The turn of the read: the block consumes the event, and HOST has the KEY word. -/
theorem AtGetkeyRead.read_turn {h : HostState} {at_ x : Nat} (here : AtGetkeyRead h at_ x) (s : State) :
    systemStep .host h s = .next (h.taken x s.key.word, { s with
      key := s.key.consumed, obs := { s.obs with reads := s.obs.reads ++ [⟨0x8, s.key.word⟩] } }) := by
  have asked : h.request = some (.read 0x8 4) := by simp [HostState.request, here.read]
  have resumed : h.resume (accessReply s (.read 0x8 4)) = h.taken x s.key.word := by
    simp only [HostState.resume, here.read]
    rfl
  rw [systemStep_host s asked, resumed, blockTurn, step_host rfl, hostStep_read_key]

/-- The turn of the branch, which is HOST's alone: back to the scan when VALID was clear, else on. -/
theorem AtGetkeyRead.branch_turn {h : HostState} {at_ x : Nat} (here : AtGetkeyRead h at_ x) (k : KeyReg) (t : State) :
    systemStep .host (h.taken x k.word) t =
      .next ({ h.taken x k.word with line := if k.valid then at_ + 4 else at_ }, t) := by
  have branch : (h.taken x k.word).prog[(h.taken x k.word).line]? = some (.ifGoto ⟨x, 31, 31, 0, true⟩ at_) := here.branch
  have next : (h.taken x k.word).line + 1 = at_ + 4 := congrArg (· + 2) here.line
  have test : (h.taken x k.word).test ⟨x, 31, 31, 0, true⟩ = !k.valid := by
    rw [HostState.test, HostState.field, taken_var, if_pos rfl, key_word_valid]
    cases k.valid <;> rfl
  have silent : (h.taken x k.word).request = none := by simp only [HostState.request, branch]
  rw [systemStep_host_silent t silent]
  simp only [HostState.resume, branch, test, next]
  cases k.valid <;> rfl

end Sys2Proof.Machine

namespace Sys2Proof.Safety

open Sys2Proof.Machine

/-- Settles O44: the turn of the read, and then the turn of the branch. -/
theorem getkeyTakesTheEvent : Obligations.GetkeyTakesTheEvent := by
  intro h s at_ x lines line
  have here : AtGetkeyRead h at_ x := by
    constructor
    case line => exact line
    all_goals rw [line]
    · exact lines 2 (by decide)
    · exact lines 3 (by decide)
  refine ⟨{ h.taken x s.key.word with line := if s.key.valid then at_ + 4 else at_ }, _, ?_, ?_, fun y other => ?_,
    rfl, rfl, rfl, rfl⟩
  · simp only [systemRun, here.read_turn, here.branch_turn]
    rfl
  · exact (taken_var h x x _).trans (if_pos rfl)
  · exact (taken_var h x y _).trans (if_neg other)

end Sys2Proof.Safety
end
